-- ==== Sys2Proof/Word.lean ====
section
/-! DEFINITION. The word types of the block (spec/00_scope.md R9, R10; spec/20_memory.md R74). -/

namespace Sys2Proof

/-- A sample: the 32 bits of one IEEE 754 binary32 value (20_memory.md R74). -/
abbrev F32 := BitVec 32

/-- The 64 bits of one IEEE 754 binary64 value; only the sample rate is one (10_state.md R25). -/
abbrev F64 := BitVec 64

/-- A 32-bit control register or response word. -/
abbrev Word32 := BitVec 32

/-- A command word (30_encoding.md R90). -/
abbrev Command := BitVec 64

end Sys2Proof
end

