-- ==== Sys2Proof/Config.lean ====
section
/-! DEFINITION. What an implementation fixes: the structural sizes (00_scope.md R6), the OPEN
parameters `CFG` and `NUM` (00_scope.md R8, R9; 92_eei_decisions.md section 2), and the free values
of the model. None of the `opaque` constants has a body: no proof can see what they are. -/

namespace Sys2Proof.Config

/-- The structural sizes, with the defaults of 00_scope.md R6: value registers, ring-buffer units,
filter-state units, and the largest capacity of a ring buffer. -/
structure Sizes where
  nx       : Nat := 16
  nrb      : Nat := 32
  nfs      : Nat := 32
  rbCapMax : Nat := 1048576
deriving DecidableEq, Repr

/-- The sizes of this block. DESIGN CHOICE: the defaults of 00_scope.md R6 (log 5). -/
abbrev sizes : Sizes := {}

/-- Number of value registers (00_scope.md R6). -/
abbrev nx : Nat := sizes.nx

/-- Number of ring-buffer units (00_scope.md R6). -/
abbrev nrb : Nat := sizes.nrb

/-- Number of filter-state units (00_scope.md R6). -/
abbrev nfs : Nat := sizes.nfs

/-- Largest capacity of a ring buffer (00_scope.md R6). -/
abbrev rbCapMax : Nat := sizes.rbCapMax

/-- The tank delay lines an output tap may read (46_reverb.md R287): ring buffers 5, 7, 9, 11. -/
inductive TankLine where
  | rb5 | rb7 | rb9 | rb11
deriving DecidableEq, Repr, Inhabited

/-- One output tap of the reverb: a line and a delay in samples at the reference rate
(46_reverb.md R287). -/
structure Tap where
  line : TankLine
  pos  : F32
deriving DecidableEq, Repr, Inhabited

/-- The OPEN parameters as an implementation states them (92_eei_decisions.md section 2). The
constraint of each stands in `Machine/Numerics.lean`, whose accessors the meanings use. -/
structure Cfg where
  refRate     : F64
  rbBase      : Vector F64 17
  gT1         : F32
  gT2         : F32
  revTapL     : Vector Tap 4
  revTapR     : Vector Tap 4
  revWtB      : Vector F32 4
  dcbR        : F32
  revTiltK    : F32
  satTiltK    : F32
  shimFbGain  : F32
  shimOffset  : F32
  dlyLfoHz    : F32
  dlyLfoPhi   : F32
  dlyModMax   : F32
  satGTape    : F32
  satGTube    : F32
  satTubeC2   : F32
  satTubeC3   : F32
  satEnvAtt   : F32
  satCompAtt  : F32
  satClip     : F32 → F32 → F32 → F32
  foldGain    : F32 → F32 → F32
  satRelease  : F32 → F64 → F32
  satPunch    : F32 → F32
  compTarget  : F32 → F32 → F32
  compRelease : F32 → F64 → F32
  exp         : F32 → F32
  tanh        : F32 → F32
  cos         : F32 → F32
  sin         : F32 → F32
  pow         : F32 → F32 → F32
deriving Inhabited

/-- The configuration of the block: fixed before reset, written by no command (70_reset_and_hazards.md
R371). Every OPEN value of the spec is a field of it (log 6, log 7). -/
opaque cfg : Cfg

/-- `NUM.ftz`: whether a subnormal result is replaced by a zero (20_memory.md R74; log 8). -/
opaque ftz : Bool

/-- The free values of binary32 writes that the spec calls unspecified (20_memory.md R76;
93_implementation_defined.md U1), numbered by `State.free` (log 9, log 10). -/
opaque freeF32 : Nat → F32

/-- Which of two zeros of opposite sign `min` returns: the first operand if true
(93_implementation_defined.md U4; log 13). -/
opaque minPicksFirst : F32 → F32 → Bool

/-- Which of two zeros of opposite sign `max` returns: the first operand if true
(93_implementation_defined.md U4; log 13). -/
opaque maxPicksFirst : F32 → F32 → Bool

end Sys2Proof.Config
end

