-- ==== Sys2Proof/Syntax.lean ====
section
/-! DEFINITION. The commands of the block: one constructor per row of spec/opcode_table.json
(30_encoding.md R96), and the names their operands range over (30_encoding.md R92, R95). -/

namespace Sys2Proof

/-- A value register `x0`..`x15` (10_state.md R21). -/
abbrev Reg := Fin Config.nx

/-- A ring-buffer unit `rb0`..`rb31` (10_state.md R29). -/
abbrev RbUnit := Fin Config.nrb

/-- A filter-state unit `fs0`..`fs31` (10_state.md R30). -/
abbrev FsUnit := Fin Config.nfs

/-- An engine: rev = 0, dly = 1, sat = 2 (20_memory.md R66). -/
inductive Engine where
  | rev | dly | sat
deriving DecidableEq, Repr

/-- A channel: left = 0, right = 1 (20_memory.md R66). -/
inductive Channel where
  | left | right
deriving DecidableEq, Repr

/-- The 21 parameter registers (10_state.md R27), in the order of the table. -/
inductive Param where
  | revMix | revSize | revDamp | revTone | revShimmer
  | dlyMix | dlyTime | dlyFeedback | dlyTone | dlySub | dlyPingpong | dlyMod
  | satGrit | satTone | satWarmth | satAttack | satOutput | satMix | satDrive | satType | satComp
deriving DecidableEq, Repr

/-- The control and status registers: the complete map of 10_state.md R28. -/
inductive Csr where
  | status | finfo | srateLo | srateHi
  | maxblk (e : Engine)
  | variant
  | param (p : Param)
deriving DecidableEq, Repr

/-- The commands (30_encoding.md R96). -/
inductive Instr where
  /-- `NOP` (47_system.md R310) -/
  | nop
  /-- `LDV xd, imm` (47_system.md R311) -/
  | ldv (rd : Reg) (imm : Word32)
  /-- `RDV xs` (47_system.md R312) -/
  | rdv (rs : Reg)
  /-- `MOV xd, xs` (47_system.md R313) -/
  | mov (rd rs : Reg)
  /-- `CSRW csr, imm` (47_system.md R314) -/
  | csrw (csr : Csr) (imm : Word32)
  /-- `CSRR csr` (47_system.md R315) -/
  | csrr (csr : Csr)
  /-- `PREPARE eng, maxBlockSize` (47_system.md R316) -/
  | prepare (e : Engine) (maxBlock : Word32)
  /-- `BLOCK eng` (47_system.md R317) -/
  | block (e : Engine)
  /-- `RB.INIT rbU, cap` (40_ring_buffer.md R121) -/
  | rbInit (u : RbUnit) (cap : Word32)
  /-- `RB.INIT2 rbU, cap` (40_ring_buffer.md R122) -/
  | rbInit2 (u : RbUnit) (cap : Word32)
  /-- `RB.PUSH rbU, xs` (40_ring_buffer.md R123) -/
  | rbPush (u : RbUnit) (rs : Reg)
  /-- `RB.RDN xd, rbU, k` (40_ring_buffer.md R124) -/
  | rbRdn (rd : Reg) (u : RbUnit) (k : Word32)
  /-- `RB.RDI xd, rbU, xs` (40_ring_buffer.md R126) -/
  | rbRdi (rd : Reg) (u : RbUnit) (rs : Reg)
  /-- `RB.RDL xd, rbU, xs` (40_ring_buffer.md R127) -/
  | rbRdl (rd : Reg) (u : RbUnit) (rs : Reg)
  /-- `RB.RDC xd, rbU, xs` (40_ring_buffer.md R128) -/
  | rbRdc (rd : Reg) (u : RbUnit) (rs : Reg)
  /-- `RB.RDP xd, rbU, xs` (40_ring_buffer.md R129) -/
  | rbRdp (rd : Reg) (u : RbUnit) (rs : Reg)
  /-- `RB.CAP rbU` (40_ring_buffer.md R131) -/
  | rbCap (u : RbUnit)
  /-- `RB.CUR rbU` (40_ring_buffer.md R132) -/
  | rbCur (u : RbUnit)
  /-- `AP.PROC xd, rbU, xs, xg` (41_allpass.md R150) -/
  | apProc (rd : Reg) (u : RbUnit) (rs rg : Reg)
  /-- `F.CLR fsF` (42_filters.md R161) -/
  | fClr (f : FsUnit)
  /-- `F.LP xd, fsF, xs, xa` (42_filters.md R162) -/
  | fLp (rd : Reg) (f : FsUnit) (rs ra : Reg)
  /-- `F.HP xd, fsF, xs, xa` (42_filters.md R164) -/
  | fHp (rd : Reg) (f : FsUnit) (rs ra : Reg)
  /-- `F.DCB xd, fsF, xs, xr` (42_filters.md R165) -/
  | fDcb (rd : Reg) (f : FsUnit) (rs rr : Reg)
  /-- `SLIM xd, xs` (42_filters.md R166) -/
  | slim (rd rs : Reg)
  /-- `CLAMP xd, xs, xlo, xhi` (42_filters.md R167) -/
  | clamp (rd rs lo hi : Reg)
  /-- `F.COEF xd, xs` (42_filters.md R163) -/
  | fCoef (rd rs : Reg)
  /-- `TILT.REV xd, ch, xs` (42_filters.md R171) -/
  | tiltRev (rd : Reg) (ch : Channel) (rs : Reg)
  /-- `TILT.DLY xd, ch, xs` (42_filters.md R172) -/
  | tiltDly (rd : Reg) (ch : Channel) (rs : Reg)
  /-- `TILT.SAT xd, ch, xs` (42_filters.md R175) -/
  | tiltSat (rd : Reg) (ch : Channel) (rs : Reg)
  /-- `SHIM.WIN xd, xs` (43_shimmer.md R190) -/
  | shimWin (rd rs : Reg)
  /-- `SHIM.STEP xd, xs` (43_shimmer.md R198) -/
  | shimStep (rd rs : Reg)
  /-- `DLY.TIME xd, xs` (44_delay.md R211) -/
  | dlyTime (rd rs : Reg)
  /-- `DLY.RATIO xd, xs` (44_delay.md R212) -/
  | dlyRatio (rd rs : Reg)
  /-- `DLY.SAMPLE xl, xr` (44_delay.md R222) -/
  | dlySample (l r : Reg)
  /-- `SAT.TAPE xd, xs, xdrive, xgrit` (45_saturation.md R241) -/
  | satTape (rd rs drive grit : Reg)
  /-- `SAT.TUBE xd, xs, xdrive, xgrit` (45_saturation.md R242) -/
  | satTube (rd rs drive grit : Reg)
  /-- `SAT.CLIP xd, xs, xdrive, xgrit` (45_saturation.md R243) -/
  | satClip (rd rs drive grit : Reg)
  /-- `SAT.FOLD xd, xs, xdrive, xgrit` (45_saturation.md R244) -/
  | satFold (rd rs drive grit : Reg)
  /-- `SAT.XF xd, xs, xdrive, xgrit` (45_saturation.md R246) -/
  | satXf (rd rs drive grit : Reg)
  /-- `SAT.OUTG xd, xs` (45_saturation.md R258) -/
  | satOutg (rd rs : Reg)
  /-- `SAT.SAMPLE xl, xr` (45_saturation.md R262) -/
  | satSample (l r : Reg)
  /-- `REV.DECAY xd, xs` (46_reverb.md R281) -/
  | revDecay (rd rs : Reg)
  /-- `REV.DAMP xd, xs` (46_reverb.md R282) -/
  | revDamp (rd rs : Reg)
  /-- `REV.SAMPLE xl, xr` (46_reverb.md R295) -/
  | revSample (l r : Reg)
deriving DecidableEq, Repr

end Sys2Proof
end

