-- ==== Sys2Proof/WellFormed.lean ====
section
/-! DEFINITION. Which commands are legal as syntax. The operand types already bound every register,
unit, engine, channel and CSR number (30_encoding.md R92, R95); what is left is the LR format. -/

namespace Sys2Proof

/-- In the LR format the two channels need two registers (30_encoding.md R93). -/
def Instr.wellFormed : Instr → Bool
  | .dlySample l r => l ≠ r
  | .satSample l r => l ≠ r
  | .revSample l r => l ≠ r
  | .nop | .ldv .. | .rdv .. | .mov .. | .csrw .. | .csrr .. | .prepare .. | .block ..
  | .rbInit .. | .rbInit2 .. | .rbPush .. | .rbRdn .. | .rbRdi .. | .rbRdl .. | .rbRdc ..
  | .rbRdp .. | .rbCap .. | .rbCur .. | .apProc .. | .fClr .. | .fLp .. | .fHp .. | .fDcb ..
  | .slim .. | .clamp .. | .fCoef .. | .tiltRev .. | .tiltDly .. | .tiltSat .. | .shimWin ..
  | .shimStep .. | .dlyTime .. | .dlyRatio .. | .satTape .. | .satTube .. | .satClip ..
  | .satFold .. | .satXf .. | .satOutg .. | .revDecay .. | .revDamp .. => true

end Sys2Proof
end

