-- ==== Sys2Proof/Decode.lean ====
section
/-! DEFINITION. From a command word to a command and back (30_encoding.md R90 to R100): the fields of
a word, the formats, a total decoder that rejects by name, the encoder, and the byte form. -/

namespace Sys2Proof

/-! ## Fields (30_encoding.md R90) -/

/-- The fields of a command word (30_encoding.md R90); a field left out is zero. -/
structure Fields where
  op  : BitVec 8
  rd  : BitVec 4 := 0
  rs1 : BitVec 4 := 0
  rs2 : BitVec 4 := 0
  rs3 : BitVec 4 := 0
  sel : BitVec 8 := 0
  imm : BitVec 32 := 0
deriving DecidableEq, Repr

/-- The fields of a word, bit 0 the least significant (30_encoding.md R90). -/
def splitWord (w : Command) : Fields where
  op  := w.extractLsb' 0 8
  rd  := w.extractLsb' 8 4
  rs1 := w.extractLsb' 12 4
  rs2 := w.extractLsb' 16 4
  rs3 := w.extractLsb' 20 4
  sel := w.extractLsb' 24 8
  imm := w.extractLsb' 32 32

/-- The word made of the fields (30_encoding.md R90). -/
def joinWord (f : Fields) : Command :=
  f.imm ++ f.sel ++ f.rs3 ++ f.rs2 ++ f.rs1 ++ f.rd ++ f.op

/-! ## Formats (30_encoding.md R91) -/

/-- The twelve formats (30_encoding.md R91). -/
inductive Format where
  | z | di | s | ds | c | ci | us | udi | uds | udss | dsss | lr
deriving DecidableEq, Repr

/-- The `mask` column of the opcode map (30_encoding.md R96): a one in every bit of `op` and of every
field the format does not use (30_encoding.md R93). -/
def Format.mask : Format → Command
  | .z    => 0xFFFFFFFFFFFFFFFF
  | .di   => 0x00000000FFFFF0FF
  | .s    => 0xFFFFFFFFFFFF0FFF
  | .ds   => 0xFFFFFFFFFFFF00FF
  | .c    => 0xFFFFFFFF00FFFFFF
  | .ci   => 0x0000000000FFFFFF
  | .us   => 0xFFFFFFFF00FF0FFF
  | .udi  => 0x0000000000FFF0FF
  | .uds  => 0xFFFFFFFF00FF00FF
  | .udss => 0xFFFFFFFF00F000FF
  | .dsss => 0xFFFFFFFFFF0000FF
  | .lr   => 0xFFFFFFFFFFFF00FF

/-- Whether every field the format does not use is zero (30_encoding.md R91, R93). -/
def Format.unusedZero (fmt : Format) (f : Fields) : Bool :=
  match fmt with
  | .z    => f.rd = 0 ∧ f.rs1 = 0 ∧ f.rs2 = 0 ∧ f.rs3 = 0 ∧ f.sel = 0 ∧ f.imm = 0
  | .di   => f.rs1 = 0 ∧ f.rs2 = 0 ∧ f.rs3 = 0 ∧ f.sel = 0
  | .s    => f.rd = 0 ∧ f.rs2 = 0 ∧ f.rs3 = 0 ∧ f.sel = 0 ∧ f.imm = 0
  | .ds   => f.rs2 = 0 ∧ f.rs3 = 0 ∧ f.sel = 0 ∧ f.imm = 0
  | .c    => f.rd = 0 ∧ f.rs1 = 0 ∧ f.rs2 = 0 ∧ f.rs3 = 0 ∧ f.imm = 0
  | .ci   => f.rd = 0 ∧ f.rs1 = 0 ∧ f.rs2 = 0 ∧ f.rs3 = 0
  | .us   => f.rd = 0 ∧ f.rs2 = 0 ∧ f.rs3 = 0 ∧ f.imm = 0
  | .udi  => f.rs1 = 0 ∧ f.rs2 = 0 ∧ f.rs3 = 0
  | .uds  => f.rs2 = 0 ∧ f.rs3 = 0 ∧ f.imm = 0
  | .udss => f.rs3 = 0 ∧ f.imm = 0
  | .dsss => f.sel = 0 ∧ f.imm = 0
  | .lr   => f.rs2 = 0 ∧ f.rs3 = 0 ∧ f.sel = 0 ∧ f.imm = 0

/-! ## Operand numbers (10_state.md R28, 20_memory.md R66, 30_encoding.md R92) -/

/-- The engine id (20_memory.md R66). -/
def Engine.number : Engine → Nat
  | .rev => 0 | .dly => 1 | .sat => 2

def Engine.ofNumber : Nat → Option Engine
  | 0 => some .rev | 1 => some .dly | 2 => some .sat | _ => none

/-- The channel id (20_memory.md R66). -/
def Channel.number : Channel → Nat
  | .left => 0 | .right => 1

def Channel.ofNumber : Nat → Option Channel
  | 0 => some .left | 1 => some .right | _ => none

/-- The CSR number of a parameter register (10_state.md R27). -/
def Param.number : Param → Nat
  | .revMix => 0x10 | .revSize => 0x11 | .revDamp => 0x12 | .revTone => 0x13
  | .revShimmer => 0x14
  | .dlyMix => 0x20 | .dlyTime => 0x21 | .dlyFeedback => 0x22 | .dlyTone => 0x23
  | .dlySub => 0x24 | .dlyPingpong => 0x25 | .dlyMod => 0x26
  | .satGrit => 0x30 | .satTone => 0x31 | .satWarmth => 0x32 | .satAttack => 0x33
  | .satOutput => 0x34 | .satMix => 0x35 | .satDrive => 0x36 | .satType => 0x37
  | .satComp => 0x38

/-- The CSR number (10_state.md R28). -/
def Csr.number : Csr → Nat
  | .status => 0x00 | .finfo => 0x01 | .srateLo => 0x02 | .srateHi => 0x03
  | .maxblk e => 0x04 + e.number
  | .variant => 0x07
  | .param p => p.number

/-- The CSR of a number; none for an unimplemented number (10_state.md R28). -/
def Csr.ofNumber : Nat → Option Csr
  | 0x00 => some .status | 0x01 => some .finfo | 0x02 => some .srateLo | 0x03 => some .srateHi
  | 0x04 => some (.maxblk .rev) | 0x05 => some (.maxblk .dly) | 0x06 => some (.maxblk .sat)
  | 0x07 => some .variant
  | 0x10 => some (.param .revMix) | 0x11 => some (.param .revSize)
  | 0x12 => some (.param .revDamp) | 0x13 => some (.param .revTone)
  | 0x14 => some (.param .revShimmer)
  | 0x20 => some (.param .dlyMix) | 0x21 => some (.param .dlyTime)
  | 0x22 => some (.param .dlyFeedback) | 0x23 => some (.param .dlyTone)
  | 0x24 => some (.param .dlySub) | 0x25 => some (.param .dlyPingpong)
  | 0x26 => some (.param .dlyMod)
  | 0x30 => some (.param .satGrit) | 0x31 => some (.param .satTone)
  | 0x32 => some (.param .satWarmth) | 0x33 => some (.param .satAttack)
  | 0x34 => some (.param .satOutput) | 0x35 => some (.param .satMix)
  | 0x36 => some (.param .satDrive) | 0x37 => some (.param .satType)
  | 0x38 => some (.param .satComp)
  | _ => none

/-! ## The decoder (30_encoding.md R97) -/

/-- Why a word is no command: the conditions (a) to (e) of 60_exceptions.md R341. -/
inductive DecodeError where
  /-- `op` is not one of the 44 opcodes (R341 a). -/
  | unknownOpcode
  /-- a field the format does not use is nonzero (R341 b). -/
  | unusedFieldNonzero
  /-- an LR-format word with `rd = rs1` (R341 c). -/
  | sameRegister
  /-- a ring-buffer or filter-state unit above 31 (R341 d). -/
  | unitOutOfRange
  /-- an engine id above 2 (R341 d). -/
  | engineOutOfRange
  /-- a channel id above 1 (R341 d). -/
  | channelOutOfRange
  /-- a CSR number outside the map (R341 e, f). -/
  | csrUnimplemented
deriving DecidableEq, Repr

/-- The value register a 4-bit field names (30_encoding.md R95). -/
def regOf (b : BitVec 4) : Reg := ⟨b.toNat, b.isLt⟩

/-- The unit a `sel` field names: a number 0..31 (30_encoding.md R92). -/
def unitOf (b : BitVec 8) : Except DecodeError (Fin 32) :=
  if h : b.toNat < 32 then .ok ⟨b.toNat, h⟩ else .error .unitOutOfRange

/-- The engine a `sel` field names (30_encoding.md R92). -/
def engineOf (b : BitVec 8) : Except DecodeError Engine :=
  match Engine.ofNumber b.toNat with
  | some e => .ok e
  | none => .error .engineOutOfRange

/-- The channel a `sel` field names (30_encoding.md R92). -/
def channelOf (b : BitVec 8) : Except DecodeError Channel :=
  match Channel.ofNumber b.toNat with
  | some c => .ok c
  | none => .error .channelOutOfRange

/-- The CSR a `sel` field names (30_encoding.md R92). -/
def csrOf (b : BitVec 8) : Except DecodeError Csr :=
  match Csr.ofNumber b.toNat with
  | some c => .ok c
  | none => .error .csrUnimplemented

/-- Steps (3) and (4) of 30_encoding.md R97: the unused fields, then the operands. -/
def formed (fmt : Format) (f : Fields) (i : Except DecodeError Instr) : Except DecodeError Instr :=
  if fmt.unusedZero f then i else .error .unusedFieldNonzero

/-- An LR-format command: two different registers (30_encoding.md R93). -/
def formedLr (f : Fields) (mk : Reg → Reg → Instr) : Except DecodeError Instr :=
  formed .lr f (if f.rd = f.rs1 then .error .sameRegister else .ok (mk (regOf f.rd) (regOf f.rs1)))

/-- The opcode map (30_encoding.md R96). -/
def decodeFields (f : Fields) : Except DecodeError Instr :=
  let d := regOf f.rd
  let a := regOf f.rs1
  let b := regOf f.rs2
  let c := regOf f.rs3
  match f.op.toNat with
  | 0x00 => formed .z f (.ok .nop)
  | 0x01 => formed .di f (.ok (.ldv d f.imm))
  | 0x02 => formed .s f (.ok (.rdv a))
  | 0x03 => formed .ds f (.ok (.mov d a))
  | 0x04 => formed .ci f ((csrOf f.sel).map fun n => .csrw n f.imm)
  | 0x05 => formed .c f ((csrOf f.sel).map fun n => .csrr n)
  | 0x06 => formed .ci f ((engineOf f.sel).map fun e => .prepare e f.imm)
  | 0x07 => formed .c f ((engineOf f.sel).map fun e => .block e)
  | 0x10 => formed .ci f ((unitOf f.sel).map fun u => .rbInit u f.imm)
  | 0x11 => formed .ci f ((unitOf f.sel).map fun u => .rbInit2 u f.imm)
  | 0x12 => formed .us f ((unitOf f.sel).map fun u => .rbPush u a)
  | 0x13 => formed .udi f ((unitOf f.sel).map fun u => .rbRdn d u f.imm)
  | 0x14 => formed .uds f ((unitOf f.sel).map fun u => .rbRdi d u a)
  | 0x15 => formed .uds f ((unitOf f.sel).map fun u => .rbRdl d u a)
  | 0x16 => formed .uds f ((unitOf f.sel).map fun u => .rbRdc d u a)
  | 0x17 => formed .uds f ((unitOf f.sel).map fun u => .rbRdp d u a)
  | 0x18 => formed .c f ((unitOf f.sel).map fun u => .rbCap u)
  | 0x19 => formed .c f ((unitOf f.sel).map fun u => .rbCur u)
  | 0x20 => formed .udss f ((unitOf f.sel).map fun u => .apProc d u a b)
  | 0x30 => formed .c f ((unitOf f.sel).map fun u => .fClr u)
  | 0x31 => formed .udss f ((unitOf f.sel).map fun u => .fLp d u a b)
  | 0x32 => formed .udss f ((unitOf f.sel).map fun u => .fHp d u a b)
  | 0x33 => formed .udss f ((unitOf f.sel).map fun u => .fDcb d u a b)
  | 0x34 => formed .ds f (.ok (.slim d a))
  | 0x35 => formed .dsss f (.ok (.clamp d a b c))
  | 0x36 => formed .ds f (.ok (.fCoef d a))
  | 0x38 => formed .uds f ((channelOf f.sel).map fun ch => .tiltRev d ch a)
  | 0x39 => formed .uds f ((channelOf f.sel).map fun ch => .tiltDly d ch a)
  | 0x3A => formed .uds f ((channelOf f.sel).map fun ch => .tiltSat d ch a)
  | 0x40 => formed .ds f (.ok (.shimWin d a))
  | 0x41 => formed .ds f (.ok (.shimStep d a))
  | 0x50 => formed .ds f (.ok (.dlyTime d a))
  | 0x51 => formed .ds f (.ok (.dlyRatio d a))
  | 0x52 => formedLr f .dlySample
  | 0x60 => formed .dsss f (.ok (.satTape d a b c))
  | 0x61 => formed .dsss f (.ok (.satTube d a b c))
  | 0x62 => formed .dsss f (.ok (.satClip d a b c))
  | 0x63 => formed .dsss f (.ok (.satFold d a b c))
  | 0x64 => formed .dsss f (.ok (.satXf d a b c))
  | 0x65 => formed .ds f (.ok (.satOutg d a))
  | 0x66 => formedLr f .satSample
  | 0x70 => formed .ds f (.ok (.revDecay d a))
  | 0x71 => formed .ds f (.ok (.revDamp d a))
  | 0x72 => formedLr f .revSample
  | _ => .error .unknownOpcode

/-- The decoder: total on all 2^64 words (30_encoding.md R97). -/
def decode (w : Command) : Except DecodeError Instr := decodeFields (splitWord w)

/-! ## The encoder -/

/-- The field of a register number. -/
def regField (r : Reg) : BitVec 4 := BitVec.ofNat 4 r.val

/-- The `sel` field of a unit, engine, channel or CSR number. -/
def selField (n : Nat) : BitVec 8 := BitVec.ofNat 8 n

/-- The fields of a command (30_encoding.md R91, R96). -/
def encodeFields : Instr → Fields
  | .nop => { op := 0x00 }
  | .ldv d v => { op := 0x01, rd := regField d, imm := v }
  | .rdv a => { op := 0x02, rs1 := regField a }
  | .mov d a => { op := 0x03, rd := regField d, rs1 := regField a }
  | .csrw n v => { op := 0x04, sel := selField n.number, imm := v }
  | .csrr n => { op := 0x05, sel := selField n.number }
  | .prepare e v => { op := 0x06, sel := selField e.number, imm := v }
  | .block e => { op := 0x07, sel := selField e.number }
  | .rbInit u v => { op := 0x10, sel := selField u.val, imm := v }
  | .rbInit2 u v => { op := 0x11, sel := selField u.val, imm := v }
  | .rbPush u a => { op := 0x12, rs1 := regField a, sel := selField u.val }
  | .rbRdn d u k => { op := 0x13, rd := regField d, sel := selField u.val, imm := k }
  | .rbRdi d u a => { op := 0x14, rd := regField d, rs1 := regField a, sel := selField u.val }
  | .rbRdl d u a => { op := 0x15, rd := regField d, rs1 := regField a, sel := selField u.val }
  | .rbRdc d u a => { op := 0x16, rd := regField d, rs1 := regField a, sel := selField u.val }
  | .rbRdp d u a => { op := 0x17, rd := regField d, rs1 := regField a, sel := selField u.val }
  | .rbCap u => { op := 0x18, sel := selField u.val }
  | .rbCur u => { op := 0x19, sel := selField u.val }
  | .apProc d u a b =>
    { op := 0x20, rd := regField d, rs1 := regField a, rs2 := regField b, sel := selField u.val }
  | .fClr u => { op := 0x30, sel := selField u.val }
  | .fLp d u a b =>
    { op := 0x31, rd := regField d, rs1 := regField a, rs2 := regField b, sel := selField u.val }
  | .fHp d u a b =>
    { op := 0x32, rd := regField d, rs1 := regField a, rs2 := regField b, sel := selField u.val }
  | .fDcb d u a b =>
    { op := 0x33, rd := regField d, rs1 := regField a, rs2 := regField b, sel := selField u.val }
  | .slim d a => { op := 0x34, rd := regField d, rs1 := regField a }
  | .clamp d a b c =>
    { op := 0x35, rd := regField d, rs1 := regField a, rs2 := regField b, rs3 := regField c }
  | .fCoef d a => { op := 0x36, rd := regField d, rs1 := regField a }
  | .tiltRev d ch a =>
    { op := 0x38, rd := regField d, rs1 := regField a, sel := selField ch.number }
  | .tiltDly d ch a =>
    { op := 0x39, rd := regField d, rs1 := regField a, sel := selField ch.number }
  | .tiltSat d ch a =>
    { op := 0x3A, rd := regField d, rs1 := regField a, sel := selField ch.number }
  | .shimWin d a => { op := 0x40, rd := regField d, rs1 := regField a }
  | .shimStep d a => { op := 0x41, rd := regField d, rs1 := regField a }
  | .dlyTime d a => { op := 0x50, rd := regField d, rs1 := regField a }
  | .dlyRatio d a => { op := 0x51, rd := regField d, rs1 := regField a }
  | .dlySample l r => { op := 0x52, rd := regField l, rs1 := regField r }
  | .satTape d a b c =>
    { op := 0x60, rd := regField d, rs1 := regField a, rs2 := regField b, rs3 := regField c }
  | .satTube d a b c =>
    { op := 0x61, rd := regField d, rs1 := regField a, rs2 := regField b, rs3 := regField c }
  | .satClip d a b c =>
    { op := 0x62, rd := regField d, rs1 := regField a, rs2 := regField b, rs3 := regField c }
  | .satFold d a b c =>
    { op := 0x63, rd := regField d, rs1 := regField a, rs2 := regField b, rs3 := regField c }
  | .satXf d a b c =>
    { op := 0x64, rd := regField d, rs1 := regField a, rs2 := regField b, rs3 := regField c }
  | .satOutg d a => { op := 0x65, rd := regField d, rs1 := regField a }
  | .satSample l r => { op := 0x66, rd := regField l, rs1 := regField r }
  | .revDecay d a => { op := 0x70, rd := regField d, rs1 := regField a }
  | .revDamp d a => { op := 0x71, rd := regField d, rs1 := regField a }
  | .revSample l r => { op := 0x72, rd := regField l, rs1 := regField r }

/-- The word of a command (30_encoding.md R96). -/
def encode (i : Instr) : Command := joinWord (encodeFields i)

/-- The format of a command (the table of 30_encoding.md R91). -/
def Instr.format : Instr → Format
  | .nop => .z
  | .ldv .. => .di
  | .rdv .. => .s
  | .mov .. | .slim .. | .fCoef .. | .shimWin .. | .shimStep .. | .dlyTime .. | .dlyRatio ..
  | .satOutg .. | .revDecay .. | .revDamp .. => .ds
  | .csrr .. | .block .. | .rbCap .. | .rbCur .. | .fClr .. => .c
  | .csrw .. | .prepare .. | .rbInit .. | .rbInit2 .. => .ci
  | .rbPush .. => .us
  | .rbRdn .. => .udi
  | .rbRdi .. | .rbRdl .. | .rbRdc .. | .rbRdp .. | .tiltRev .. | .tiltDly .. | .tiltSat .. => .uds
  | .apProc .. | .fLp .. | .fHp .. | .fDcb .. => .udss
  | .clamp .. | .satTape .. | .satTube .. | .satClip .. | .satFold .. | .satXf .. => .dsss
  | .dlySample .. | .satSample .. | .revSample .. => .lr

/-- The `match` column of a command's row: its opcode zero-extended (30_encoding.md R93, R96). -/
def Instr.opMatch (i : Instr) : Command := (encodeFields i).op.zeroExtend 64

/-! ## The byte form (30_encoding.md R100) -/

/-- The first `n` bytes of a word, least significant first (20_memory.md R63). -/
def bytesOf (n : Nat) {k : Nat} (w : BitVec k) : List (BitVec 8) :=
  (List.range n).map fun j => w.extractLsb' (8 * j) 8

/-- The eight bytes of a command (30_encoding.md R100, 20_memory.md R63). -/
def bytesOfWord (w : Command) : List (BitVec 8) := bytesOf 8 w

/-- The four bytes of a response word or of an F32 (20_memory.md R63). -/
def bytesOfWord32 (w : Word32) : List (BitVec 8) := bytesOf 4 w

/-- The number whose bytes, least significant first, these are. -/
def natOfBytes : List (BitVec 8) → Nat
  | [] => 0
  | b :: rest => b.toNat + 256 * natOfBytes rest

/-- The response word or F32 of a byte string's first four bytes (20_memory.md R63). -/
def word32OfBytes (bs : List (BitVec 8)) : Word32 := BitVec.ofNat 32 (natOfBytes (bs.take 4))

/-- The command that starts a byte string, and the bytes after it; none where fewer than eight bytes
are left (30_encoding.md R99, R100). -/
def decodeBytes (bs : List (BitVec 8)) : Option (Except DecodeError Instr × List (BitVec 8)) :=
  if bs.length < 8 then none
  else some (decode (BitVec.ofNat 64 (natOfBytes (bs.take 8))), bs.drop 8)

/-- The command the decoder reads from the word whose low `nbits` bits are `w`, through the byte form
of that word. -/
def decodeTableWord (nbits w : Nat) : Option Instr :=
  match decodeBytes (bytesOfWord (BitVec.ofNat 64 (w % 2 ^ nbits))) with
  | some (.ok i, _) => some i
  | _ => none

end Sys2Proof
end

