-- ==== Sys2Proof/Machine/State.lean ====
section
/-! DEFINITION. The state of the block (10_state.md R20) as plain data, the reasons a step can stop,
and the state after hardware reset (10_state.md R36, 70_reset_and_hazards.md R370). -/

namespace Sys2Proof.Machine

/-- The store of one ring-buffer unit: the slots that do not hold `+0.0`, with their samples, slot
numbers strictly rising. An unlisted slot holds `+0.0`, the zero fill of `init` (40_ring_buffer.md
R121; log 16). -/
abbrev Samples := List (Nat × F32)

/-- A ring-buffer unit (10_state.md R29). -/
structure RingUnit where
  cap : Nat
  wr  : Nat
  mem : Samples
deriving DecidableEq, Repr

/-- A filter-state unit (10_state.md R30). -/
structure FilterUnit where
  x1 : F32
  y1 : F32
deriving DecidableEq, Repr

/-- The 21 parameter registers (10_state.md R27). -/
structure Params where
  revMix      : F32
  revSize     : F32
  revDamp     : F32
  revTone     : F32
  revShimmer  : F32
  dlyMix      : F32
  dlyTime     : F32
  dlyFeedback : F32
  dlyTone     : F32
  dlySub      : F32
  dlyPingpong : F32
  dlyMod      : F32
  satGrit     : F32
  satTone     : F32
  satWarmth   : F32
  satAttack   : F32
  satOutput   : F32
  satMix      : F32
  satDrive    : F32
  satType     : F32
  satComp     : F32
deriving DecidableEq, Repr

/-- The reverb's block cache (10_state.md R33). -/
structure RevCache where
  dampA : F32
  aLo   : F32
  aHi   : F32
  aPre  : F32
  aPost : F32
deriving DecidableEq, Repr

/-- The delay's block cache (10_state.md R33); `hp` is its one-bit mode (log 22). -/
structure DlyCache where
  d1     : F32
  d2     : F32
  hp     : Bool
  aTone  : F32
  lfoInc : F32
deriving DecidableEq, Repr

/-- The saturation's block cache (10_state.md R33). -/
structure SatCache where
  aRel     : F32
  aWarm    : F32
  aTone    : F32
  aCompRel : F32
  outGain  : F32
deriving DecidableEq, Repr

/-- What the host does to the block: present a command, or assert reset (20_memory.md R79; log 1,
log 3). -/
inductive HostEvent where
  | command (w : Command)
  | reset
deriving DecidableEq, Repr

/-- The whole state of the block (10_state.md R20) and the model's own fields: what the host will do
next (`inbox`), the response port (`resp`) and the number of free values used (`free`). -/
structure State where
  /-- value registers (10_state.md R21) -/
  x          : Vector F32 Config.nx
  /-- CSR 0x00 (10_state.md R23) -/
  status     : Word32
  /-- CSR 0x01 (10_state.md R24) -/
  finfo      : Word32
  /-- CSR 0x02 and 0x03 (10_state.md R25) -/
  srateLo    : Word32
  srateHi    : Word32
  /-- CSR 0x04 to 0x06 (10_state.md R25) -/
  maxblkRev  : Word32
  maxblkDly  : Word32
  maxblkSat  : Word32
  /-- CSR 0x07 (10_state.md R25) -/
  variant    : Word32
  /-- the parameter registers (10_state.md R26, R27) -/
  params     : Params
  /-- ring-buffer units (10_state.md R29) -/
  rb         : Vector RingUnit Config.nrb
  /-- filter-state units (10_state.md R30) -/
  fs         : Vector FilterUnit Config.nfs
  /-- `SHIM.phase` (10_state.md R32) -/
  shimPhase  : F32
  /-- `REV.shimOut` (10_state.md R32) -/
  shimOut    : F32
  /-- `DLY.ph1` and `DLY.ph2` (10_state.md R32) -/
  dlyPh1     : F32
  dlyPh2     : F32
  /-- `ENG[e].rate` (10_state.md R32) -/
  rateRev    : F64
  rateDly    : F64
  rateSat    : F64
  /-- the block caches (10_state.md R33) -/
  revc       : RevCache
  dlyc       : DlyCache
  satc       : SatCache
  /-- MODEL: what the host will do, in order (log 1) -/
  inbox      : List HostEvent
  /-- MODEL: the response of the last command (log 2) -/
  resp       : Word32
  /-- MODEL: how many free values have been used (log 9) -/
  free       : Nat
deriving DecidableEq, Repr

/-- Why the machine stops. -/
inductive Fault where
  /-- Raised by `SHIM.STEP`, `DLY.SAMPLE` and `REV.SAMPLE` on a prepared engine that owns a unit
  without slots, which the spec says cannot occur (40_ring_buffer.md R130). SAFE: the model stops, and
  no state a run reaches has it (log 15). -/
  | noSlot
deriving DecidableEq, Repr

/-- Why an instruction has no meaning. -/
inductive Refusal where
  /-- Raised by `exec` for an instruction the model does not give a meaning. SAFE: the model stops.
  No arm of `exec` answers it. -/
  | notModelled (mnemonic : String)
deriving DecidableEq, Repr

/-- The parameter defaults (10_state.md R27). -/
def Params.defaults : Params where
  revMix      := 0x3ECCCCCD
  revSize     := 0x3F19999A
  revDamp     := 0x3E99999A
  revTone     := 0x3F000000
  revShimmer  := 0x00000000
  dlyMix      := 0x3ECCCCCD
  dlyTime     := 0x3EB33333
  dlyFeedback := 0x3E99999A
  dlyTone     := 0x3F000000
  dlySub      := 0x3F000000
  dlyPingpong := 0x00000000
  dlyMod      := 0x3E19999A
  satGrit     := 0x3E99999A
  satTone     := 0x3F000000
  satWarmth   := 0x3ECCCCCD
  satAttack   := 0x3E99999A
  satOutput   := 0x3F19999A
  satMix      := 0x3F4CCCCD
  satDrive    := 0x3EB33333
  satType     := 0x00000000
  satComp     := 0x3E4CCCCD

/-- The block right after hardware reset (10_state.md R36, 70_reset_and_hazards.md R370), with no
host event pending. -/
def State.reset : State where
  x          := Vector.replicate Config.nx 0
  status     := 0
  finfo      := 0
  srateLo    := 0
  srateHi    := 0
  maxblkRev  := 0
  maxblkDly  := 0
  maxblkSat  := 0
  variant    := 0
  params     := Params.defaults
  rb         := Vector.replicate Config.nrb { cap := 0, wr := 0, mem := [] }
  fs         := Vector.replicate Config.nfs { x1 := 0, y1 := 0 }
  shimPhase  := 0
  shimOut    := 0
  dlyPh1     := 0
  dlyPh2     := 0
  rateRev    := 0
  rateDly    := 0
  rateSat    := 0
  revc       := { dampA := 0, aLo := 0, aHi := 0, aPre := 0, aPost := 0 }
  dlyc       := { d1 := 0, d2 := 0, hp := false, aTone := 0, lfoInc := 0 }
  satc       := { aRel := 0, aWarm := 0, aTone := 0, aCompRel := 0, outGain := 0 }
  inbox      := []
  resp       := 0
  free       := 0

end Sys2Proof.Machine
end

