-- ==== Sys2Proof/Machine/Flags.lean ====
section
/-! DEFINITION. The fields of `STATUS` (10_state.md R23) and the fault codes (60_exceptions.md R340).
No command computes a condition flag (10_state.md R23); these are the only status bits there are. -/

namespace Sys2Proof.Machine

/-- The faults of the block (60_exceptions.md R340). -/
inductive FaultCode where
  | illegalCommand | capZero | capRange | capNotPow2 | rbUninit | notPrepared | badRate
deriving DecidableEq, Repr

/-- The value written to `STATUS.FCODE` (60_exceptions.md R340). -/
def FaultCode.code : FaultCode → BitVec 8
  | .illegalCommand => 1
  | .capZero => 2
  | .capRange => 3
  | .capNotPow2 => 4
  | .rbUninit => 5
  | .notPrepared => 6
  | .badRate => 7

/-- `STATUS.PREP_e` is bit `e` (10_state.md R23). -/
def prepBit (e : Engine) : Word32 := BitVec.ofNat 32 (2 ^ e.number)

/-- `STATUS.HALT` is bit 7 (10_state.md R23). -/
def haltBit : Word32 := 0x00000080

/-- Whether `STATUS.PREP_e` is set. -/
def prepared (e : Engine) (s : State) : Bool := s.status &&& prepBit e != 0

/-- Whether `STATUS.HALT` is set. -/
def halted (s : State) : Bool := s.status &&& haltBit != 0

/-- `STATUS.FCODE`, bits 15:8 (10_state.md R23). -/
def faultCode (s : State) : BitVec 8 := s.status.extractLsb' 8 8

/-- `STATUS` with `PREP_e` set (47_system.md R316). -/
def statusPrepared (e : Engine) (st : Word32) : Word32 := st ||| prepBit e

/-- `STATUS` with `FCODE` and `HALT` written and every other bit kept (60_exceptions.md R344). -/
def statusFaulted (f : FaultCode) (st : Word32) : Word32 :=
  (st &&& 0xFFFF00FF) ||| (f.code.zeroExtend 32 <<< 8) ||| haltBit

end Sys2Proof.Machine
end

