-- ==== Sys2Proof/Machine/Float.lean ====
section
/-! DEFINITION. IEEE 754 arithmetic on bit patterns (00_scope.md R9, 20_memory.md R72, R74, R77):
operands become exact integers, the result is computed exactly and rounded once, to nearest, ties
to even. One definition serves binary32 and binary64. -/

namespace Sys2Proof.Machine

/-! ## Formats and their values -/

/-- A binary interchange format: fraction bits and exponent bits (20_memory.md R74). -/
structure FloatFmt where
  frac : Nat
  expo : Nat
deriving DecidableEq, Repr

/-- binary32: 1 sign bit, 8 exponent bits, 23 fraction bits (20_memory.md R74). -/
def b32 : FloatFmt := { frac := 23, expo := 8 }

/-- binary64, the format of the sample rate (10_state.md R25). -/
def b64 : FloatFmt := { frac := 52, expo := 11 }

/-- The largest exponent field, that of infinities and NaNs. -/
def expTop (k : FloatFmt) : Nat := 2 ^ k.expo - 1

/-- The exponent of the last bit of a subnormal number. -/
def expMin (k : FloatFmt) : Int := 2 - (2 ^ (k.expo - 1) : Nat) - k.frac

/-- What a bit pattern stands for: a NaN, an infinity, or `±m × 2^e`. -/
inductive FloatVal where
  | nan
  | inf (neg : Bool)
  | fin (neg : Bool) (m : Nat) (e : Int)
deriving DecidableEq, Repr

/-- The value of a bit pattern. -/
def unpack (k : FloatFmt) (bits : Nat) : FloatVal :=
  let neg := bits / 2 ^ (k.frac + k.expo) % 2 == 1
  let ex := bits / 2 ^ k.frac % 2 ^ k.expo
  let fr := bits % 2 ^ k.frac
  if ex = expTop k then (if fr = 0 then .inf neg else .nan)
  else if ex = 0 then .fin neg fr (expMin k)
  else .fin neg (2 ^ k.frac + fr) (expMin k + (ex - 1 : Nat))

/-- The sign bit of a format, as a number to add. -/
def signBits (k : FloatFmt) (neg : Bool) : Nat := if neg then 2 ^ (k.frac + k.expo) else 0

/-- The infinity of a sign. -/
def infBits (k : FloatFmt) (neg : Bool) : Nat := signBits k neg + expTop k * 2 ^ k.frac

/-- The NaN an operation answers; only that it is a NaN is used (log 10). -/
def nanBits (k : FloatFmt) : Nat := expTop k * 2 ^ k.frac + 2 ^ (k.frac - 1)

/-- `m >>> sh` rounded to nearest, ties to even; `sticky` says that bits below `m` are not all zero. -/
def shiftRoundEven (m sh : Nat) (sticky : Bool) : Nat :=
  let q := m / 2 ^ sh
  let r := m % 2 ^ sh
  let half := 2 ^ (sh - 1)
  if sh = 0 then m
  else if r > half || (r = half && (sticky || q % 2 = 1)) then q + 1 else q

/-- The bit pattern nearest `±m × 2^e`, ties to even, overflowing to infinity (00_scope.md R9). With
`sticky` the exact value is a little larger in magnitude than `m × 2^e`. -/
def roundPack (k : FloatFmt) (neg : Bool) (m : Nat) (e : Int) (sticky : Bool) : Nat :=
  if m = 0 then signBits k neg
  else
    let top : Int := e + (Nat.log2 m : Nat) - k.frac
    let q := max top (expMin k)
    let r := if q ≤ e then m * 2 ^ (e - q).toNat else shiftRoundEven m (q - e).toNat sticky
    let mag := (q - expMin k).toNat * 2 ^ k.frac + r
    if mag ≥ expTop k * 2 ^ k.frac then infBits k neg else signBits k neg + mag

/-- `±m × 2^e` as an integer multiple of `2^e0`, for `e0 ≤ e`. -/
def alignTo (neg : Bool) (m : Nat) (e e0 : Int) : Int :=
  let v : Int := (m * 2 ^ (e - e0).toNat : Nat)
  if neg then -v else v

/-- Sum of two values. An exact zero sum is `+0` unless both operands are negative. -/
def addVal (k : FloatFmt) : FloatVal → FloatVal → Nat
  | .nan, _ => nanBits k
  | _, .nan => nanBits k
  | .inf a, .inf b => if a = b then infBits k a else nanBits k
  | .inf a, .fin .. => infBits k a
  | .fin .., .inf b => infBits k b
  | .fin na ma ea, .fin nb mb eb =>
    let e := min ea eb
    let s := alignTo na ma ea e + alignTo nb mb eb e
    if s = 0 then signBits k (na && nb) else roundPack k (decide (s < 0)) s.natAbs e false

/-- Product of two values. -/
def mulVal (k : FloatFmt) : FloatVal → FloatVal → Nat
  | .nan, _ => nanBits k
  | _, .nan => nanBits k
  | .inf a, .inf b => infBits k (a != b)
  | .inf a, .fin b m _ => if m = 0 then nanBits k else infBits k (a != b)
  | .fin a m _, .inf b => if m = 0 then nanBits k else infBits k (a != b)
  | .fin a ma ea, .fin b mb eb => roundPack k (a != b) (ma * mb) (ea + eb) false

/-- Quotient of two values: enough quotient bits that one rounding gives the nearest value. -/
def divVal (k : FloatFmt) : FloatVal → FloatVal → Nat
  | .nan, _ => nanBits k
  | _, .nan => nanBits k
  | .inf _, .inf _ => nanBits k
  | .inf a, .fin b _ _ => infBits k (a != b)
  | .fin a _ _, .inf b => signBits k (a != b)
  | .fin a ma ea, .fin b mb eb =>
    if mb = 0 then (if ma = 0 then nanBits k else infBits k (a != b))
    else
      let up := 2 * k.frac + 4
      let n := ma * 2 ^ up
      roundPack k (a != b) (n / mb) (ea - eb - up) (n % mb != 0)

/-! ## binary32 operations -/

/-- The value of an F32. -/
def val32 (a : F32) : FloatVal := unpack b32 a.toNat

/-- The exponent field of an F32. -/
def expField (a : F32) : Nat := a.toNat / 2 ^ 23 % 2 ^ 8

/-- Neither a NaN nor an infinity (20_memory.md R76). -/
def isFinite (a : F32) : Bool := expField a != 255

/-- A NaN. -/
def isNaN (a : F32) : Bool := expField a == 255 && a.toNat % 2 ^ 23 != 0

/-- A zero of either sign. -/
def isZero (a : F32) : Bool := a.toNat % 2 ^ 31 == 0

/-- A subnormal number: exponent field zero, fraction not. -/
def isSubnormal (a : F32) : Bool := expField a == 0 && a.toNat % 2 ^ 23 != 0

/-- The zero of the sign of `a`. -/
def zeroLike (a : F32) : F32 := a &&& 0x80000000

/-- A result with `NUM.ftz` applied: a subnormal result becomes the zero of its sign if the switch is
on (20_memory.md R74; log 8). -/
def flushed (a : F32) : F32 :=
  if isSubnormal a then (if Config.ftz then zeroLike a else a) else a

/-- The F32 of a computed bit pattern. -/
def result32 (bits : Nat) : F32 := flushed (BitVec.ofNat 32 bits)

/-- `a + b` (00_scope.md R9). -/
def fadd (a b : F32) : F32 := result32 (addVal b32 (val32 a) (val32 b))

/-- `-a`, exact. -/
def fneg (a : F32) : F32 := a ^^^ 0x80000000

/-- `a` with its sign bit cleared: the magnitude as bits, no operation. -/
def magnitude (a : F32) : F32 := a &&& 0x7FFFFFFF

/-- `abs a`; DESIGN CHOICE: like every result of an operation it is flushed under `NUM.ftz` (00_scope.md R9,
20_memory.md R74; log 8). -/
def fabs (a : F32) : F32 := flushed (magnitude a)

/-- `a - b` (00_scope.md R9). -/
def fsub (a b : F32) : F32 := fadd a (fneg b)

/-- `a × b` (00_scope.md R9). -/
def fmul (a b : F32) : F32 := result32 (mulVal b32 (val32 a) (val32 b))

/-- `a ÷ b` (00_scope.md R9). -/
def fdiv (a b : F32) : F32 := result32 (divVal b32 (val32 a) (val32 b))

/-- The place of a non-NaN F32 on the number line; both zeros are 0 (20_memory.md R74). -/
def orderKey (a : F32) : Int :=
  let mag : Int := (a.toNat % 2 ^ 31 : Nat)
  if a.toNat / 2 ^ 31 = 1 then -mag else mag

/-- `a < b`; false if either is a NaN. -/
def flt (a b : F32) : Bool := !isNaN a && !isNaN b && decide (orderKey a < orderKey b)

/-- `a ≤ b`; false if either is a NaN. -/
def fle (a b : F32) : Bool := !isNaN a && !isNaN b && decide (orderKey a ≤ orderKey b)

/-- The quiet NaN by which a computation says that its result is open (log 10). -/
def openNaN : F32 := 0x7FC00000

/-- Zeros of opposite sign. -/
def mixedZeros (a b : F32) : Bool := isZero a && isZero b && a != b

/-- The smaller operand: a NaN operand leaves the choice open; either zero may be chosen from a pair of
unlike zeros (20_memory.md R74; log 13). -/
def pickMin (a b : F32) : F32 :=
  if isNaN a || isNaN b then openNaN
  else if mixedZeros a b then (if Config.minPicksFirst a b then a else b)
  else if flt b a then b else a

/-- The larger operand, with the same provisos as `pickMin`. -/
def pickMax (a b : F32) : F32 :=
  if isNaN a || isNaN b then openNaN
  else if mixedZeros a b then (if Config.maxPicksFirst a b then a else b)
  else if flt a b then b else a

/-- `min`; DESIGN CHOICE: its result is flushed under `NUM.ftz` (00_scope.md R9, 20_memory.md R74; log 8). -/
def fmin (a b : F32) : F32 := flushed (pickMin a b)

/-- `max`; DESIGN CHOICE: its result is flushed under `NUM.ftz` (00_scope.md R9, 20_memory.md R74; log 8). -/
def fmax (a b : F32) : F32 := flushed (pickMax a b)

/-- `clamp(v, lo, hi) = max(lo, min(v, hi))` (00_scope.md R14). -/
def fclamp (v lo hi : F32) : F32 := fmax lo (fmin v hi)

/-- `lerp(a, b, t) = a + t × (b - a)`, in that order (00_scope.md R14). DESIGN CHOICE: also where `t` is 0, so
that the result need not be `a` bit for bit (log 28). -/
def flerp (a b t : F32) : F32 := fadd a (fmul t (fsub b a))

/-! ## Conversions (20_memory.md R77) -/

/-- An integer as an F32: exact for capacities, cursors and slot numbers (20_memory.md R72). -/
def ofInt (n : Int) : F32 := BitVec.ofNat 32 (roundPack b32 (decide (n < 0)) n.natAbs 0 false)

/-- The largest integer not above `a`; 0 for a NaN or an infinity (20_memory.md R72; log 19). -/
def floorInt (a : F32) : Int :=
  match val32 a with
  | .fin neg m e =>
    let s : Int := if neg then -(m : Int) else m
    if 0 ≤ e then s * (2 ^ e.toNat : Nat) else s / (2 ^ (-e).toNat : Nat)
  | _ => 0

/-- A binary64 value rounded to binary32 (20_memory.md R77). -/
def narrow (a : F64) : F32 :=
  match unpack b64 a.toNat with
  | .nan => openNaN
  | .inf neg => BitVec.ofNat 32 (infBits b32 neg)
  | .fin neg m e => result32 (roundPack b32 neg m e false)

/-! ## binary64, for the sizing of `PREPARE` (47_system.md R316) -/

/-- Product of two binary64 values. -/
def dmul (a b : F64) : F64 := BitVec.ofNat 64 (mulVal b64 (unpack b64 a.toNat) (unpack b64 b.toNat))

/-- Quotient of two binary64 values. -/
def ddiv (a b : F64) : F64 := BitVec.ofNat 64 (divVal b64 (unpack b64 a.toNat) (unpack b64 b.toNat))

/-- A finite binary64 value greater than zero: a legal rate (60_exceptions.md R342). -/
def isPosFinite64 (a : F64) : Bool :=
  match unpack b64 a.toNat with
  | .fin neg m _ => !neg && m != 0
  | _ => false

/-- `round` of a non-negative value: the nearest integer, a tie going away from zero (00_scope.md
R13); none for an infinity or a NaN (log 14). -/
def round64 (a : F64) : Option Nat :=
  match unpack b64 a.toNat with
  | .fin _ m e =>
    if 0 ≤ e then some (m * 2 ^ e.toNat)
    else some ((2 * m + 2 ^ (-e).toNat) / 2 ^ ((-e).toNat + 1))
  | _ => none

end Sys2Proof.Machine
end

