-- ==== Sys2Proof/Machine/Numerics.lean ====
section
/-! DEFINITION. The OPEN parameters as the rules use them: every field of `CFG` under exactly the
constraint that 92_eei_decisions.md section 2 gives it, and the functions of `NUM` under exactly the
properties P1 to P6 of 20_memory.md R75 (log 6, log 7). A raw value outside its constraint is
replaced, so every value the constraint allows, and no other, can occur. -/

namespace Sys2Proof.Machine

open Config (Cfg)

/-! ## Constants -/

/-- 1.0 -/
def one : F32 := 0x3F800000

/-- -1.0 -/
def minusOne : F32 := 0xBF800000

/-- 0.5 -/
def half : F32 := 0x3F000000

/-- 2.0 -/
def two : F32 := 0x40000000

/-- The F32 nearest 2π (20_memory.md R75). -/
def twoPi : F32 := 0x40C90FDB

/-- Neither below 0 nor above 1. -/
def inUnit (v : F32) : Bool := fle 0 v && fle v one

/-- Above 0 and at most 1. -/
def inPosUnit (v : F32) : Bool := flt 0 v && fle v one

/-- At most `b` in magnitude. -/
def within (b v : F32) : Bool := fle (magnitude v) b

/-- `v` where it meets its constraint `p`, else a value that does. -/
def restrict (p : F32 → Bool) (d v : F32) : F32 := if p v then v else d

/-- A finite number not below zero. -/
def isNonneg (v : F32) : Bool := isFinite v && fle 0 v

/-! ## `NUM` (20_memory.md R75)

DESIGN CHOICE: `NUM.ftz` is not applied to what these functions answer; whether they answer subnormal
numbers is theirs (log 8). -/

/-- `NUM.exp`: P2 `exp(±0) = 1`; P4 `0 < exp(v) ≤ 1` for v ≤ 0. -/
def numExp (c : Cfg) (v : F32) : F32 :=
  if isNaN v then openNaN
  else if isZero v then one
  else if flt v 0 then restrict inPosUnit one (c.exp v)
  else c.exp v

/-- `NUM.tanh`: P2 `tanh(±0) = ±0`; P3 odd and at most 1 in magnitude; P6 positive for v > 0. -/
def numTanh (c : Cfg) (v : F32) : F32 :=
  if isNaN v then openNaN
  else if isZero v then v
  else
    let t := restrict inPosUnit one (c.tanh (magnitude v))
    if flt v 0 then fneg t else t

/-- `NUM.cos` of a finite angle: P2 `cos(±0) = 1`; P5 at most 1 in magnitude. -/
def numCos (c : Cfg) (v : F32) : F32 :=
  if !isFinite v then openNaN
  else if isZero v then one
  else restrict (within one) one (c.cos v)

/-- `NUM.sin` of a finite angle: P2 `sin(±0) = ±0`; P5 at most 1 in magnitude. -/
def numSin (c : Cfg) (v : F32) : F32 :=
  if !isFinite v then openNaN
  else if isZero v then v
  else restrict (within one) one (c.sin v)

/-- `NUM.pow`: P2 `pow(b, ±0) = 1`, `pow(b, 1) = b`; P1 finite for the exponents the rules form from a
parameter in [0, 1]. -/
def numPow (c : Cfg) (b e : F32) : F32 :=
  if !isFinite b || !isFinite e then openNaN
  else if isZero e then one
  else if e = one then b
  else if within one e then restrict isFinite one (c.pow b e)
  else c.pow b e

/-! ## `CFG` (92_eei_decisions.md section 2) -/

/-- A binary64 value that is finite and greater than zero. -/
def posFinite64 (v : F64) : F64 := if isPosFinite64 v then v else 0x3FF0000000000000

/-- `CFG.REF_RATE`: finite, greater than zero. -/
def cfgRefRate (c : Cfg) : F64 := posFinite64 c.refRate

/-- `CFG.RB_BASE[u]`, u = 0..16: finite, greater than zero. -/
def cfgRbBase (c : Cfg) (u : Fin 17) : F64 := posFinite64 c.rbBase[u]

/-- `CFG.G_T1`: magnitude below 1. -/
def cfgGT1 (c : Cfg) : F32 := restrict (fun v => flt (magnitude v) one) 0 c.gT1

/-- `CFG.G_T2`: magnitude below 1. -/
def cfgGT2 (c : Cfg) : F32 := restrict (fun v => flt (magnitude v) one) 0 c.gT2

/-- `CFG.REV_TAPL[j].pos` and `CFG.REV_TAPR[j].pos`: not below zero. The table does not ask for a finite
number, so `+∞` can occur; such a delay reads at `+0.0` (40_ring_buffer.md R125; log 6). -/
def tapPos (t : Config.Tap) : F32 := restrict (fle 0) 0 t.pos

/-- `CFG.REV_WT_B[j]`: finite. -/
def cfgRevWtB (c : Cfg) (j : Fin 4) : F32 := restrict isFinite 0 c.revWtB[j]

/-- `CFG.DCB_R`: `0 ≤ R < 1`. -/
def cfgDcbR (c : Cfg) : F32 := restrict (fun v => fle 0 v && flt v one) 0 c.dcbR

/-- `CFG.REV_TILT_K`: finite, not below zero. -/
def cfgRevTiltK (c : Cfg) : F32 := restrict isNonneg 0 c.revTiltK

/-- `CFG.SAT_TILT_K`: finite, not below zero. -/
def cfgSatTiltK (c : Cfg) : F32 := restrict isNonneg 0 c.satTiltK

/-- `CFG.SHIM_FB_GAIN`: finite. -/
def cfgShimFbGain (c : Cfg) : F32 := restrict isFinite 0 c.shimFbGain

/-- `CFG.SHIM_OFFSET`: finite. -/
def cfgShimOffset (c : Cfg) : F32 := restrict isFinite 0 c.shimOffset

/-- `CFG.DLY_LFO_HZ`: finite, not below zero (that it is below the rate is not assumed: log 6). -/
def cfgDlyLfoHz (c : Cfg) : F32 := restrict isNonneg 0 c.dlyLfoHz

/-- `CFG.DLY_LFO_PHI`: in [0, 1). -/
def cfgDlyLfoPhi (c : Cfg) : F32 := restrict (fun v => fle 0 v && flt v one) 0 c.dlyLfoPhi

/-- `CFG.DLY_MOD_MAX`: finite, not below zero. -/
def cfgDlyModMax (c : Cfg) : F32 := restrict isNonneg 0 c.dlyModMax

/-- `CFG.SAT_G_TAPE`: finite, not below zero. -/
def cfgSatGTape (c : Cfg) : F32 := restrict isNonneg 0 c.satGTape

/-- `CFG.SAT_G_TUBE`: finite, not below zero. -/
def cfgSatGTube (c : Cfg) : F32 := restrict isNonneg 0 c.satGTube

/-- `CFG.SAT_TUBE_C2`: finite. -/
def cfgSatTubeC2 (c : Cfg) : F32 := restrict isFinite 0 c.satTubeC2

/-- `CFG.SAT_TUBE_C3`: finite. -/
def cfgSatTubeC3 (c : Cfg) : F32 := restrict isFinite 0 c.satTubeC3

/-- `CFG.SAT_ENV_ATT`: in [0, 1]. -/
def cfgSatEnvAtt (c : Cfg) : F32 := restrict inUnit 0 c.satEnvAtt

/-- `CFG.SAT_COMP_ATT`: in [0, 1]. -/
def cfgSatCompAtt (c : Cfg) : F32 := restrict inUnit 0 c.satCompAtt

/-- `CFG.sat_clip`: finite for finite arguments, and at most 1.5 in magnitude for drive and grit in
[0, 1] and x in [-10, 10] (45_saturation.md R243). -/
def cfgSatClip (c : Cfg) (x drive grit : F32) : F32 :=
  if !isFinite x || !isFinite drive || !isFinite grit then openNaN
  else if inUnit drive && inUnit grit && within 0x41200000 x then
    restrict (within 0x3FC00000) 0 (c.satClip x drive grit)
  else restrict isFinite 0 (c.satClip x drive grit)

/-- `CFG.fold_gain`: finite (45_saturation.md R244). -/
def cfgFoldGain (c : Cfg) (drive grit : F32) : F32 :=
  if !isFinite drive || !isFinite grit then openNaN
  else restrict isFinite 0 (c.foldGain drive grit)

/-- `CFG.sat_release`: in [0, 1] (45_saturation.md R251). -/
def cfgSatRelease (c : Cfg) (attack : F32) (rate : F64) : F32 :=
  restrict inUnit 0 (c.satRelease attack rate)

/-- `CFG.sat_punch`: in [0, 1] (45_saturation.md R252). -/
def cfgSatPunch (c : Cfg) (attack : F32) : F32 := restrict inUnit 0 (c.satPunch attack)

/-- `CFG.comp_target`: finite (45_saturation.md R256). -/
def cfgCompTarget (c : Cfg) (level comp : F32) : F32 :=
  if !isFinite level then openNaN else restrict isFinite 0 (c.compTarget level comp)

/-- `CFG.comp_release`: in [0, 1] (45_saturation.md R256). -/
def cfgCompRelease (c : Cfg) (comp : F32) (rate : F64) : F32 :=
  restrict inUnit 0 (c.compRelease comp rate)

/-! ## Functions of control values shared by a command and a block cache -/

/-- The coefficient of a cutoff in hertz (42_filters.md R163). -/
def coef (c : Cfg) (fc : F32) (rate : F64) : F32 :=
  fsub one (numExp c (fneg (fdiv (fmul twoPi (fmax fc 0)) (narrow rate))))

/-- Delay-1 time in seconds (44_delay.md R211): `0.02 × pow(80, t)`. -/
def timeSec (c : Cfg) (t : F32) : F32 := fmul 0x3CA3D70A (numPow c 0x42A00000 t)

/-- The subdivision ratio (44_delay.md R212); each threshold belongs to the higher band. -/
def ratio (s : F32) : F32 :=
  if flt s 0x3E4CCCCD then 0x3F2AC083
  else if flt s 0x3ECCCCCD then 0x3F000000
  else if flt s 0x3F19999A then 0x3F400000
  else if flt s 0x3F4CCCCD then 0x3FC00000
  else 0x3FCF1AA0

/-- The output gain (45_saturation.md R258): `pow(10, ((o - 0.5) × 24) ÷ 20)`. -/
def outGain (c : Cfg) (o : F32) : F32 :=
  numPow c 0x41200000 (fdiv (fmul (fsub o half) 0x41C00000) 0x41A00000)

/-- The reverb's decay (46_reverb.md R281): `min(0.5 + size × 0.43, 0.93)`. -/
def decayOf (size : F32) : F32 := fmin (fadd half (fmul size 0x3EDC28F6)) 0x3F6E147B

/-- The damping coefficient (46_reverb.md R282): `0.0579 + damp × (0.9312 - 0.0579)`. -/
def dampCoef (damp : F32) : F32 :=
  fadd 0x3D6D288D (fmul damp (fsub 0x3F6E6320 0x3D6D288D))

/-- The gain of shimmer head A at a phase (43_shimmer.md R190): `0.5 × (1 - cos(2π × ph))`. -/
def winA (c : Cfg) (ph : F32) : F32 := fmul half (fsub one (numCos c (fmul twoPi ph)))

/-- The soft limiter (42_filters.md R166): identity up to 0.95, then `T + over ÷ (1 + 10 × over)`. -/
def softLimit (v : F32) : F32 :=
  let t : F32 := 0x3F733333
  let av := fabs v
  if fle av t then v
  else
    let excess := fsub av t
    let m := fadd t (fdiv excess (fadd one (fmul 0x41200000 excess)))
    if flt 0 v then m else fneg m

end Sys2Proof.Machine
end

