-- ==== Sys2Proof/Machine/Operands.lean ====
section
/-! DEFINITION. Operand values and index arithmetic: which slots of a ring buffer a delay or a position
touches, and with what weight (20_memory.md R68 to R72, 40_ring_buffer.md R125, R129); capacities
(00_scope.md R13); what a write to a parameter register stores (47_system.md R314). -/

namespace Sys2Proof.Machine

/-! ## Slots -/

/-- `slot(u, k) = (wr - 1 - k) mod cap`, the mathematical residue (20_memory.md R70). -/
def slotOf (b : RingUnit) (k : Int) : Nat := (((b.wr : Int) - 1 - k) % (b.cap : Int)).toNat

/-- The next write cursor: `(wr + 1) mod cap` (20_memory.md R69). -/
def nextWr (b : RingUnit) : Nat := (b.wr + 1) % b.cap

/-- A NaN or infinite delay or position indexes as `+0.0` (20_memory.md R76). -/
def indexable (v : F32) : F32 := if isFinite v then v else 0

/-- The delay of an integer read given in the command: `min(k, cap - 1)` (40_ring_buffer.md R124). -/
def clampedCount (b : RingUnit) (k : Word32) : Nat := min k.toNat (b.cap - 1)

/-- The whole and the fractional part of a delay clamped to `[lo, hi]` (40_ring_buffer.md R125). -/
def clampedDelay (d : F32) (lo hi : Int) : Int × F32 :=
  let d' := fclamp (indexable d) (ofInt lo) (ofInt hi)
  let i := floorInt d'
  (i, fsub d' (ofInt i))

/-- Delay of an integer read (order 0): `[0, cap - 1]` (40_ring_buffer.md R125). -/
def delay0 (b : RingUnit) (d : F32) : Int × F32 := clampedDelay d 0 ((b.cap : Int) - 1)

/-- Delay of a linear read (order 1): `[0, cap - 2]` (40_ring_buffer.md R125). -/
def delay1 (b : RingUnit) (d : F32) : Int × F32 := clampedDelay d 0 ((b.cap : Int) - 2)

/-- Delay of a cubic read (order 3): `[1, cap - 4]` (40_ring_buffer.md R125). -/
def delay3 (b : RingUnit) (d : F32) : Int × F32 := clampedDelay d 1 ((b.cap : Int) - 4)

/-- `F32(floor(v))`: the integral part of an F32 as an F32 (20_memory.md R72). -/
def floorF (v : F32) : F32 := ofInt (floorInt v)

/-- A position wrapped into `[0, cap)`, with its whole and fractional part (40_ring_buffer.md R129). -/
def wrappedPosition (b : RingUnit) (p : F32) : Int × F32 :=
  let c := ofInt b.cap
  let p := indexable p
  let q := fsub p (fmul c (floorF (fdiv p c)))
  let q := if flt q 0 then fadd q c else q
  let q := if fle c q then fsub q c else q
  let i := floorInt q
  (i, fsub q (ofInt i))

/-- `i mod cap` (40_ring_buffer.md R129). -/
def slotAt (b : RingUnit) (i : Int) : Nat := (i % (b.cap : Int)).toNat

/-! ## Capacities -/

/-- `pow2ceil(n)`: the smallest power of two at least `n` (00_scope.md R13). -/
def pow2ceil (n : Nat) : Nat := if n ≤ 1 then 1 else 2 ^ (Nat.log2 (n - 1) + 1)

/-- A power of two, 1 included (40_ring_buffer.md R122). -/
def isPow2 (n : Nat) : Bool := n != 0 && 2 ^ Nat.log2 n == n

/-! ## Control values -/

/-- What a write of `w` to a parameter register stores: a NaN and anything not above 0 as `+0.0`,
anything not below 1 as 1.0 (47_system.md R314). -/
def paramValue (w : Word32) : F32 :=
  if isNaN w || fle w 0 then 0
  else if fle 0x3F800000 w then 0x3F800000
  else w

end Sys2Proof.Machine
end

