-- ==== Sys2Proof/Machine/Ops.lean ====
section
/-! DEFINITION. The named operations over the state: registers, CSRs, ring-buffer storage, raising a
fault, and the bookkeeping of a command in flight, by which the spec's rule for non-finite values
(20_memory.md R76) is applied once for every command. -/

namespace Sys2Proof.Machine

/-- The outcome of a command. -/
abbrev Result := Host.Outcome State Fault Refusal

/-! ## Ring-buffer storage (20_memory.md R60, R61) -/

/-- The sample of a slot; an unlisted slot holds `+0.0` (log 16). -/
def samplesRead (m : Samples) (i : Nat) : F32 :=
  match m with
  | [] => 0
  | (j, v) :: rest => if j = i then v else samplesRead rest i

/-- The store with slot `i` holding `v`: slot numbers stay strictly rising, and a `+0.0` is not listed
(log 16). -/
def samplesWrite (m : Samples) (i : Nat) (v : F32) : Samples :=
  match m with
  | [] => if v = 0 then [] else [(i, v)]
  | (j, w) :: rest =>
    if j = i then (if v = 0 then rest else (i, v) :: rest)
    else if i < j then (if v = 0 then (j, w) :: rest else (i, v) :: (j, w) :: rest)
    else (j, w) :: samplesWrite rest i v

/-- `MemRead(u:i, 1)` (00_scope.md R12). -/
def memRead (b : RingUnit) (i : Nat) : F32 := samplesRead b.mem i

/-- `MemWrite(u:i, 1, v)`; slots at or above the capacity do not exist (00_scope.md R12). -/
def memWrite (b : RingUnit) (i : Nat) (v : F32) : RingUnit :=
  if i < b.cap then { b with mem := samplesWrite b.mem i v } else b

/-- A unit after `init(cap)`: cursor 0 and every slot `+0.0` (40_ring_buffer.md R121). -/
def freshRing (cap : Nat) : RingUnit := { cap := cap, wr := 0, mem := [] }

/-- The store of a unit in its one canonical form: slot numbers strictly rising, all below the
capacity, and no `+0.0` listed (log 16). -/
def samplesWf (cap : Nat) : Samples → Bool
  | [] => true
  | [(i, v)] => decide (i < cap) && v != 0
  | (i, v) :: (j, w) :: rest => decide (i < j) && v != 0 && samplesWf cap ((j, w) :: rest)

/-- A unit within its bounds (10_state.md R29, R35). -/
def ringWf (b : RingUnit) : Bool :=
  decide (b.cap ≤ Config.rbCapMax) && decide (b.wr < max b.cap 1) && samplesWf b.cap b.mem

/-- The canonical form of all ring-buffer storage (10_state.md R35; log 16). -/
def Memory.wf (s : State) : Bool := s.rb.all ringWf

/-! ## Registers and units -/

/-- `x[r]` (00_scope.md R11). -/
def readX (s : State) (r : Reg) : F32 := s.x[r]

/-- `x[r] <- v` (00_scope.md R11). -/
def writeX (s : State) (r : Reg) (v : F32) : State := { s with x := s.x.set r.val v r.isLt }

/-- `RB[u]` (00_scope.md R11). -/
def ring (s : State) (u : RbUnit) : RingUnit := s.rb[u]

/-- `RB[u]` replaced. -/
def setRing (s : State) (u : RbUnit) (b : RingUnit) : State := { s with rb := s.rb.set u.val b u.isLt }

/-- `FS[f]` (00_scope.md R11). -/
def filter (s : State) (f : FsUnit) : FilterUnit := s.fs[f]

/-- `FS[f]` replaced. -/
def setFilter (s : State) (f : FsUnit) (v : FilterUnit) : State :=
  { s with fs := s.fs.set f.val v f.isLt }

/-- The response of a command (47_system.md R321). -/
def respond (s : State) (v : Word32) : State := { s with resp := v }

/-! ## Parameter registers and CSRs -/

/-- The parameter register of a name (10_state.md R27). -/
def Params.get (q : Params) : Param → F32
  | .revMix => q.revMix | .revSize => q.revSize | .revDamp => q.revDamp
  | .revTone => q.revTone | .revShimmer => q.revShimmer
  | .dlyMix => q.dlyMix | .dlyTime => q.dlyTime | .dlyFeedback => q.dlyFeedback
  | .dlyTone => q.dlyTone | .dlySub => q.dlySub | .dlyPingpong => q.dlyPingpong
  | .dlyMod => q.dlyMod
  | .satGrit => q.satGrit | .satTone => q.satTone | .satWarmth => q.satWarmth
  | .satAttack => q.satAttack | .satOutput => q.satOutput | .satMix => q.satMix
  | .satDrive => q.satDrive | .satType => q.satType | .satComp => q.satComp

/-- The parameter registers with one of them written. -/
def Params.put (q : Params) (p : Param) (v : F32) : Params :=
  match p with
  | .revMix => { q with revMix := v }
  | .revSize => { q with revSize := v }
  | .revDamp => { q with revDamp := v }
  | .revTone => { q with revTone := v }
  | .revShimmer => { q with revShimmer := v }
  | .dlyMix => { q with dlyMix := v }
  | .dlyTime => { q with dlyTime := v }
  | .dlyFeedback => { q with dlyFeedback := v }
  | .dlyTone => { q with dlyTone := v }
  | .dlySub => { q with dlySub := v }
  | .dlyPingpong => { q with dlyPingpong := v }
  | .dlyMod => { q with dlyMod := v }
  | .satGrit => { q with satGrit := v }
  | .satTone => { q with satTone := v }
  | .satWarmth => { q with satWarmth := v }
  | .satAttack => { q with satAttack := v }
  | .satOutput => { q with satOutput := v }
  | .satMix => { q with satMix := v }
  | .satDrive => { q with satDrive := v }
  | .satType => { q with satType := v }
  | .satComp => { q with satComp := v }

/-- `SRATE = SRATE_HI ++ SRATE_LO`, a binary64 value (10_state.md R25). -/
def srate (s : State) : F64 := s.srateHi ++ s.srateLo

/-- `ENG[e].rate` (10_state.md R32). -/
def rateOf (e : Engine) (s : State) : F64 :=
  match e with
  | .rev => s.rateRev
  | .dly => s.rateDly
  | .sat => s.rateSat

/-- `CSR[n]` (10_state.md R28). -/
def readCsr (s : State) : Csr → Word32
  | .status => s.status
  | .finfo => s.finfo
  | .srateLo => s.srateLo
  | .srateHi => s.srateHi
  | .maxblk .rev => s.maxblkRev
  | .maxblk .dly => s.maxblkDly
  | .maxblk .sat => s.maxblkSat
  | .variant => s.variant
  | .param p => s.params.get p

/-- `CSR[n] <- w` as the register keeps it; none for a read-only register (47_system.md R314). -/
def writeCsr (s : State) (n : Csr) (w : Word32) : Option State :=
  match n with
  | .srateLo => some { s with srateLo := w }
  | .srateHi => some { s with srateHi := w }
  | .variant => some { s with variant := w &&& 1 }
  | .param p => some { s with params := s.params.put p (paramValue w) }
  | .status | .finfo | .maxblk _ => none

/-! ## Faults (60_exceptions.md R344) -/

/-- `raise F`: the fault record, the halt and response 0, and nothing else (60_exceptions.md R344,
R355). There is no handler and no way back but reset (60_exceptions.md R351). -/
def raised (f : FaultCode) (w : Command) (s : State) : State :=
  { s with status := statusFaulted f s.status, finfo := w.extractLsb' 0 32, resp := 0 }

/-- A command that ends in a fault; the information word is that of the command (60_exceptions.md
R340; log 17). -/
def raiseFault (f : FaultCode) (i : Instr) (s : State) : Result := .next (raised f (encode i) s)

/-- `NotPrepared` unless the engine is prepared (60_exceptions.md R343). -/
def onPrepared (e : Engine) (i : Instr) (s : State) (run : Result) : Result :=
  if prepared e s then run else raiseFault .notPrepared i s

/-- Hardware reset (70_reset_and_hazards.md R370). What the host does next is not state of the block,
and the free values used so far stay used (log 3). -/
def hardwareReset (s : State) : State := { State.reset with inbox := s.inbox, free := s.free }

/-- A word presented while the block is halted: a legal `CSRR` is answered, every other word responds
0, and no state changes (60_exceptions.md R346). -/
def haltedCommand (w : Command) (s : State) : State :=
  if w &&& 0xFFFFFFFF00FFFFFF = 0x05 then
    match Csr.ofNumber (w.extractLsb' 24 8).toNat with
    | some n => respond s (readCsr s n)
    | none => respond s 0
  else respond s 0

/-- The next thing the host does, and the state in which it is handled (log 1). -/
def nextEvent (s : State) : Option (HostEvent × State) :=
  match s.inbox with
  | [] => none
  | ev :: rest => some (ev, { s with inbox := rest })

/-! ## Places that hold an F32 -/

/-- The F32 fields of the reverb's cache. -/
inductive RevField where
  | dampA | aLo | aHi | aPre | aPost
deriving DecidableEq, Repr

/-- The F32 fields of the delay's cache. -/
inductive DlyField where
  | d1 | d2 | aTone | lfoInc
deriving DecidableEq, Repr

/-- The F32 fields of the saturation's cache. -/
inductive SatField where
  | aRel | aWarm | aTone | aCompRel | outGain
deriving DecidableEq, Repr

/-- Every place of the state that a command can write a computed F32 to. -/
inductive Place where
  | x (r : Reg)
  | slot (u : RbUnit) (i : Nat)
  | fsX (f : FsUnit)
  | fsY (f : FsUnit)
  | shimPhase | shimOut | dlyPh1 | dlyPh2
  | revc (k : RevField)
  | dlyc (k : DlyField)
  | satc (k : SatField)
deriving DecidableEq, Repr

def getRevc (q : RevCache) : RevField → F32
  | .dampA => q.dampA | .aLo => q.aLo | .aHi => q.aHi | .aPre => q.aPre | .aPost => q.aPost

def putRevc (q : RevCache) (k : RevField) (v : F32) : RevCache :=
  match k with
  | .dampA => { q with dampA := v }
  | .aLo => { q with aLo := v }
  | .aHi => { q with aHi := v }
  | .aPre => { q with aPre := v }
  | .aPost => { q with aPost := v }

def getDlyc (q : DlyCache) : DlyField → F32
  | .d1 => q.d1 | .d2 => q.d2 | .aTone => q.aTone | .lfoInc => q.lfoInc

def putDlyc (q : DlyCache) (k : DlyField) (v : F32) : DlyCache :=
  match k with
  | .d1 => { q with d1 := v }
  | .d2 => { q with d2 := v }
  | .aTone => { q with aTone := v }
  | .lfoInc => { q with lfoInc := v }

def getSatc (q : SatCache) : SatField → F32
  | .aRel => q.aRel | .aWarm => q.aWarm | .aTone => q.aTone | .aCompRel => q.aCompRel
  | .outGain => q.outGain

def putSatc (q : SatCache) (k : SatField) (v : F32) : SatCache :=
  match k with
  | .aRel => { q with aRel := v }
  | .aWarm => { q with aWarm := v }
  | .aTone => { q with aTone := v }
  | .aCompRel => { q with aCompRel := v }
  | .outGain => { q with outGain := v }

/-- What a place holds. -/
def getPlace (s : State) : Place → F32
  | .x r => readX s r
  | .slot u i => memRead (ring s u) i
  | .fsX f => (filter s f).x1
  | .fsY f => (filter s f).y1
  | .shimPhase => s.shimPhase
  | .shimOut => s.shimOut
  | .dlyPh1 => s.dlyPh1
  | .dlyPh2 => s.dlyPh2
  | .revc k => getRevc s.revc k
  | .dlyc k => getDlyc s.dlyc k
  | .satc k => getSatc s.satc k

/-- The state with one place written. -/
def putPlace (s : State) (p : Place) (v : F32) : State :=
  match p with
  | .x r => writeX s r v
  | .slot u i => setRing s u (memWrite (ring s u) i v)
  | .fsX f => setFilter s f { filter s f with x1 := v }
  | .fsY f => setFilter s f { filter s f with y1 := v }
  | .shimPhase => { s with shimPhase := v }
  | .shimOut => { s with shimOut := v }
  | .dlyPh1 => { s with dlyPh1 := v }
  | .dlyPh2 => { s with dlyPh2 := v }
  | .revc k => { s with revc := putRevc s.revc k v }
  | .dlyc k => { s with dlyc := putDlyc s.dlyc k v }
  | .satc k => { s with satc := putSatc s.satc k v }

/-! ## A command in flight (20_memory.md R76) -/

/-- A command being executed: the state so far, whether every operand, slot and state field it has
read is finite, and the places it has written a computed F32 to, oldest first. -/
structure Work where
  st    : State
  dom   : Bool
  wrote : List Place

/-- A command begins. -/
def startWork (s : State) : Work := { st := s, dom := true, wrote := [] }

/-- Note that the command uses the value `v`. -/
def seeValue (w : Work) (v : F32) : Work := { w with dom := w.dom && isFinite v }

/-- Read a place. -/
def readPlace (w : Work) (p : Place) : F32 × Work :=
  (getPlace w.st p, seeValue w (getPlace w.st p))

/-- Write a computed value to a place. -/
def writePlace (w : Work) (p : Place) (v : F32) : Work :=
  { w with st := putPlace w.st p v, wrote := w.wrote ++ [p] }

/-- A written place at the end of its command: the next free value if the command used a non-finite
value (20_memory.md R76; log 9) or computed a NaN (log 10), else what was written. -/
def settlePlace (dom : Bool) (s : State) (p : Place) : State :=
  if dom && !isNaN (getPlace s p) then s
  else { putPlace s p (Config.freeF32 s.free) with free := s.free + 1 }

/-- The state after the command. -/
def finishWork (w : Work) : State := w.wrote.foldl (settlePlace w.dom) w.st

/-- A command that responds 0 ends (47_system.md R321). -/
def complete (w : Work) : Result := .next (respond (finishWork w) 0)

/-- A push in flight: write at the cursor, then advance it (40_ring_buffer.md R123). -/
def pushWork (w : Work) (u : RbUnit) (v : F32) : Work :=
  let w := writePlace w (.slot u (ring w.st u).wr) v
  { w with st := setRing w.st u { ring w.st u with wr := nextWr (ring w.st u) } }

/-- The oldest sample of a unit, in the slot the next push overwrites (40_ring_buffer.md R120). -/
def oldestWork (w : Work) (u : RbUnit) : F32 × Work := readPlace w (.slot u (ring w.st u).wr)

/-- `x[d] <- f(x[s])` with response 0. -/
def unaryOp (f : F32 → F32) (d r : Reg) (s : State) : Result :=
  let (v, w) := readPlace (startWork s) (.x r)
  complete (writePlace w (.x d) (f v))

/-- `x[d] <- f(x[a], x[b], x[c])` with response 0. -/
def ternaryOp (f : F32 → F32 → F32 → F32) (d a b c : Reg) (s : State) : Result :=
  let (p, w) := readPlace (startWork s) (.x a)
  let (q, w) := readPlace w (.x b)
  let (r, w) := readPlace w (.x c)
  complete (writePlace w (.x d) (f p q r))

end Sys2Proof.Machine
end

