-- ==== Sys2Proof/Machine/RingBuffer.lean ====
section
/-! DEFINITION. The ring-buffer commands (40_ring_buffer.md R121 to R132) and the interpolated reads
the engines share with them. -/

namespace Sys2Proof.Machine

/-! ## Initialisation -/

/-- `RB.INIT` under structural sizes (40_ring_buffer.md R121, 00_scope.md R6). -/
def rbInitWith (z : Config.Sizes) (u : RbUnit) (cap : Word32) (s : State) : Result :=
  if cap.toNat = 0 then raiseFault .capZero (.rbInit u cap) s
  else if cap.toNat > z.rbCapMax then raiseFault .capRange (.rbInit u cap) s
  else .next (respond (setRing s u (freshRing cap.toNat)) 0)

/-- `RB.INIT rbU, cap` (40_ring_buffer.md R121). -/
def execRbInit (u : RbUnit) (cap : Word32) (s : State) : Result := rbInitWith Config.sizes u cap s

/-- `RB.INIT2` under structural sizes: the capacity a power of two (40_ring_buffer.md R122, 00_scope.md
R6). -/
def rbInit2With (z : Config.Sizes) (u : RbUnit) (cap : Word32) (s : State) : Result :=
  if cap.toNat = 0 then raiseFault .capZero (.rbInit2 u cap) s
  else if cap.toNat > z.rbCapMax then raiseFault .capRange (.rbInit2 u cap) s
  else if !isPow2 cap.toNat then raiseFault .capNotPow2 (.rbInit2 u cap) s
  else .next (respond (setRing s u (freshRing cap.toNat)) 0)

/-- `RB.INIT2 rbU, cap` (40_ring_buffer.md R122). -/
def execRbInit2 (u : RbUnit) (cap : Word32) (s : State) : Result := rbInit2With Config.sizes u cap s

/-! ## Push and bit-exact read -/

/-- A unit after a push of `v` (40_ring_buffer.md R123). -/
def pushRing (b : RingUnit) (v : F32) : RingUnit := { memWrite b b.wr v with wr := nextWr b }

/-- `RbUninit` unless the unit has slots (40_ring_buffer.md R130). -/
def onRing (u : RbUnit) (i : Instr) (s : State) (run : Result) : Result :=
  if (ring s u).cap = 0 then raiseFault .rbUninit i s else run

/-- `RB.PUSH rbU, xs`: the value is stored bit for bit, whatever it is (40_ring_buffer.md R123). -/
def execRbPush (u : RbUnit) (rs : Reg) (s : State) : Result :=
  onRing u (.rbPush u rs) s (.next (respond (setRing s u (pushRing (ring s u) (readX s rs))) 0))

/-- `RB.RDN xd, rbU, k`: the stored bits (40_ring_buffer.md R124, R133; log 11). -/
def execRbRdn (rd : Reg) (u : RbUnit) (k : Word32) (s : State) : Result :=
  let b := ring s u
  onRing u (.rbRdn rd u k) s
    (.next (respond (writeX s rd (memRead b (slotOf b (clampedCount b k)))) 0))

/-! ## Interpolated reads of a command in flight -/

/-- The integer read at a delay: the fraction is dropped (40_ring_buffer.md R126). A NaN or infinite delay
that a command computed reads at `+0.0`, here and in the reads below (40_ring_buffer.md R125; log 27). -/
def rdiWork (w : Work) (u : RbUnit) (d : F32) : F32 × Work :=
  let b := ring w.st u
  readPlace w (.slot u (slotOf b (delay0 b d).1))

/-- The linear read at a delay. DESIGN CHOICE: `a + f × (b - a)` as written, also where `f` is 0, where the
prose of R127 and R133 says `a` (40_ring_buffer.md R127; log 28). -/
def rdlWork (w : Work) (u : RbUnit) (d : F32) : F32 × Work :=
  let r := ring w.st u
  let (i, f) := delay1 r d
  let (a, w) := readPlace w (.slot u (slotOf r i))
  let (b, w) := readPlace w (.slot u (slotOf r (i + 1)))
  (flerp a b f, w)

/-- The Catmull-Rom value between `p0` and `p1` (40_ring_buffer.md R128). -/
def catmullRom (pm1 p0 p1 p2 t : F32) : F32 :=
  let c1 := fsub p1 pm1
  let c2 := fsub (fadd (fsub (fmul two pm1) (fmul 0x40A00000 p0)) (fmul 0x40800000 p1)) p2
  let c3 := fsub (fadd (fmul 0x40400000 (fsub p0 p1)) p2) pm1
  fadd p0 (fmul (fmul half t) (fadd c1 (fmul t (fadd c2 (fmul t c3)))))

/-- The cubic read at a delay (40_ring_buffer.md R128). -/
def rdcWork (w : Work) (u : RbUnit) (d : F32) : F32 × Work :=
  let r := ring w.st u
  let (i, t) := delay3 r d
  let (pm1, w) := readPlace w (.slot u (slotOf r (i - 1)))
  let (p0, w) := readPlace w (.slot u (slotOf r i))
  let (p1, w) := readPlace w (.slot u (slotOf r (i + 1)))
  let (p2, w) := readPlace w (.slot u (slotOf r (i + 2)))
  (catmullRom pm1 p0 p1 p2 t, w)

/-- What a read at a wrapped position with the fraction `f` answers: open if the wrap overflowed, for a
wrapped position that is not finite has no integral part (40_ring_buffer.md R129; log 19). -/
def wrappedValue (f v : F32) : F32 := if isFinite f then v else openNaN

/-- The linear read at an absolute position (40_ring_buffer.md R129). -/
def rdpWork (w : Work) (u : RbUnit) (p : F32) : F32 × Work :=
  let r := ring w.st u
  let (i, f) := wrappedPosition r p
  let (a, w) := readPlace w (.slot u (slotAt r i))
  let (b, w) := readPlace w (.slot u (slotAt r (i + 1)))
  (wrappedValue f (flerp a b f), w)

/-- `x[d] <- read(x[s])` of an initialised unit, with response 0. -/
def readOp (read : Work → RbUnit → F32 → F32 × Work) (rd : Reg) (u : RbUnit) (rs : Reg)
    (s : State) : Result :=
  let (d, w) := readPlace (startWork s) (.x rs)
  let (v, w) := read w u d
  complete (writePlace w (.x rd) v)

/-- `RB.RDI xd, rbU, xs` (40_ring_buffer.md R126). -/
def execRbRdi (rd : Reg) (u : RbUnit) (rs : Reg) (s : State) : Result :=
  onRing u (.rbRdi rd u rs) s (readOp rdiWork rd u rs s)

/-- `RB.RDL xd, rbU, xs` (40_ring_buffer.md R127). -/
def execRbRdl (rd : Reg) (u : RbUnit) (rs : Reg) (s : State) : Result :=
  onRing u (.rbRdl rd u rs) s (readOp rdlWork rd u rs s)

/-- `RB.RDC xd, rbU, xs` (40_ring_buffer.md R128). -/
def execRbRdc (rd : Reg) (u : RbUnit) (rs : Reg) (s : State) : Result :=
  onRing u (.rbRdc rd u rs) s (readOp rdcWork rd u rs s)

/-- `RB.RDP xd, rbU, xs` (40_ring_buffer.md R129). -/
def execRbRdp (rd : Reg) (u : RbUnit) (rs : Reg) (s : State) : Result :=
  onRing u (.rbRdp rd u rs) s (readOp rdpWork rd u rs s)

/-! ## Bookkeeping -/

/-- `RB.CAP rbU` (40_ring_buffer.md R131). -/
def execRbCap (u : RbUnit) (s : State) : Result :=
  .next (respond s (BitVec.ofNat 32 (ring s u).cap))

/-- `RB.CUR rbU` (40_ring_buffer.md R132). -/
def execRbCur (u : RbUnit) (s : State) : Result :=
  .next (respond s (BitVec.ofNat 32 (ring s u).wr))

end Sys2Proof.Machine
end

