-- ==== Sys2Proof/Machine/Allpass.lean ====
section
/-! DEFINITION. The allpass diffuser (41_allpass.md R150). -/

namespace Sys2Proof.Machine

/-- One step of the allpass over a unit: `delayed - gain × writtenValue`, with its push
(41_allpass.md R150). -/
def apWork (w : Work) (u : RbUnit) (v gain : F32) : F32 × Work :=
  let (delayed, w) := oldestWork w u
  let wv := fadd v (fmul gain delayed)
  let w := pushWork w u wv
  (fsub delayed (fmul gain wv), w)

/-- `AP.PROC xd, rbU, xs, xg` (41_allpass.md R150); the gain is not checked (41_allpass.md R153). -/
def execApProc (rd : Reg) (u : RbUnit) (rs rg : Reg) (s : State) : Result :=
  onRing u (.apProc rd u rs rg) s
    (let (v, w) := readPlace (startWork s) (.x rs)
     let (g, w) := readPlace w (.x rg)
     let (out, w) := apWork w u v g
     complete (writePlace w (.x rd) out))

end Sys2Proof.Machine
end

