-- ==== Sys2Proof/Machine/Filters.lean ====
section
/-! DEFINITION. One-pole filters, soft limiter, clamp, cutoff coefficient and the three tone-tilt
filters (42_filters.md R160 to R175). -/

namespace Sys2Proof.Machine

open Config (Cfg)

/-! ## Filter-state steps of a command in flight -/

/-- The two fields of a filter unit after a step. -/
def writeFilter (w : Work) (f : FsUnit) (x y : F32) : Work :=
  writePlace (writePlace w (.fsX f) x) (.fsY f) y

/-- `LPstep`: `y = y1 + a × (x - y1)` (42_filters.md R162). -/
def lpWork (w : Work) (f : FsUnit) (x a : F32) : F32 × Work :=
  let (y1, w) := readPlace w (.fsY f)
  let y := fadd y1 (fmul a (fsub x y1))
  (y, writeFilter w f x y)

/-- The subtractive high-pass: the low-pass step, then `x - lp` (42_filters.md R164). -/
def hpWork (w : Work) (f : FsUnit) (x a : F32) : F32 × Work :=
  let (lp, w) := lpWork w f x a
  (fsub x lp, w)

/-- `DCBstep`: `y = (x - x1) + R × y1` (42_filters.md R165). -/
def dcbWork (w : Work) (f : FsUnit) (x r : F32) : F32 × Work :=
  let (x1, w) := readPlace w (.fsX f)
  let (y1, w) := readPlace w (.fsY f)
  let y := fadd (fsub x x1) (fmul r y1)
  (y, writeFilter w f x y)

/-- `x[d] <- step(x[s], x[a])` on a filter unit, with response 0. -/
def filterOp (step : Work → FsUnit → F32 → F32 → F32 × Work) (rd : Reg) (f : FsUnit) (rs ra : Reg)
    (s : State) : Result :=
  let (x, w) := readPlace (startWork s) (.x rs)
  let (a, w) := readPlace w (.x ra)
  let (y, w) := step w f x a
  complete (writePlace w (.x rd) y)

/-- `F.CLR fsF` (42_filters.md R161). -/
def execFClr (f : FsUnit) (s : State) : Result :=
  .next (respond (setFilter s f { x1 := 0, y1 := 0 }) 0)

/-- `F.LP xd, fsF, xs, xa` (42_filters.md R162). -/
def execFLp (rd : Reg) (f : FsUnit) (rs ra : Reg) (s : State) : Result := filterOp lpWork rd f rs ra s

/-- `F.HP xd, fsF, xs, xa` (42_filters.md R164). -/
def execFHp (rd : Reg) (f : FsUnit) (rs ra : Reg) (s : State) : Result := filterOp hpWork rd f rs ra s

/-- `F.DCB xd, fsF, xs, xr` (42_filters.md R165). -/
def execFDcb (rd : Reg) (f : FsUnit) (rs rr : Reg) (s : State) : Result :=
  filterOp dcbWork rd f rs rr s

/-! ## Stateless helpers -/

/-- `SLIM xd, xs` (42_filters.md R166). -/
def execSlim (rd rs : Reg) (s : State) : Result := unaryOp softLimit rd rs s

/-- `CLAMP xd, xs, xlo, xhi` (42_filters.md R167). -/
def execClamp (rd rs lo hi : Reg) (s : State) : Result := ternaryOp fclamp rd rs lo hi s

/-- `F.COEF` under a configuration (42_filters.md R163). -/
def coefWith (c : Cfg) (rd rs : Reg) (s : State) : Result :=
  if isPosFinite64 (srate s) then unaryOp (fun fc => coef c fc (srate s)) rd rs s
  else raiseFault .badRate (.fCoef rd rs) s

/-- `F.COEF xd, xs`: reads `SRATE` as it stands (42_filters.md R163). -/
def execFCoef (rd rs : Reg) (s : State) : Result := coefWith Config.cfg rd rs s

/-! ## Tone-tilt filters (42_filters.md R169) -/

/-- The unit of a channel. -/
def chUnit (ch : Channel) (l r : FsUnit) : FsUnit :=
  match ch with
  | .left => l
  | .right => r

/-- The reverb's tone stage: crossfade to the 400 Hz copy below 0.5, boost of the band above 3200 Hz
above it; both low-passes step on every sample (42_filters.md R171). -/
def tiltRevWork (c : Cfg) (w : Work) (ch : Channel) (wet : F32) : F32 × Work :=
  let tone := w.st.params.revTone
  let (aLo, w) := readPlace w (.revc .aLo)
  let (lo, w) := lpWork w (chUnit ch 4 5) wet aLo
  let (aHi, w) := readPlace w (.revc .aHi)
  let (hi, w) := lpWork w (chUnit ch 6 7) wet aHi
  if flt tone half then
    (fadd wet (fmul (fmul (fsub half tone) two) (fsub lo wet)), w)
  else if flt half tone then
    (fadd wet (fmul (fmul (fmul (fsub tone half) two) (cfgRevTiltK c)) (fsub wet hi)), w)
  else (wet, w)

/-- The delay's feedback tone filter: a blended low-pass or the subtractive high-pass, as latched
(42_filters.md R172). -/
def tiltDlyWork (w : Work) (ch : Channel) (v : F32) : F32 × Work :=
  let tone := w.st.params.dlyTone
  let (a, w) := readPlace w (.dlyc .aTone)
  let (lp, w) := lpWork w (chUnit ch 10 11) v a
  if w.st.dlyc.hp then (fsub v lp, w)
  else (fadd v (fmul (fmax (fsub one (fmul two tone)) 0) (fsub lp v)), w)

/-- The saturation's tone stage: crossfade to the low-passed copy below 0.5, boost above it
(42_filters.md R175). -/
def tiltSatWork (c : Cfg) (w : Work) (ch : Channel) (v : F32) : F32 × Work :=
  let tone := w.st.params.satTone
  let (a, w) := readPlace w (.satc .aTone)
  let (lp, w) := lpWork w (chUnit ch 16 17) v a
  if flt tone half then
    (fadd v (fmul (fmul (fsub half tone) two) (fsub lp v)), w)
  else if flt half tone then
    (fadd v (fmul (fmul (fmul (fsub tone half) two) (cfgSatTiltK c)) (fsub v lp)), w)
  else (v, w)

/-- `x[d] <- tilt(x[s])` of a prepared engine, with response 0. -/
def tiltOp (tilt : Work → Channel → F32 → F32 × Work) (rd : Reg) (ch : Channel) (rs : Reg)
    (s : State) : Result :=
  let (v, w) := readPlace (startWork s) (.x rs)
  let (out, w) := tilt w ch v
  complete (writePlace w (.x rd) out)

/-- `TILT.REV` under a configuration. -/
def tiltRevWith (c : Cfg) (rd : Reg) (ch : Channel) (rs : Reg) (s : State) : Result :=
  onPrepared .rev (.tiltRev rd ch rs) s (tiltOp (tiltRevWork c) rd ch rs s)

/-- `TILT.REV xd, ch, xs` (42_filters.md R171). -/
def execTiltRev (rd : Reg) (ch : Channel) (rs : Reg) (s : State) : Result :=
  tiltRevWith Config.cfg rd ch rs s

/-- `TILT.DLY xd, ch, xs` (42_filters.md R172). -/
def execTiltDly (rd : Reg) (ch : Channel) (rs : Reg) (s : State) : Result :=
  onPrepared .dly (.tiltDly rd ch rs) s (tiltOp tiltDlyWork rd ch rs s)

/-- `TILT.SAT` under a configuration. -/
def tiltSatWith (c : Cfg) (rd : Reg) (ch : Channel) (rs : Reg) (s : State) : Result :=
  onPrepared .sat (.tiltSat rd ch rs) s (tiltOp (tiltSatWork c) rd ch rs s)

/-- `TILT.SAT xd, ch, xs` (42_filters.md R175). -/
def execTiltSat (rd : Reg) (ch : Channel) (rs : Reg) (s : State) : Result :=
  tiltSatWith Config.cfg rd ch rs s

end Sys2Proof.Machine
end

