-- ==== Sys2Proof/Machine/System.lean ====
section
/-! DEFINITION. The system commands (47_system.md R310 to R317): moving values, CSRs, `PREPARE`,
`BLOCK`. -/

namespace Sys2Proof.Machine

open Config (Cfg)

/-! ## Moving values -/

/-- `NOP` (47_system.md R310). -/
def execNop (s : State) : Result := .next (respond s 0)

/-- `LDV xd, imm`: any bit pattern (47_system.md R311). -/
def execLdv (rd : Reg) (imm : Word32) (s : State) : Result := .next (respond (writeX s rd imm) 0)

/-- `RDV xs`: the 32 bits as they stand (47_system.md R312). -/
def execRdv (rs : Reg) (s : State) : Result := .next (respond s (readX s rs))

/-- `MOV xd, xs`: bit for bit (47_system.md R313). -/
def execMov (rd rs : Reg) (s : State) : Result := .next (respond (writeX s rd (readX s rs)) 0)

/-! ## Control and status registers -/

/-- `CSRW csr, imm`: a read-only register raises `IllegalCommand` (47_system.md R314; log 18). -/
def execCsrw (n : Csr) (imm : Word32) (s : State) : Result :=
  match writeCsr s n imm with
  | some t => .next (respond t 0)
  | none => raiseFault .illegalCommand (.csrw n imm) s

/-- `CSRR csr` (47_system.md R315). -/
def execCsrr (n : Csr) (s : State) : Result := .next (respond s (readCsr s n))

/-! ## The block caches (10_state.md R33, 47_system.md R317) -/

/-- The reverb's cache (46_reverb.md R282, 42_filters.md R170, 43_shimmer.md R192, R195). -/
def latchRev (c : Cfg) (w : Work) : Work :=
  let q := w.st.params
  let rate := w.st.rateRev
  let w := writePlace w (.revc .dampA) (fsub one (dampCoef q.revDamp))
  let w := writePlace w (.revc .aLo) (coef c 0x43C80000 rate)
  let w := writePlace w (.revc .aHi) (coef c 0x45480000 rate)
  let w := writePlace w (.revc .aPre) (coef c 0x45BB8000 rate)
  writePlace w (.revc .aPost) (coef c 0x45FA0000 rate)

/-- The cutoff of the delay's feedback tone filter (44_delay.md R216). -/
def dlyToneCutoff (tone : F32) : F32 :=
  if flt tone half then fadd 0x44480000 (fmul 0x46DAC000 tone)
  else fmul 0x44480000 (fsub tone half)

/-- The delay's cache (44_delay.md R211, R213, R214, R216). -/
def latchDly (c : Cfg) (w : Work) : Work :=
  let q := w.st.params
  let rate := w.st.rateDly
  let d1 := fmul (timeSec c q.dlyTime) (narrow rate)
  let w := writePlace w (.dlyc .d1) d1
  let w := writePlace w (.dlyc .d2) (fmul d1 (ratio q.dlySub))
  let w := { w with st := { w.st with dlyc := { w.st.dlyc with hp := !flt q.dlyTone half } } }
  let w := writePlace w (.dlyc .aTone) (coef c (dlyToneCutoff q.dlyTone) rate)
  writePlace w (.dlyc .lfoInc) (fdiv (cfgDlyLfoHz c) (narrow rate))

/-- The saturation's cache (45_saturation.md R251, R254, R256, R258, 42_filters.md R174). -/
def latchSat (c : Cfg) (w : Work) : Work :=
  let q := w.st.params
  let rate := w.st.rateSat
  let w := writePlace w (.satc .aRel) (cfgSatRelease c q.satAttack rate)
  let w := writePlace w (.satc .aWarm) (coef c 0x43960000 rate)
  let w := writePlace w (.satc .aTone)
    (coef c (fadd 0x43FA0000 (fmul 0x465AC000 q.satTone)) rate)
  let w := writePlace w (.satc .aCompRel) (cfgCompRelease c q.satComp rate)
  writePlace w (.satc .outGain) (outGain c q.satOutput)

/-- The block cache of an engine, latched from the parameter registers and the engine's rate
(47_system.md R317). -/
def latchCache (c : Cfg) (e : Engine) (w : Work) : Work :=
  match e with
  | .rev => latchRev c w
  | .dly => latchDly c w
  | .sat => latchSat c w

/-- `BLOCK eng` under a configuration (47_system.md R317). -/
def blockWith (c : Cfg) (e : Engine) (s : State) : Result :=
  onPrepared e (.block e) s (complete (latchCache c e (startWork s)))

/-- `BLOCK eng` (47_system.md R317). -/
def execBlock (e : Engine) (s : State) : Result := blockWith Config.cfg e s

/-! ## PREPARE (47_system.md R316) -/

/-- The ring-buffer units an engine owns, as indices of `CFG.RB_BASE` (10_state.md R31). -/
def ownedRings : Engine → List (Fin 17)
  | .rev => [0, 1, 2, 3, 4, 5, 6, 7, 8, 9, 10, 11, 12]
  | .dly => [13, 14, 15, 16]
  | .sat => []

/-- The filter-state units an engine owns (10_state.md R31). -/
def ownedFilters : Engine → List FsUnit
  | .rev => [0, 1, 2, 3, 4, 5, 6, 7, 8, 9]
  | .dly => [10, 11]
  | .sat => [12, 13, 14, 15, 16, 17, 18, 19, 20, 21]

/-- The ring-buffer unit of an index of `CFG.RB_BASE`. -/
def ownedUnit (u : Fin 17) : RbUnit := ⟨u.val, by have := u.isLt; simp only [Config.nrb]; omega⟩

/-- Whether every unit an engine owns has at least one slot (40_ring_buffer.md R130). -/
def engineHasSlots (e : Engine) (s : State) : Bool :=
  (ownedRings e).all fun u => (ring s (ownedUnit u)).cap != 0

/-- The size `PREPARE` computes for a unit: `round((RB_BASE[u] × SRATE) ÷ REF_RATE)` in binary64, the
shimmer buffer's rounded up to a power of two; none if it is not finite (47_system.md R316; log 14). -/
def preparedSize (c : Cfg) (rate : F64) (u : Fin 17) : Option Nat :=
  let n := round64 (ddiv (dmul (cfgRbBase c u) rate) (cfgRefRate c))
  if u = 12 then n.map fun k => if k ≥ 1 then pow2ceil k else k else n

/-- The reverb scalars zeroed, the LFO phases set, or nothing (47_system.md R316). -/
def prepareScalars (c : Cfg) (e : Engine) (s : State) : State :=
  match e with
  | .rev => { s with shimPhase := 0, shimOut := 0 }
  | .dly => { s with dlyPh1 := 0, dlyPh2 := cfgDlyLfoPhi c }
  | .sat => s

/-- `ENG[e].rate <- SRATE` and `MAXBLK_e <- imm` (47_system.md R316). -/
def prepareRate (e : Engine) (maxBlock : Word32) (s : State) : State :=
  match e with
  | .rev => { s with rateRev := srate s, maxblkRev := maxBlock }
  | .dly => { s with rateDly := srate s, maxblkDly := maxBlock }
  | .sat => { s with rateSat := srate s, maxblkSat := maxBlock }

/-- The owned ring buffers at their new sizes, zero-filled (47_system.md R316). -/
def prepareRings (size : Fin 17 → Nat) (us : List (Fin 17)) (s : State) : State :=
  us.foldl (fun s u => setRing s (ownedUnit u) (freshRing (size u))) s

/-- The owned filter states cleared (47_system.md R316). -/
def prepareFilters (fs : List FsUnit) (s : State) : State :=
  fs.foldl (fun s f => setFilter s f { x1 := 0, y1 := 0 }) s

/-- The effects of `PREPARE`, in the order of 47_system.md R316. -/
def prepareEffects (c : Cfg) (e : Engine) (maxBlock : Word32) (s : State) : State :=
  let size := fun u => (preparedSize c (srate s) u).getD 0
  let t := prepareRings size (ownedRings e) s
  let t := prepareFilters (ownedFilters e) t
  let t := prepareScalars c e t
  let t := prepareRate e maxBlock t
  let t := finishWork (latchCache c e (startWork t))
  { t with status := statusPrepared e t.status, resp := 0 }

/-- `PREPARE eng, maxBlockSize` under structural sizes and a configuration: all checks, then the effects
(47_system.md R316, 60_exceptions.md R349, 00_scope.md R6). -/
def prepareWith (z : Config.Sizes) (c : Cfg) (e : Engine) (maxBlock : Word32) (s : State) : Result :=
  let counts := (ownedRings e).map (preparedSize c (srate s))
  if !isPosFinite64 (srate s) then raiseFault .badRate (.prepare e maxBlock) s
  else if counts.any (· == some 0) then raiseFault .capZero (.prepare e maxBlock) s
  else if counts.any (fun n => n.all (· > z.rbCapMax)) then
    raiseFault .capRange (.prepare e maxBlock) s
  else .next (prepareEffects c e maxBlock s)

/-- `PREPARE eng, maxBlockSize` (47_system.md R316). -/
def execPrepare (e : Engine) (maxBlock : Word32) (s : State) : Result :=
  prepareWith Config.sizes Config.cfg e maxBlock s

end Sys2Proof.Machine
end

