-- ==== Sys2Proof/Machine/Shimmer.lean ====
section
/-! DEFINITION. The shimmer pitch shifter (43_shimmer.md R190 to R200). -/

namespace Sys2Proof.Machine

open Config (Cfg)

/-- `SHIM.WIN` under a configuration. -/
def shimWinWith (c : Cfg) (rd rs : Reg) (s : State) : Result := unaryOp (winA c) rd rs s

/-- `SHIM.WIN xd, xs` (43_shimmer.md R190). -/
def execShimWin (rd rs : Reg) (s : State) : Result := shimWinWith Config.cfg rd rs s

/-- `v` less 1.0 once if it is at least 1.0 (43_shimmer.md R193, R196; 44_delay.md R214). -/
def wrapPhase (v : F32) : F32 := if fle one v then fsub v one else v

/-- One sample of the pitch shifter: filter, push, read both heads, window, filter, advance
(43_shimmer.md R192 to R198). -/
def shimStepWork (c : Cfg) (w : Work) (v : F32) : F32 × Work :=
  let (aPre, w) := readPlace w (.revc .aPre)
  let (src, w) := lpWork w 8 v aPre
  let w := pushWork w 12 src
  let (phA, w) := readPlace w .shimPhase
  let phB := wrapPhase (fadd phA half)
  let len := fmul 0x3F400000 (ofInt (ring w.st 12).cap)
  let base := fsub (ofInt (ring w.st 12).wr) (fmul (cfgShimOffset c) len)
  let (a, w) := rdpWork w 12 (fadd base (fmul phA len))
  let (b, w) := rdpWork w 12 (fadd base (fmul phB len))
  let gA := winA c phA
  let gB := fsub one gA
  let mixv := fadd (fmul a gA) (fmul b gB)
  let (aPost, w) := readPlace w (.revc .aPost)
  let (out, w) := lpWork w 9 mixv aPost
  let w := writePlace w .shimOut out
  let w := writePlace w .shimPhase (wrapPhase (fadd phA (fdiv two len)))
  (out, w)

/-- `SHIM.STEP` under a configuration. -/
def shimStepWith (c : Cfg) (rd rs : Reg) (s : State) : Result :=
  onPrepared .rev (.shimStep rd rs) s
    (if engineHasSlots .rev s then
      (let (v, w) := readPlace (startWork s) (.x rs)
       let (out, w) := shimStepWork c w v
       complete (writePlace w (.x rd) out))
     else .fault .noSlot)

/-- `SHIM.STEP xd, xs` (43_shimmer.md R198). -/
def execShimStep (rd rs : Reg) (s : State) : Result := shimStepWith Config.cfg rd rs s

end Sys2Proof.Machine
end

