-- ==== Sys2Proof/Machine/Delay.lean ====
section
/-! DEFINITION. The delay engine (44_delay.md R210 to R224). -/

namespace Sys2Proof.Machine

open Config (Cfg)

/-- `DLY.TIME` under a configuration. -/
def dlyTimeWith (c : Cfg) (rd rs : Reg) (s : State) : Result := unaryOp (timeSec c) rd rs s

/-- `DLY.TIME xd, xs` (44_delay.md R211). -/
def execDlyTime (rd rs : Reg) (s : State) : Result := dlyTimeWith Config.cfg rd rs s

/-- `DLY.RATIO xd, xs`: a NaN gives 1.618 (44_delay.md R212; log 12), so only an infinite operand is
outside the domain. -/
def execDlyRatio (rd rs : Reg) (s : State) : Result :=
  let v := readX s rs
  let w := if isNaN v then startWork s else seeValue (startWork s) v
  complete (writePlace w (.x rd) (ratio v))

/-- A line read of the delay engine, `RDL(u, (d - 1.0) + m)` or `- m` (44_delay.md R221). -/
def dlyLine (w : Work) (u : RbUnit) (d : F32) (move : F32 → F32) : F32 × Work :=
  rdlWork w u (move (fsub d one))

/-- The feedback gain for a feedback control: `min(feedback, 0.88)` (44_delay.md R217). -/
def dlyGain (feedback : F32) : F32 := fmin feedback 0x3F6147AE

/-- The fed-back sample of a channel: `clamp(fbk × t, -0.9, 0.9)` (44_delay.md R218). -/
def dlyFeedback (fbk t : F32) : F32 := fclamp (fmul fbk t) 0xBF666666 0x3F666666

/-- The value pushed into a Delay-1 line: input, own feedback, crossed feedback (44_delay.md R219). -/
def dlyInject (inp pp own crossed : F32) : F32 :=
  fadd (fadd inp (fmul (fsub one pp) own)) (fmul pp crossed)

/-- The linear dry/wet crossfade (44_delay.md R222, 45_saturation.md R259, 46_reverb.md R291). -/
def dryWet (dry wet mix : F32) : F32 := fadd (fmul dry (fsub one mix)) (fmul wet mix)

/-- One stereo sample through the delay engine, in the order of 44_delay.md R222. -/
def dlySampleWork (c : Cfg) (w : Work) (l r : Reg) : Work :=
  let q := w.st.params
  let (inL, w) := readPlace w (.x l)
  let (inR, w) := readPlace w (.x r)
  let fbk := dlyGain q.dlyFeedback
  let depth := fmul (fmul q.dlyMod q.dlyMod) (cfgDlyModMax c)
  let (ph1, w) := readPlace w .dlyPh1
  let (ph2, w) := readPlace w .dlyPh2
  let m1 := fmul depth (numSin c (fmul twoPi ph1))
  let m2 := fmul depth (numSin c (fmul twoPi ph2))
  let (d1, w) := readPlace w (.dlyc .d1)
  let (d2, w) := readPlace w (.dlyc .d2)
  let (o1L, w) := dlyLine w 13 d1 (fun d => fadd d m1)
  let (o1R, w) := dlyLine w 14 d1 (fun d => fsub d m1)
  let (o2L, w) := dlyLine w 15 d2 (fun d => fadd d m2)
  let (o2R, w) := dlyLine w 16 d2 (fun d => fsub d m2)
  let (tL, w) := tiltDlyWork w .left o1L
  let (tR, w) := tiltDlyWork w .right o1R
  let fL := dlyFeedback fbk tL
  let fR := dlyFeedback fbk tR
  let w := pushWork w 13 (dlyInject inL q.dlyPingpong fL fR)
  let w := pushWork w 14 (dlyInject inR q.dlyPingpong fR fL)
  let w := pushWork w 15 (fmul 0x3F333333 o1L)
  let w := pushWork w 16 (fmul 0x3F333333 o1R)
  let w := writePlace w (.x l) (fclamp (dryWet inL (fadd o1L o2L) q.dlyMix) minusOne one)
  let w := writePlace w (.x r) (fclamp (dryWet inR (fadd o1R o2R) q.dlyMix) minusOne one)
  let (inc, w) := readPlace w (.dlyc .lfoInc)
  let w := writePlace w .dlyPh1 (wrapPhase (fadd ph1 inc))
  writePlace w .dlyPh2 (wrapPhase (fadd ph2 inc))

/-- `DLY.SAMPLE` under a configuration. -/
def dlySampleWith (c : Cfg) (l r : Reg) (s : State) : Result :=
  onPrepared .dly (.dlySample l r) s
    (if engineHasSlots .dly s then complete (dlySampleWork c (startWork s) l r)
     else .fault .noSlot)

/-- `DLY.SAMPLE xl, xr` (44_delay.md R222). -/
def execDlySample (l r : Reg) (s : State) : Result := dlySampleWith Config.cfg l r s

end Sys2Proof.Machine
end

