-- ==== Sys2Proof/Machine/Reverb.lean ====
section
/-! DEFINITION. The reverb engine (46_reverb.md R280 to R297). -/

namespace Sys2Proof.Machine

open Config (Cfg)

/-- `REV.DECAY xd, xs` (46_reverb.md R281). -/
def execRevDecay (rd rs : Reg) (s : State) : Result := unaryOp decayOf rd rs s

/-- `REV.DAMP xd, xs` (46_reverb.md R282). -/
def execRevDamp (rd rs : Reg) (s : State) : Result := unaryOp dampCoef rd rs s

/-! ## The stages (46_reverb.md R283 to R291) -/

/-- Variant B is selected (46_reverb.md R283). -/
def variantB (s : State) : Bool := s.variant &&& 1 != 0

/-- The gain of the first two diffusers: 0.70 or 0.75 (46_reverb.md R283). -/
def diffusionGain (s : State) : F32 := if variantB s then 0x3F400000 else 0x3F333333

/-- The output weights (46_reverb.md R283, R288). -/
def tapWeights (c : Cfg) (s : State) : Vector F32 4 :=
  if variantB s then #v[cfgRevWtB c 0, cfgRevWtB c 1, cfgRevWtB c 2, cfgRevWtB c 3]
  else #v[0x3EDD2F1B, 0x3E3851EC, 0xBDDD2F1B, 0xBD9374BC]

/-- The four input diffusers in cascade (46_reverb.md R284). -/
def diffuseWork (w : Work) (m : F32) : F32 × Work :=
  let g := diffusionGain w.st
  let (d0, w) := apWork w 0 m g
  let (d1, w) := apWork w 1 d0 g
  let (d2, w) := apWork w 2 d1 0x3F200000
  apWork w 3 d2 0x3F200000

/-- Whether the shimmer gate is open: `shimmer > 0.001` (43_shimmer.md R191). -/
def gateOpen (s : State) : Bool := flt 0x3A83126F s.params.revShimmer

/-- The shimmer feedback blended into the diffused signal (46_reverb.md R285, 43_shimmer.md R197). -/
def shimBlendWork (c : Cfg) (w : Work) (d3 : F32) : F32 × Work :=
  if gateOpen w.st then
    let (so, w) := readPlace w .shimOut
    let fb := fclamp (fmul (cfgShimFbGain c) so) 0xBF4CCCCD 0x3F4CCCCD
    (softLimit (fadd d3 (fmul w.st.params.revShimmer fb)), w)
  else (d3, w)

/-- One side of the tank: node, allpass, first line, damping, decay, allpass, second line
(46_reverb.md R286). -/
def tankSideWork (c : Cfg) (w : Work) (ap1 line1 ap2 line2 : RbUnit) (damp : FsUnit)
    (di dec tap : F32) : Work :=
  let n := softLimit (fadd di (fmul dec tap))
  let (a1, w) := apWork w ap1 n (cfgGT1 c)
  let (dl1, w) := oldestWork w line1
  let w := pushWork w line1 a1
  let (dampA, w) := readPlace w (.revc .dampA)
  let (lp, w) := lpWork w damp dl1 dampA
  let (a2, w) := apWork w ap2 (fmul lp dec) (cfgGT2 c)
  pushWork w line2 a2

/-- The tank: both cross-feed reads, then the left side, then the right (46_reverb.md R286). -/
def tankWork (c : Cfg) (w : Work) (di : F32) : Work :=
  let dec := decayOf w.st.params.revSize
  let (tapR, w) := oldestWork w 11
  let (tapL, w) := oldestWork w 7
  let w := tankSideWork c w 4 5 6 7 0 di dec tapR
  tankSideWork c w 8 9 10 11 1 di dec tapL

/-- The ring buffer of a tank line (46_reverb.md R287). -/
def lineUnit : Config.TankLine → RbUnit
  | .rb5 => 5
  | .rb7 => 7
  | .rb9 => 9
  | .rb11 => 11

/-- One weighted output tap (46_reverb.md R287). -/
def tapWork (w : Work) (t : Config.Tap) (wt k : F32) : F32 × Work :=
  let (v, w) := rdlWork w (lineUnit t.line) (fmul (tapPos t) k)
  (fmul wt v, w)

/-- The weighted sum of four taps, left to right (46_reverb.md R287). -/
def tapSumWork (w : Work) (taps : Vector Config.Tap 4) (wts : Vector F32 4) (k : F32) : F32 × Work :=
  let (p0, w) := tapWork w taps[0] wts[0] k
  let (p1, w) := tapWork w taps[1] wts[1] k
  let (p2, w) := tapWork w taps[2] wts[2] k
  let (p3, w) := tapWork w taps[3] wts[3] k
  (fadd (fadd (fadd p0 p1) p2) p3, w)

/-- Steps 6 to 8 of one channel: DC blocker, tone, limiter (46_reverb.md R289 to R291). -/
def wetWork (c : Cfg) (w : Work) (ch : Channel) (v : F32) : F32 × Work :=
  let (v, w) := dcbWork w (chUnit ch 2 3) v (cfgDcbR c)
  let (v, w) := tiltRevWork c w ch v
  (softLimit v, w)

/-- The shimmer step at the end of a sample, while the gate is open (46_reverb.md R285). -/
def shimFeedWork (c : Cfg) (w : Work) (wetL wetR : F32) : Work :=
  if gateOpen w.st then (shimStepWork c w (fmul half (fadd wetL wetR))).2 else w

/-- One stereo sample through the reverb engine, in the order of 46_reverb.md R295. -/
def revSampleWork (c : Cfg) (w : Work) (l r : Reg) : Work :=
  let mix := w.st.params.revMix
  let (inL, w) := readPlace w (.x l)
  let (inR, w) := readPlace w (.x r)
  let (d3, w) := diffuseWork w (fadd inL inR)
  let (di, w) := shimBlendWork c w d3
  let w := tankWork c w di
  let k := fdiv (narrow w.st.rateRev) (narrow (cfgRefRate c))
  let wts := tapWeights c w.st
  let (sumL, w) := tapSumWork w c.revTapL wts k
  let (sumR, w) := tapSumWork w c.revTapR wts k
  let (wetL, w) := wetWork c w .left sumL
  let (wetR, w) := wetWork c w .right sumR
  let outL := softLimit (dryWet inL wetL mix)
  let outR := softLimit (dryWet inR wetR mix)
  let w := shimFeedWork c w wetL wetR
  writePlace (writePlace w (.x l) outL) (.x r) outR

/-- `REV.SAMPLE` under a configuration. -/
def revSampleWith (c : Cfg) (l r : Reg) (s : State) : Result :=
  onPrepared .rev (.revSample l r) s
    (if engineHasSlots .rev s then complete (revSampleWork c (startWork s) l r)
     else .fault .noSlot)

/-- `REV.SAMPLE xl, xr` (46_reverb.md R295). -/
def execRevSample (l r : Reg) (s : State) : Result := revSampleWith Config.cfg l r s

end Sys2Proof.Machine
end

