-- ==== Sys2Proof/Machine/Saturation.lean ====
section
/-! DEFINITION. The saturation engine (45_saturation.md R240 to R262). -/

namespace Sys2Proof.Machine

open Config (Cfg)

/-! ## The four shapers (45_saturation.md R240) -/

/-- Tape: `tanh(x × g) ÷ tanh(g)` with the odd-harmonic grit term (45_saturation.md R241). -/
def shapeTape (c : Cfg) (x drive grit : F32) : F32 :=
  let g := fadd one (fmul drive (cfgSatGTape c))
  let s := fdiv (numTanh c (fmul x g)) (numTanh c g)
  fadd s (fmul (fmul grit 0x3F4CCCCD) (fsub (fmul (fmul s s) s) s))

/-- Tube: two exponential halves, the grit polynomial, clamped to [-1, 1] (45_saturation.md R242). -/
def shapeTube (c : Cfg) (x drive grit : F32) : F32 :=
  let g := fadd one (fmul drive (cfgSatGTube c))
  let b :=
    if fle 0 x then fsub one (numExp c (fneg (fmul x g)))
    else fneg (fmul (fsub one (numExp c (fmul (fmul x g) 0x3F333333))) 0x3F8CCCCD)
  let y := fadd b (fmul grit (fadd (fmul (cfgSatTubeC2 c) (fmul b b))
    (fmul (cfgSatTubeC3 c) (fmul (fmul b b) b))))
  fclamp y minusOne one

/-- Clip: the OPEN function (45_saturation.md R243). -/
def shapeClip (c : Cfg) (x drive grit : F32) : F32 := cfgSatClip c x drive grit

/-- One reflection at ±1 (45_saturation.md R244). -/
def foldOnce (y : F32) : F32 :=
  if flt one y then fsub two y
  else if flt y minusOne then fsub 0xC0000000 y
  else y

/-- Fold: the OPEN gain, then four reflections (45_saturation.md R244). -/
def shapeFold (c : Cfg) (x drive grit : F32) : F32 :=
  foldOnce (foldOnce (foldOnce (foldOnce (fmul x (cfgFoldGain c drive grit)))))

/-- `getSat(m)`: tape, tube, clip, fold (45_saturation.md R245). -/
def getSat (c : Cfg) (m : Nat) : F32 → F32 → F32 → F32 :=
  match m with
  | 0 => shapeTape c
  | 1 => shapeTube c
  | 2 => shapeClip c
  | _ => shapeFold c

/-- The crossfade between two adjacent shapers for a `type` control (45_saturation.md R246). -/
def shapeXf (c : Cfg) (type x drive grit : F32) : F32 :=
  let ts := fmul type 0x40400000
  let mode := floorInt ts
  let frac := fsub ts (ofInt mode)
  let a := getSat c (min mode.toNat 3) x drive grit
  let b := getSat c (min (mode.toNat + 1) 3) x drive grit
  flerp a b frac

/-- `SAT.TAPE` under a configuration. -/
def satTapeWith (c : Cfg) (rd rs drive grit : Reg) (s : State) : Result :=
  ternaryOp (shapeTape c) rd rs drive grit s

/-- `SAT.TAPE xd, xs, xdrive, xgrit` (45_saturation.md R241). -/
def execSatTape (rd rs drive grit : Reg) (s : State) : Result :=
  satTapeWith Config.cfg rd rs drive grit s

/-- `SAT.TUBE` under a configuration. -/
def satTubeWith (c : Cfg) (rd rs drive grit : Reg) (s : State) : Result :=
  ternaryOp (shapeTube c) rd rs drive grit s

/-- `SAT.TUBE xd, xs, xdrive, xgrit` (45_saturation.md R242). -/
def execSatTube (rd rs drive grit : Reg) (s : State) : Result :=
  satTubeWith Config.cfg rd rs drive grit s

/-- `SAT.CLIP` under a configuration. -/
def satClipWith (c : Cfg) (rd rs drive grit : Reg) (s : State) : Result :=
  ternaryOp (shapeClip c) rd rs drive grit s

/-- `SAT.CLIP xd, xs, xdrive, xgrit` (45_saturation.md R243). -/
def execSatClip (rd rs drive grit : Reg) (s : State) : Result :=
  satClipWith Config.cfg rd rs drive grit s

/-- `SAT.FOLD` under a configuration. -/
def satFoldWith (c : Cfg) (rd rs drive grit : Reg) (s : State) : Result :=
  ternaryOp (shapeFold c) rd rs drive grit s

/-- `SAT.FOLD xd, xs, xdrive, xgrit` (45_saturation.md R244). -/
def execSatFold (rd rs drive grit : Reg) (s : State) : Result :=
  satFoldWith Config.cfg rd rs drive grit s

/-- `SAT.XF` under a configuration: the type is the parameter register (45_saturation.md R246). -/
def satXfWith (c : Cfg) (rd rs drive grit : Reg) (s : State) : Result :=
  ternaryOp (shapeXf c s.params.satType) rd rs drive grit s

/-- `SAT.XF xd, xs, xdrive, xgrit` (45_saturation.md R246). -/
def execSatXf (rd rs drive grit : Reg) (s : State) : Result :=
  satXfWith Config.cfg rd rs drive grit s

/-- `SAT.OUTG` under a configuration. -/
def satOutgWith (c : Cfg) (rd rs : Reg) (s : State) : Result := unaryOp (outGain c) rd rs s

/-- `SAT.OUTG xd, xs` (45_saturation.md R258). -/
def execSatOutg (rd rs : Reg) (s : State) : Result := satOutgWith Config.cfg rd rs s

/-! ## The stages of the engine (45_saturation.md R250 to R259) -/

/-- The envelope follower of a channel (45_saturation.md R250). -/
def envWork (c : Cfg) (w : Work) (ch : Channel) (v : F32) : F32 × Work :=
  let f := chUnit ch 18 19
  let r := fabs v
  let (env, w) := readPlace w (.fsY f)
  let (aRel, w) := readPlace w (.satc .aRel)
  let a := if flt env r then cfgSatEnvAtt c else aRel
  let env' := fadd env (fmul a (fsub r env))
  (env', writeFilter w f r env')

/-- The drive left after the reduction (45_saturation.md R252). -/
def driveEff (c : Cfg) (drive attack env : F32) : F32 :=
  fmul drive (fsub one (fmul (fmul 0x3F59999A (cfgSatPunch c attack)) (fmin env one)))

/-- The compressor of a channel; skipped when the control is zero (45_saturation.md R256). -/
def compWork (c : Cfg) (w : Work) (ch : Channel) (y3 : F32) : F32 × Work :=
  let cmp := w.st.params.satComp
  if flt 0 cmp then
    let f := chUnit ch 20 21
    let level := fmax (fabs y3) 0x3A83126F
    let target := cfgCompTarget c level cmp
    let (gs, w) := readPlace w (.fsY f)
    let (aCompRel, w) := readPlace w (.satc .aCompRel)
    let a := if flt target gs then cfgSatCompAtt c else aCompRel
    let gs' := fclamp (fadd gs (fmul a (fsub target gs))) 0x3DCCCCCD one
    (fmul y3 gs', writeFilter w f level gs')
  else (y3, w)

/-- One channel of a sample, from the input `v` to the output (45_saturation.md R257, R262). -/
def satChannelWork (c : Cfg) (w : Work) (ch : Channel) (v : F32) : F32 × Work :=
  let q := w.st.params
  let (env, w) := envWork c w ch v
  let s := shapeXf c q.satType v (driveEff c q.satDrive q.satAttack env) q.satGrit
  let (y1, w) := dcbWork w (chUnit ch 12 13) s (cfgDcbR c)
  let (aWarm, w) := readPlace w (.satc .aWarm)
  let (lpw, w) := lpWork w (chUnit ch 14 15) y1 aWarm
  let y2 := fadd y1 (fmul (fmul q.satWarmth 0x3FC00000) lpw)
  let (y3, w) := tiltSatWork c w ch y2
  let (y4, w) := compWork c w ch y3
  let (outGain, w) := readPlace w (.satc .outGain)
  let y5 := fmul y4 outGain
  (fclamp (dryWet v y5 q.satMix) minusOne one, w)

/-- One stereo sample through the saturation engine (45_saturation.md R262). -/
def satSampleWork (c : Cfg) (w : Work) (l r : Reg) : Work :=
  let (vL, w) := readPlace w (.x l)
  let (vR, w) := readPlace w (.x r)
  let (outL, w) := satChannelWork c w .left vL
  let (outR, w) := satChannelWork c w .right vR
  writePlace (writePlace w (.x l) outL) (.x r) outR

/-- `SAT.SAMPLE` under a configuration. -/
def satSampleWith (c : Cfg) (l r : Reg) (s : State) : Result :=
  onPrepared .sat (.satSample l r) s (complete (satSampleWork c (startWork s) l r))

/-- `SAT.SAMPLE xl, xr` (45_saturation.md R262). -/
def execSatSample (l r : Reg) (s : State) : Result := satSampleWith Config.cfg l r s

end Sys2Proof.Machine
end

