-- ==== Sys2Proof/Machine/Dispatch.lean ====
section
/-! DEFINITION. The meaning of every command: one arm per constructor (30_encoding.md R96). -/

namespace Sys2Proof.Machine

def exec (i : Instr) (s : State) : Host.Outcome State Fault Refusal :=
  match i with
  | .nop => Sys2Proof.Machine.execNop s
  | .ldv rd imm => Sys2Proof.Machine.execLdv rd imm s
  | .rdv rs => Sys2Proof.Machine.execRdv rs s
  | .mov rd rs => Sys2Proof.Machine.execMov rd rs s
  | .csrw n imm => Sys2Proof.Machine.execCsrw n imm s
  | .csrr n => Sys2Proof.Machine.execCsrr n s
  | .prepare e m => Sys2Proof.Machine.execPrepare e m s
  | .block e => Sys2Proof.Machine.execBlock e s
  | .rbInit u cap => Sys2Proof.Machine.execRbInit u cap s
  | .rbInit2 u cap => Sys2Proof.Machine.execRbInit2 u cap s
  | .rbPush u rs => Sys2Proof.Machine.execRbPush u rs s
  | .rbRdn rd u k => Sys2Proof.Machine.execRbRdn rd u k s
  | .rbRdi rd u rs => Sys2Proof.Machine.execRbRdi rd u rs s
  | .rbRdl rd u rs => Sys2Proof.Machine.execRbRdl rd u rs s
  | .rbRdc rd u rs => Sys2Proof.Machine.execRbRdc rd u rs s
  | .rbRdp rd u rs => Sys2Proof.Machine.execRbRdp rd u rs s
  | .rbCap u => Sys2Proof.Machine.execRbCap u s
  | .rbCur u => Sys2Proof.Machine.execRbCur u s
  | .apProc rd u rs rg => Sys2Proof.Machine.execApProc rd u rs rg s
  | .fClr f => Sys2Proof.Machine.execFClr f s
  | .fLp rd f rs ra => Sys2Proof.Machine.execFLp rd f rs ra s
  | .fHp rd f rs ra => Sys2Proof.Machine.execFHp rd f rs ra s
  | .fDcb rd f rs rr => Sys2Proof.Machine.execFDcb rd f rs rr s
  | .slim rd rs => Sys2Proof.Machine.execSlim rd rs s
  | .clamp rd rs lo hi => Sys2Proof.Machine.execClamp rd rs lo hi s
  | .fCoef rd rs => Sys2Proof.Machine.execFCoef rd rs s
  | .tiltRev rd ch rs => Sys2Proof.Machine.execTiltRev rd ch rs s
  | .tiltDly rd ch rs => Sys2Proof.Machine.execTiltDly rd ch rs s
  | .tiltSat rd ch rs => Sys2Proof.Machine.execTiltSat rd ch rs s
  | .shimWin rd rs => Sys2Proof.Machine.execShimWin rd rs s
  | .shimStep rd rs => Sys2Proof.Machine.execShimStep rd rs s
  | .dlyTime rd rs => Sys2Proof.Machine.execDlyTime rd rs s
  | .dlyRatio rd rs => Sys2Proof.Machine.execDlyRatio rd rs s
  | .dlySample l r => Sys2Proof.Machine.execDlySample l r s
  | .satTape rd rs drive grit => Sys2Proof.Machine.execSatTape rd rs drive grit s
  | .satTube rd rs drive grit => Sys2Proof.Machine.execSatTube rd rs drive grit s
  | .satClip rd rs drive grit => Sys2Proof.Machine.execSatClip rd rs drive grit s
  | .satFold rd rs drive grit => Sys2Proof.Machine.execSatFold rd rs drive grit s
  | .satXf rd rs drive grit => Sys2Proof.Machine.execSatXf rd rs drive grit s
  | .satOutg rd rs => Sys2Proof.Machine.execSatOutg rd rs s
  | .satSample l r => Sys2Proof.Machine.execSatSample l r s
  | .revDecay rd rs => Sys2Proof.Machine.execRevDecay rd rs s
  | .revDamp rd rs => Sys2Proof.Machine.execRevDamp rd rs s
  | .revSample l r => Sys2Proof.Machine.execRevSample l r s

end Sys2Proof.Machine
end

