-- ==== Sys2Proof/Machine/Step.lean ====
section
/-! DEFINITION. One step: the next thing the host does (30_encoding.md R97; log 1, log 3, log 4). -/

namespace Sys2Proof.Machine

/-- A word presented to the block, in the decoding order of 30_encoding.md R97: a halted block first,
then the decoder, then the command's own rule. -/
def runCommand (w : Command) (s : State) : Host.Outcome State Fault Refusal :=
  if halted s then .next (haltedCommand w s)
  else match decode w with
    | .ok i => exec i s
    | .error _ => .next (raised .illegalCommand w s)

/-- One step. With nothing from the host the block holds its state (60_exceptions.md R354). -/
def step (s : State) : Host.Outcome State Fault Refusal :=
  match nextEvent s with
  | none => .next s
  | some (.reset, t) => .next (hardwareReset t)
  | some (.command w, t) => runCommand w t

/-- `s` with the word made of the low `nbits` bits of `w` as the next thing the host presents. -/
def State.withFetchWord (s : State) (nbits w : Nat) : State :=
  { s with inbox := .command (BitVec.ofNat 64 (w % 2 ^ nbits)) :: s.inbox }

end Sys2Proof.Machine
end

