-- ==== Sys2Proof/Machine/Assembler.lean ====
section
/-! DEFINITION. How a command is written (30_encoding.md R101), the pseudo-instructions with their
expansions (30_encoding.md R102), and the host's `process` as a command sequence (47_system.md R318).
Nothing here is state of the block. -/

namespace Sys2Proof.Machine

/-! ## Names of operands (30_encoding.md R101) -/

/-- `x0`..`x15`. -/
def regName (r : Reg) : String := "x" ++ toString r.val

/-- `rb0`..`rb31`. -/
def rbName (u : RbUnit) : String := "rb" ++ toString u.val

/-- `fs0`..`fs31`. -/
def fsName (f : FsUnit) : String := "fs" ++ toString f.val

/-- `rev`, `dly`, `sat`. -/
def engineName : Engine → String
  | .rev => "rev"
  | .dly => "dly"
  | .sat => "sat"

/-- `l`, `r`. -/
def channelName : Channel → String
  | .left => "l"
  | .right => "r"

/-- The name of a parameter register (10_state.md R27). -/
def paramName : Param → String
  | .revMix => "rev.mix" | .revSize => "rev.size" | .revDamp => "rev.damp"
  | .revTone => "rev.tone" | .revShimmer => "rev.shimmer"
  | .dlyMix => "dly.mix" | .dlyTime => "dly.time" | .dlyFeedback => "dly.feedback"
  | .dlyTone => "dly.tone" | .dlySub => "dly.sub" | .dlyPingpong => "dly.pingpong"
  | .dlyMod => "dly.mod"
  | .satGrit => "sat.grit" | .satTone => "sat.tone" | .satWarmth => "sat.warmth"
  | .satAttack => "sat.attack" | .satOutput => "sat.output" | .satMix => "sat.mix"
  | .satDrive => "sat.drive" | .satType => "sat.type" | .satComp => "sat.comp"

/-- The name of a CSR (10_state.md R23 to R27). -/
def csrName : Csr → String
  | .status => "status"
  | .finfo => "finfo"
  | .srateLo => "srate_lo"
  | .srateHi => "srate_hi"
  | .maxblk e => "maxblk_" ++ engineName e
  | .variant => "variant"
  | .param p => paramName p

/-- One hexadecimal digit. -/
def hexDigit (n : Nat) : Char := "0123456789ABCDEF".toList.getD n '0'

/-- A word as eight hexadecimal digits after `0x`. -/
def hexWord (w : Word32) : String :=
  "0x" ++ String.ofList ((List.range 8).map fun k => hexDigit (w.toNat / 16 ^ (7 - k) % 16))

/-! ## The text of a command (30_encoding.md R101) -/

/-- The mnemonic of a command (30_encoding.md R96). -/
def mnemonicOf : Instr → String
  | .nop => "NOP" | .ldv .. => "LDV" | .rdv .. => "RDV" | .mov .. => "MOV"
  | .csrw .. => "CSRW" | .csrr .. => "CSRR" | .prepare .. => "PREPARE" | .block .. => "BLOCK"
  | .rbInit .. => "RB.INIT" | .rbInit2 .. => "RB.INIT2" | .rbPush .. => "RB.PUSH"
  | .rbRdn .. => "RB.RDN" | .rbRdi .. => "RB.RDI" | .rbRdl .. => "RB.RDL" | .rbRdc .. => "RB.RDC"
  | .rbRdp .. => "RB.RDP" | .rbCap .. => "RB.CAP" | .rbCur .. => "RB.CUR"
  | .apProc .. => "AP.PROC"
  | .fClr .. => "F.CLR" | .fLp .. => "F.LP" | .fHp .. => "F.HP" | .fDcb .. => "F.DCB"
  | .slim .. => "SLIM" | .clamp .. => "CLAMP" | .fCoef .. => "F.COEF"
  | .tiltRev .. => "TILT.REV" | .tiltDly .. => "TILT.DLY" | .tiltSat .. => "TILT.SAT"
  | .shimWin .. => "SHIM.WIN" | .shimStep .. => "SHIM.STEP"
  | .dlyTime .. => "DLY.TIME" | .dlyRatio .. => "DLY.RATIO" | .dlySample .. => "DLY.SAMPLE"
  | .satTape .. => "SAT.TAPE" | .satTube .. => "SAT.TUBE" | .satClip .. => "SAT.CLIP"
  | .satFold .. => "SAT.FOLD" | .satXf .. => "SAT.XF" | .satOutg .. => "SAT.OUTG"
  | .satSample .. => "SAT.SAMPLE"
  | .revDecay .. => "REV.DECAY" | .revDamp .. => "REV.DAMP" | .revSample .. => "REV.SAMPLE"

/-- The operands of a command, in the order `rd`, `sel`, `rs1`, `rs2`, `rs3`, `imm`. -/
def operandNames : Instr → List String
  | .nop => []
  | .ldv d v => [regName d, hexWord v]
  | .rdv a => [regName a]
  | .csrw n v => [csrName n, hexWord v]
  | .csrr n => [csrName n]
  | .prepare e v => [engineName e, toString v.toNat]
  | .block e => [engineName e]
  | .rbInit u v | .rbInit2 u v => [rbName u, toString v.toNat]
  | .rbPush u a => [rbName u, regName a]
  | .rbRdn d u k => [regName d, rbName u, toString k.toNat]
  | .rbRdi d u a | .rbRdl d u a | .rbRdc d u a | .rbRdp d u a => [regName d, rbName u, regName a]
  | .rbCap u | .rbCur u => [rbName u]
  | .apProc d u a b => [regName d, rbName u, regName a, regName b]
  | .fClr f => [fsName f]
  | .fLp d f a b | .fHp d f a b | .fDcb d f a b => [regName d, fsName f, regName a, regName b]
  | .tiltRev d ch a | .tiltDly d ch a | .tiltSat d ch a => [regName d, channelName ch, regName a]
  | .mov d a | .slim d a | .fCoef d a | .shimWin d a | .shimStep d a | .dlyTime d a
  | .dlyRatio d a | .satOutg d a | .revDecay d a | .revDamp d a => [regName d, regName a]
  | .clamp d a b c | .satTape d a b c | .satTube d a b c | .satClip d a b c | .satFold d a b c
  | .satXf d a b c => [regName d, regName a, regName b, regName c]
  | .dlySample l r | .satSample l r | .revSample l r => [regName l, regName r]

/-- A command as text, an F32 immediate written as its bits. -/
def commandText (i : Instr) : String :=
  match operandNames i with
  | [] => mnemonicOf i
  | ops => mnemonicOf i ++ " " ++ String.intercalate ", " ops

/-! ## Decimal immediates -/

/-- The bit pattern nearest the decimal `±n × 10^(-k)`. -/
def decimalBits (fmt : FloatFmt) (neg : Bool) (n k : Nat) : Nat :=
  let up := fmt.frac + 4 * k + 4
  roundPack fmt neg (n * 2 ^ up / 10 ^ k) (-up) (n * 2 ^ up % 10 ^ k != 0)

/-- The binary32 nearest a decimal (30_encoding.md R101). -/
def decimalF32 (neg : Bool) (n k : Nat) : F32 := BitVec.ofNat 32 (decimalBits b32 neg n k)

/-- The binary64 nearest a decimal (30_encoding.md R102). -/
def decimalF64 (neg : Bool) (n k : Nat) : F64 := BitVec.ofNat 64 (decimalBits b64 neg n k)

/-! ## Pseudo-instructions (30_encoding.md R102, 47_system.md R318) -/

/-- `RB.NEWEST xd, rbU`. -/
def asmNewest (d : Reg) (u : RbUnit) : List Instr := [.rbRdn d u 0]

/-- `RB.OLDEST xd, rbU`. -/
def asmOldest (d : Reg) (u : RbUnit) : List Instr := [.rbRdn d u 0xFFFFFFFF]

/-- `LDF xd, <decimal>`. -/
def asmLdf (d : Reg) (neg : Bool) (n k : Nat) : List Instr := [.ldv d (decimalF32 neg n k)]

/-- `SETRATE <decimal>`: the low word, then the high word. -/
def asmSetRate (neg : Bool) (n k : Nat) : List Instr :=
  let r := decimalF64 neg n k
  [.csrw .srateLo (r.extractLsb' 0 32), .csrw .srateHi (r.extractLsb' 32 32)]

/-- The sample command of an engine. -/
def asmSample (e : Engine) (a b : Reg) : Instr :=
  match e with
  | .rev => .revSample a b
  | .dly => .dlySample a b
  | .sat => .satSample a b

/-- The commands of one stereo sample: two loads, the engine's command, two returns (47_system.md
R318). -/
def asmStereo (e : Engine) (a b : Reg) (l r : F32) : List Instr :=
  [.ldv a l, .ldv b r, asmSample e a b, .rdv a, .rdv b]

/-- The source's `process`: the parameters, `BLOCK`, then every sample of the block (47_system.md
R318). -/
def asmProcess (e : Engine) (ps : List (Param × Word32)) (a b : Reg) (samples : List (F32 × F32)) :
    List Instr :=
  ps.map (fun q => .csrw (.param q.1) q.2) ++ [.block e]
    ++ (samples.map fun q => asmStereo e a b q.1 q.2).flatten

end Sys2Proof.Machine
end

