-- ==== Sys2Proof/Safety.lean ====
section
/-! DEFINITION. The terms claims about the block are stated in: what a command leaves alone, which
values it leaves behind, the invariant of the block, and what a safe run is. -/

namespace Sys2Proof.Machine

open Config (Cfg)

/-! ## What a command leaves alone -/

/-- The state that no computed sample is written to: control and status registers, latched rates,
the mode bit of the delay's tone filter, and what the host will do next. -/
structure Control where
  status    : Word32
  finfo     : Word32
  srateLo   : Word32
  srateHi   : Word32
  maxblkRev : Word32
  maxblkDly : Word32
  maxblkSat : Word32
  variant   : Word32
  params    : Params
  rateRev   : F64
  rateDly   : F64
  rateSat   : F64
  hp        : Bool
  inbox     : List HostEvent
deriving DecidableEq, Repr

/-- The control part of a state. -/
def control (s : State) : Control where
  status    := s.status
  finfo     := s.finfo
  srateLo   := s.srateLo
  srateHi   := s.srateHi
  maxblkRev := s.maxblkRev
  maxblkDly := s.maxblkDly
  maxblkSat := s.maxblkSat
  variant   := s.variant
  params    := s.params
  rateRev   := s.rateRev
  rateDly   := s.rateDly
  rateSat   := s.rateSat
  hp        := s.dlyc.hp
  inbox     := s.inbox

/-- From `s` to `t` nothing changed but the places of `ps`, the write cursors of `us`, the response
and the number of free values used: every value register, every slot of every ring buffer, every
filter state, engine scalar and cache field outside `ps` reads as before. -/
structure Frame (ps : List Place) (us : List RbUnit) (s t : State) : Prop where
  control : control t = control s
  place   : ∀ p, p ∉ ps → getPlace t p = getPlace s p
  cap     : ∀ u, (ring t u).cap = (ring s u).cap
  wr      : ∀ u, u ∉ us → (ring t u).wr = (ring s u).wr

/-! ## The values a command leaves behind (20_memory.md R76) -/

/-- One written value: the value itself, or the next free value if the command used a non-finite value
(`ok` false) or the value is a NaN. -/
def landOne (ok : Bool) (s : State) (q : Place × F32) : State :=
  if ok && !isNaN q.2 then putPlace s q.1 q.2
  else { putPlace s q.1 (Config.freeF32 s.free) with free := s.free + 1 }

/-- The written values of a command, in order. -/
def land (ok : Bool) (ws : List (Place × F32)) (s : State) : State := ws.foldl (landOne ok) s

/-- The outcome of a command that writes `ws` and responds 0. -/
def landed (ok : Bool) (ws : List (Place × F32)) (s : State) : Result :=
  .next (respond (land ok ws s) 0)

/-! ## Reads of a ring buffer as functions of the unit (40_ring_buffer.md R126 to R129) -/

/-- The slots an integer read touches. -/
def rdiSlots (b : RingUnit) (d : F32) : List Nat := [slotOf b (delay0 b d).1]

/-- The slots a linear read touches. -/
def rdlSlots (b : RingUnit) (d : F32) : List Nat :=
  [slotOf b (delay1 b d).1, slotOf b ((delay1 b d).1 + 1)]

/-- The slots a cubic read touches. -/
def rdcSlots (b : RingUnit) (d : F32) : List Nat :=
  [slotOf b ((delay3 b d).1 - 1), slotOf b (delay3 b d).1, slotOf b ((delay3 b d).1 + 1),
    slotOf b ((delay3 b d).1 + 2)]

/-- The slots a read at a position touches. -/
def rdpSlots (b : RingUnit) (p : F32) : List Nat :=
  [slotAt b (wrappedPosition b p).1, slotAt b ((wrappedPosition b p).1 + 1)]

/-- The integer read. -/
def rdiValue (b : RingUnit) (d : F32) : F32 := memRead b (slotOf b (delay0 b d).1)

/-- The linear read. -/
def rdlValue (b : RingUnit) (d : F32) : F32 :=
  flerp (memRead b (slotOf b (delay1 b d).1)) (memRead b (slotOf b ((delay1 b d).1 + 1))) (delay1 b d).2

/-- The cubic read. -/
def rdcValue (b : RingUnit) (d : F32) : F32 :=
  catmullRom (memRead b (slotOf b ((delay3 b d).1 - 1))) (memRead b (slotOf b (delay3 b d).1))
    (memRead b (slotOf b ((delay3 b d).1 + 1))) (memRead b (slotOf b ((delay3 b d).1 + 2))) (delay3 b d).2

/-- The read at a position; open where the wrap overflows (log 19). -/
def rdpValue (b : RingUnit) (p : F32) : F32 :=
  wrappedValue (wrappedPosition b p).2
    (flerp (memRead b (slotAt b (wrappedPosition b p).1))
      (memRead b (slotAt b ((wrappedPosition b p).1 + 1))) (wrappedPosition b p).2)

/-- Every slot a read touches holds a finite value. -/
def slotsOk (b : RingUnit) (slots : List Nat) : Bool := slots.all fun i => isFinite (memRead b i)

/-- The delay and every slot a read touches hold finite values. -/
def readOk (b : RingUnit) (d : F32) (slots : List Nat) : Bool := isFinite d && slotsOk b slots

/-- The oldest sample, in the slot the next push overwrites (40_ring_buffer.md R120). -/
def oldest (b : RingUnit) : F32 := memRead b b.wr

/-! ## Stages as functions of the units they use -/

/-- The value an allpass writes into its unit (41_allpass.md R150). -/
def apStored (b : RingUnit) (v g : F32) : F32 := fadd v (fmul g (oldest b))

/-- The value an allpass puts out (41_allpass.md R150). -/
def apOut (b : RingUnit) (v g : F32) : F32 := fsub (oldest b) (fmul g (apStored b v g))

/-- The output of a one-pole low-pass (42_filters.md R162). -/
def lpOut (q : FilterUnit) (x a : F32) : F32 := fadd q.y1 (fmul a (fsub x q.y1))

/-- The output of the DC blocker (42_filters.md R165). -/
def dcbOut (q : FilterUnit) (x r : F32) : F32 := fadd (fsub x q.x1) (fmul r q.y1)

/-- The reverb's tone stage, given the two low-passed copies (42_filters.md R171). -/
def tiltRevOut (c : Cfg) (tone wet lo hi : F32) : F32 :=
  if flt tone half then fadd wet (fmul (fmul (fsub half tone) two) (fsub lo wet))
  else if flt half tone then
    fadd wet (fmul (fmul (fmul (fsub tone half) two) (cfgRevTiltK c)) (fsub wet hi))
  else wet

/-- The delay's tone stage, given the low-passed copy (42_filters.md R172). -/
def tiltDlyOut (hp : Bool) (tone v lp : F32) : F32 :=
  if hp then fsub v lp
  else fadd v (fmul (fmax (fsub one (fmul two tone)) 0) (fsub lp v))

/-- The saturation's tone stage, given the low-passed copy (42_filters.md R175). -/
def tiltSatOut (c : Cfg) (tone v lp : F32) : F32 :=
  if flt tone half then fadd v (fmul (fmul (fsub half tone) two) (fsub lp v))
  else if flt half tone then
    fadd v (fmul (fmul (fmul (fsub tone half) two) (cfgSatTiltK c)) (fsub v lp))
  else v

/-! ## One sample of each engine as a function of the state before it

These state what the engine commands do when every value they use is finite and no NaN arises: each
value is computed from the state before the command, whatever the order of the command's reads and
writes. -/

/-- A unit after one allpass step (41_allpass.md R150). -/
def apRing (b : RingUnit) (v g : F32) : RingUnit := pushRing b (apStored b v g)

/-- The filter unit's last output, which every step of a low-pass reads, is finite. -/
def lpOk (q : FilterUnit) : Bool := isFinite q.y1

/-- Both fields of a DC blocker's unit are finite. -/
def dcbOk (q : FilterUnit) : Bool := isFinite q.x1 && isFinite q.y1

/-- A filter unit after a step with input `x` and output `y`. -/
def stepped (x y : F32) : FilterUnit := { x1 := x, y1 := y }

/-- The position of a shimmer head at phase `ph`, the shimmer unit being `b` (43_shimmer.md R193). -/
def shimPosition (c : Cfg) (b : RingUnit) (ph : F32) : F32 :=
  let len := fmul 0x3F400000 (ofInt b.cap)
  fadd (fsub (ofInt b.wr) (fmul (cfgShimOffset c) len)) (fmul ph len)

/-- The two windowed heads of the shimmer added (43_shimmer.md R193 to R195). -/
def shimHeads (c : Cfg) (b : RingUnit) (ph : F32) : F32 :=
  let g := winA c ph
  fadd (fmul (rdpValue b (shimPosition c b ph)) g)
    (fmul (rdpValue b (shimPosition c b (wrapPhase (fadd ph half)))) (fsub one g))

/-- Every state field and slot one shimmer step reads is finite (43_shimmer.md R192 to R195, 20_memory.md
R76); the slots are those of the unit after the step's own push. -/
def shimOk (c : Cfg) (v : F32) (s : State) : Bool :=
  let b := pushRing (ring s 12) (lpOut (filter s 8) v s.revc.aPre)
  let read := fun ph => slotsOk b (rdpSlots b (shimPosition c b ph))
  isFinite s.revc.aPre && lpOk (filter s 8) && isFinite s.shimPhase && read s.shimPhase
    && read (wrapPhase (fadd s.shimPhase half)) && isFinite s.revc.aPost && lpOk (filter s 9)

/-- The phase increment of the shimmer for its unit `b` (43_shimmer.md R196). -/
def shimIncrement (b : RingUnit) : F32 := fdiv two (fmul 0x3F400000 (ofInt b.cap))

/-- The output of one shimmer step with input `v` (43_shimmer.md R198). -/
def shimOutput (c : Cfg) (v : F32) (s : State) : F32 :=
  let src := lpOut (filter s 8) v s.revc.aPre
  lpOut (filter s 9) (shimHeads c (pushRing (ring s 12) src) s.shimPhase) s.revc.aPost

/-- The state after one shimmer step with input `v` (43_shimmer.md R198). -/
def shimState (c : Cfg) (v : F32) (s : State) : State :=
  let src := lpOut (filter s 8) v s.revc.aPre
  let b := pushRing (ring s 12) src
  let mixed := shimHeads c b s.shimPhase
  let out := shimOutput c v s
  let t := setFilter s 8 (stepped v src)
  let t := setRing t 12 b
  let t := setFilter t 9 (stepped mixed out)
  { t with
    shimOut := out
    shimPhase := wrapPhase (fadd s.shimPhase (shimIncrement b)) }

/-- The swing of a delay oscillator at phase `ph` (44_delay.md R214, R215). -/
def dlySwing (c : Cfg) (s : State) (ph : F32) : F32 :=
  fmul (fmul (fmul s.params.dlyMod s.params.dlyMod) (cfgDlyModMax c)) (numSin c (fmul twoPi ph))

/-- The tone-filtered copy of a Delay-1 output (44_delay.md R216). -/
def dlyToned (s : State) (f : FsUnit) (v : F32) : F32 :=
  tiltDlyOut s.dlyc.hp s.params.dlyTone v (lpOut (filter s f) v s.dlyc.aTone)

/-- The delays of the four line reads, lines 13 to 16 (44_delay.md R221). -/
def dlyDelay (c : Cfg) (s : State) : Fin 4 → F32
  | 0 => fadd (fsub s.dlyc.d1 one) (dlySwing c s s.dlyPh1)
  | 1 => fsub (fsub s.dlyc.d1 one) (dlySwing c s s.dlyPh1)
  | 2 => fadd (fsub s.dlyc.d2 one) (dlySwing c s s.dlyPh2)
  | 3 => fsub (fsub s.dlyc.d2 one) (dlySwing c s s.dlyPh2)

/-- Every operand, state field and slot one delay sample reads is finite (44_delay.md R222, 20_memory.md
R76). -/
def dlyOk (c : Cfg) (l r : Reg) (s : State) : Bool :=
  let read := fun (b : RingUnit) d => slotsOk b (rdlSlots b d)
  isFinite (readX s l) && isFinite (readX s r) && isFinite s.dlyPh1 && isFinite s.dlyPh2
    && isFinite s.dlyc.d1 && isFinite s.dlyc.d2
    && read (ring s 13) (dlyDelay c s 0) && read (ring s 14) (dlyDelay c s 1)
    && read (ring s 15) (dlyDelay c s 2) && read (ring s 16) (dlyDelay c s 3)
    && isFinite s.dlyc.aTone && lpOk (filter s 10) && lpOk (filter s 11) && isFinite s.dlyc.lfoInc

/-- The state after one delay sample (44_delay.md R222). -/
def dlyState (c : Cfg) (l r : Reg) (s : State) : State :=
  let q := s.params
  let o1L := rdlValue (ring s 13) (dlyDelay c s 0)
  let o1R := rdlValue (ring s 14) (dlyDelay c s 1)
  let o2L := rdlValue (ring s 15) (dlyDelay c s 2)
  let o2R := rdlValue (ring s 16) (dlyDelay c s 3)
  let fbk := dlyGain q.dlyFeedback
  let fL := dlyFeedback fbk (dlyToned s 10 o1L)
  let fR := dlyFeedback fbk (dlyToned s 11 o1R)
  let t := setFilter s 10 (stepped o1L (lpOut (filter s 10) o1L s.dlyc.aTone))
  let t := setFilter t 11 (stepped o1R (lpOut (filter s 11) o1R s.dlyc.aTone))
  let t := setRing t 13 (pushRing (ring s 13) (dlyInject (readX s l) q.dlyPingpong fL fR))
  let t := setRing t 14 (pushRing (ring s 14) (dlyInject (readX s r) q.dlyPingpong fR fL))
  let t := setRing t 15 (pushRing (ring s 15) (fmul 0x3F333333 o1L))
  let t := setRing t 16 (pushRing (ring s 16) (fmul 0x3F333333 o1R))
  let t := writeX t l (fclamp (dryWet (readX s l) (fadd o1L o2L) q.dlyMix) minusOne one)
  let t := writeX t r (fclamp (dryWet (readX s r) (fadd o1R o2R) q.dlyMix) minusOne one)
  { t with
    dlyPh1 := wrapPhase (fadd s.dlyPh1 s.dlyc.lfoInc)
    dlyPh2 := wrapPhase (fadd s.dlyPh2 s.dlyc.lfoInc) }

/-- The envelope of a saturation channel after input `v` (45_saturation.md R250). -/
def satEnvelope (c : Cfg) (q : FilterUnit) (aRel v : F32) : F32 :=
  fadd q.y1 (fmul (if flt q.y1 (fabs v) then cfgSatEnvAtt c else aRel) (fsub (fabs v) q.y1))

/-- The level the compressor sees (45_saturation.md R256). -/
def compLevel (y3 : F32) : F32 := fmax (fabs y3) 0x3A83126F

/-- The compressor gain after the sample `y3` (45_saturation.md R256). -/
def compGain (c : Cfg) (q : FilterUnit) (aCompRel comp y3 : F32) : F32 :=
  let target := cfgCompTarget c (compLevel y3) comp
  let a := if flt target q.y1 then cfgSatCompAtt c else aCompRel
  fclamp (fadd q.y1 (fmul a (fsub target q.y1))) 0x3DCCCCCD one

/-- The output of a saturation channel for input `v`, and the state after it (45_saturation.md R257,
R262). -/
def satChannel (c : Cfg) (ch : Channel) (v : F32) (s : State) : F32 × State :=
  let q := s.params
  let unit := fun a b => filter s (chUnit ch a b)
  let env := satEnvelope c (unit 18 19) s.satc.aRel v
  let shaped := shapeXf c q.satType v (driveEff c q.satDrive q.satAttack env) q.satGrit
  let y1 := dcbOut (unit 12 13) shaped (cfgDcbR c)
  let lpw := lpOut (unit 14 15) y1 s.satc.aWarm
  let y2 := fadd y1 (fmul (fmul q.satWarmth 0x3FC00000) lpw)
  let lpt := lpOut (unit 16 17) y2 s.satc.aTone
  let y3 := tiltSatOut c q.satTone y2 lpt
  let gain := compGain c (unit 20 21) s.satc.aCompRel q.satComp y3
  let y4 := if flt 0 q.satComp then fmul y3 gain else y3
  let t := setFilter s (chUnit ch 18 19) (stepped (fabs v) env)
  let t := setFilter t (chUnit ch 12 13) (stepped shaped y1)
  let t := setFilter t (chUnit ch 14 15) (stepped y1 lpw)
  let t := setFilter t (chUnit ch 16 17) (stepped y2 lpt)
  let t := if flt 0 q.satComp then setFilter t (chUnit ch 20 21) (stepped (compLevel y3) gain) else t
  (fclamp (dryWet v (fmul y4 s.satc.outGain) q.satMix) minusOne one, t)

/-- Every state field one channel of a saturation sample reads is finite; the compressor's are read only
while its control is above zero (45_saturation.md R256). -/
def satChannelOk (ch : Channel) (s : State) : Bool :=
  let unit := fun a b => filter s (chUnit ch a b)
  lpOk (unit 18 19) && isFinite s.satc.aRel && dcbOk (unit 12 13) && isFinite s.satc.aWarm
    && lpOk (unit 14 15) && isFinite s.satc.aTone && lpOk (unit 16 17)
    && (!flt 0 s.params.satComp || (lpOk (unit 20 21) && isFinite s.satc.aCompRel))
    && isFinite s.satc.outGain

/-- Every operand and state field one saturation sample reads is finite (45_saturation.md R262,
20_memory.md R76). -/
def satOk (l r : Reg) (s : State) : Bool :=
  isFinite (readX s l) && isFinite (readX s r) && satChannelOk .left s && satChannelOk .right s

/-- The state after one saturation sample: the left channel, then the right (45_saturation.md R262). -/
def satState (c : Cfg) (l r : Reg) (s : State) : State :=
  let left := satChannel c .left (readX s l) s
  let right := satChannel c .right (readX s r) left.2
  writeX (writeX right.2 l left.1) r right.1

/-- The diffused and shimmer-blended input of the tank (46_reverb.md R284, R285). -/
def revInjected (c : Cfg) (s : State) (d3 : F32) : F32 :=
  if gateOpen s then
    softLimit (fadd d3 (fmul s.params.revShimmer
      (fclamp (fmul (cfgShimFbGain c) s.shimOut) 0xBF4CCCCD 0x3F4CCCCD)))
  else d3

/-- The units of the four tank lines. -/
def tankLines (b5 b7 b9 b11 : RingUnit) : Config.TankLine → RingUnit
  | .rb5 => b5
  | .rb7 => b7
  | .rb9 => b9
  | .rb11 => b11

/-- The signals of one reverb sample, up to the limited wet signals, named as in 46_reverb.md R284 to
R291. -/
structure RevSignals where
  m    : F32
  d0   : F32
  d1   : F32
  d2   : F32
  nL   : F32
  dl1L : F32
  lpL  : F32
  nR   : F32
  dl1R : F32
  lpR  : F32
  /-- the tank lines after their pushes -/
  line : Config.TankLine → RingUnit
  sumL : F32
  sumR : F32
  vL   : F32
  vR   : F32
  wetL : F32
  wetR : F32

/-- The delay of an output tap: its position at the reference rate, scaled to the engine's (46_reverb.md
R287). -/
def tapDelay (c : Cfg) (s : State) (t : Config.Tap) : F32 :=
  fmul (tapPos t) (fdiv (narrow s.rateRev) (narrow (cfgRefRate c)))

/-- The four output taps of a channel, weighted and added left to right (46_reverb.md R287). -/
def revTaps (c : Cfg) (s : State) (line : Config.TankLine → RingUnit) (taps : Vector Config.Tap 4) :
    F32 :=
  let p := fun (j : Fin 4) =>
    fmul (tapWeights c s)[j] (rdlValue (line taps[j].line) (tapDelay c s taps[j]))
  fadd (fadd (fadd (p 0) (p 1)) (p 2)) (p 3)

/-- The signals of one reverb sample, each computed from the state before it (46_reverb.md R284 to
R291). -/
def revSignals (c : Cfg) (l r : Reg) (s : State) : RevSignals :=
  let q := s.params
  let g := diffusionGain s
  -- steps 1 and 2
  let m := fadd (readX s l) (readX s r)
  let d0 := apOut (ring s 0) m g
  let d1 := apOut (ring s 1) d0 g
  let d2 := apOut (ring s 2) d1 0x3F200000
  -- step 3
  let di := revInjected c s (apOut (ring s 3) d2 0x3F200000)
  -- step 4
  let dec := decayOf q.revSize
  let nL := softLimit (fadd di (fmul dec (oldest (ring s 11))))
  let dl1L := oldest (ring s 5)
  let lpL := lpOut (filter s 0) dl1L s.revc.dampA
  let nR := softLimit (fadd di (fmul dec (oldest (ring s 7))))
  let dl1R := oldest (ring s 9)
  let lpR := lpOut (filter s 1) dl1R s.revc.dampA
  let line := tankLines (pushRing (ring s 5) (apOut (ring s 4) nL (cfgGT1 c)))
    (pushRing (ring s 7) (apOut (ring s 6) (fmul lpL dec) (cfgGT2 c)))
    (pushRing (ring s 9) (apOut (ring s 8) nR (cfgGT1 c)))
    (pushRing (ring s 11) (apOut (ring s 10) (fmul lpR dec) (cfgGT2 c)))
  -- step 5
  let sumL := revTaps c s line c.revTapL
  let sumR := revTaps c s line c.revTapR
  -- steps 6 to 8
  let vL := dcbOut (filter s 2) sumL (cfgDcbR c)
  let vR := dcbOut (filter s 3) sumR (cfgDcbR c)
  { m, d0, d1, d2, nL, dl1L, lpL, nR, dl1R, lpR, line, sumL, sumR, vL, vR,
    wetL := softLimit (tiltRevOut c q.revTone vL (lpOut (filter s 4) vL s.revc.aLo)
      (lpOut (filter s 6) vL s.revc.aHi))
    wetR := softLimit (tiltRevOut c q.revTone vR (lpOut (filter s 5) vR s.revc.aLo)
      (lpOut (filter s 7) vR s.revc.aHi)) }

/-- The state after one reverb sample (46_reverb.md R295). -/
def revState (c : Cfg) (l r : Reg) (s : State) : State :=
  let g := diffusionGain s
  let dec := decayOf s.params.revSize
  let z := revSignals c l r s
  let t := setRing s 0 (apRing (ring s 0) z.m g)
  let t := setRing t 1 (apRing (ring s 1) z.d0 g)
  let t := setRing t 2 (apRing (ring s 2) z.d1 0x3F200000)
  let t := setRing t 3 (apRing (ring s 3) z.d2 0x3F200000)
  let t := setRing t 4 (apRing (ring s 4) z.nL (cfgGT1 c))
  let t := setRing t 5 (z.line .rb5)
  let t := setFilter t 0 (stepped z.dl1L z.lpL)
  let t := setRing t 6 (apRing (ring s 6) (fmul z.lpL dec) (cfgGT2 c))
  let t := setRing t 7 (z.line .rb7)
  let t := setRing t 8 (apRing (ring s 8) z.nR (cfgGT1 c))
  let t := setRing t 9 (z.line .rb9)
  let t := setFilter t 1 (stepped z.dl1R z.lpR)
  let t := setRing t 10 (apRing (ring s 10) (fmul z.lpR dec) (cfgGT2 c))
  let t := setRing t 11 (z.line .rb11)
  let t := setFilter t 2 (stepped z.sumL z.vL)
  let t := setFilter t 4 (stepped z.vL (lpOut (filter s 4) z.vL s.revc.aLo))
  let t := setFilter t 6 (stepped z.vL (lpOut (filter s 6) z.vL s.revc.aHi))
  let t := setFilter t 3 (stepped z.sumR z.vR)
  let t := setFilter t 5 (stepped z.vR (lpOut (filter s 5) z.vR s.revc.aLo))
  let t := setFilter t 7 (stepped z.vR (lpOut (filter s 7) z.vR s.revc.aHi))
  let t := if gateOpen s then shimState c (fmul half (fadd z.wetL z.wetR)) t else t
  -- step 9
  let t := writeX t l (softLimit (dryWet (readX s l) z.wetL s.params.revMix))
  writeX t r (softLimit (dryWet (readX s r) z.wetR s.params.revMix))

/-- Every slot the four output taps of a channel read is finite (46_reverb.md R287). -/
def tapsOk (c : Cfg) (s : State) (line : Config.TankLine → RingUnit) (taps : Vector Config.Tap 4) :
    Bool :=
  ([0, 1, 2, 3] : List (Fin 4)).all fun j =>
    slotsOk (line taps[j].line) (rdlSlots (line taps[j].line) (tapDelay c s taps[j]))

/-- Every slot and field one side of the tank reads is finite (46_reverb.md R286). -/
def tankSideOk (s : State) (ap1 line1 ap2 : RbUnit) (damp : FsUnit) : Bool :=
  isFinite (oldest (ring s ap1)) && isFinite (oldest (ring s line1)) && isFinite s.revc.dampA
    && lpOk (filter s damp) && isFinite (oldest (ring s ap2))

/-- Every field one channel of steps 6 to 8 reads is finite (46_reverb.md R289 to R291). -/
def wetOk (s : State) (ch : Channel) : Bool :=
  dcbOk (filter s (chUnit ch 2 3)) && isFinite s.revc.aLo && lpOk (filter s (chUnit ch 4 5))
    && isFinite s.revc.aHi && lpOk (filter s (chUnit ch 6 7))

/-- Every operand, state field and slot one reverb sample reads is finite, step by step; the shimmer's are
read only while the gate is open (46_reverb.md R295, 20_memory.md R76). -/
def revOk (c : Cfg) (l r : Reg) (s : State) : Bool :=
  let z := revSignals c l r s
  isFinite (readX s l) && isFinite (readX s r)
    && ([0, 1, 2, 3] : List RbUnit).all (fun u => isFinite (oldest (ring s u)))
    && (!gateOpen s || isFinite s.shimOut)
    && isFinite (oldest (ring s 11)) && isFinite (oldest (ring s 7))
    && tankSideOk s 4 5 6 0 && tankSideOk s 8 9 10 1
    && tapsOk c s z.line c.revTapL && tapsOk c s z.line c.revTapR
    && wetOk s .left && wetOk s .right
    && (!gateOpen s || shimOk c (fmul half (fadd z.wetL z.wetR)) s)

/-! ## The places the engine commands write -/

/-- The places one shimmer step writes (43_shimmer.md R198). -/
def shimPlaces (s : State) : List Place :=
  [.fsX 8, .fsY 8, .slot 12 (ring s 12).wr, .fsX 9, .fsY 9, .shimOut, .shimPhase]

/-- The places one delay sample writes (44_delay.md R222). -/
def dlyPlaces (l r : Reg) (s : State) : List Place :=
  [.fsX 10, .fsY 10, .fsX 11, .fsY 11,
    .slot 13 (ring s 13).wr, .slot 14 (ring s 14).wr, .slot 15 (ring s 15).wr, .slot 16 (ring s 16).wr,
    .x l, .x r, .dlyPh1, .dlyPh2]

/-- The compressor's state is written only while its control is above zero (45_saturation.md R256). -/
def compPlaces (f : FsUnit) (s : State) : List Place :=
  if flt 0 s.params.satComp then [.fsX f, .fsY f] else []

/-- The places one saturation sample writes (45_saturation.md R262). -/
def satPlaces (l r : Reg) (s : State) : List Place :=
  [.fsX 18, .fsY 18, .fsX 12, .fsY 12, .fsX 14, .fsY 14, .fsX 16, .fsY 16] ++ compPlaces 20 s ++
  [.fsX 19, .fsY 19, .fsX 13, .fsY 13, .fsX 15, .fsY 15, .fsX 17, .fsY 17] ++ compPlaces 21 s ++
  [.x l, .x r]

/-- The units one reverb sample pushes into: the shimmer buffer only while the gate is open
(46_reverb.md R285, R295). -/
def revUnits (s : State) : List RbUnit :=
  [0, 1, 2, 3, 4, 5, 6, 7, 8, 9, 10, 11] ++ (if gateOpen s then [12] else [])

/-- The places one reverb sample writes (46_reverb.md R295). -/
def revPlaces (l r : Reg) (s : State) : List Place :=
  [.slot 0 (ring s 0).wr, .slot 1 (ring s 1).wr, .slot 2 (ring s 2).wr, .slot 3 (ring s 3).wr,
    .slot 4 (ring s 4).wr, .slot 5 (ring s 5).wr, .fsX 0, .fsY 0, .slot 6 (ring s 6).wr,
    .slot 7 (ring s 7).wr,
    .slot 8 (ring s 8).wr, .slot 9 (ring s 9).wr, .fsX 1, .fsY 1, .slot 10 (ring s 10).wr,
    .slot 11 (ring s 11).wr,
    .fsX 2, .fsY 2, .fsX 4, .fsY 4, .fsX 6, .fsY 6, .fsX 3, .fsY 3, .fsX 5, .fsY 5, .fsX 7, .fsY 7] ++
  (if gateOpen s then shimPlaces s else []) ++ [.x l, .x r]

/-- The places `ps` with what each holds in the state `t`. -/
def valuesAt (ps : List Place) (t : State) : List (Place × F32) := ps.map fun p => (p, getPlace t p)

/-- The write cursors of `us` advanced by one push, and nothing else. -/
def advanced (us : List RbUnit) (s : State) : State :=
  us.foldl (fun t u => setRing t u { ring t u with wr := nextWr (ring t u) }) s

/-- The F32 fields of an engine's block cache (10_state.md R33). -/
def cachePlaces : Engine → List Place
  | .rev => [.revc .dampA, .revc .aLo, .revc .aHi, .revc .aPre, .revc .aPost]
  | .dly => [.dlyc .d1, .dlyc .d2, .dlyc .aTone, .dlyc .lfoInc]
  | .sat => [.satc .aRel, .satc .aWarm, .satc .aTone, .satc .aCompRel, .satc .outGain]

/-- What latching an engine's cache writes, from the parameter registers and the rate (47_system.md
R317). -/
def cacheValues (c : Cfg) (e : Engine) (q : Params) (rate : F64) : List (Place × F32) :=
  match e with
  | .rev =>
    [(.revc .dampA, fsub one (dampCoef q.revDamp)), (.revc .aLo, coef c 0x43C80000 rate),
      (.revc .aHi, coef c 0x45480000 rate), (.revc .aPre, coef c 0x45BB8000 rate),
      (.revc .aPost, coef c 0x45FA0000 rate)]
  | .dly =>
    let d1 := fmul (timeSec c q.dlyTime) (narrow rate)
    [(.dlyc .d1, d1), (.dlyc .d2, fmul d1 (ratio q.dlySub)),
      (.dlyc .aTone, coef c (dlyToneCutoff q.dlyTone) rate),
      (.dlyc .lfoInc, fdiv (cfgDlyLfoHz c) (narrow rate))]
  | .sat =>
    [(.satc .aRel, cfgSatRelease c q.satAttack rate), (.satc .aWarm, coef c 0x43960000 rate),
      (.satc .aTone, coef c (fadd 0x43FA0000 (fmul 0x465AC000 q.satTone)) rate),
      (.satc .aCompRel, cfgCompRelease c q.satComp rate), (.satc .outGain, outGain c q.satOutput)]

/-! ## The phases (10_state.md R32, R35) -/

/-- A number in [0, 1). -/
def inPhase (v : F32) : Bool := fle 0 v && flt v one

/-- `SHIM.phase`, `DLY.ph1` and `DLY.ph2` are in [0, 1). -/
def phasesLegal (s : State) : Bool := inPhase s.shimPhase && inPhase s.dlyPh1 && inPhase s.dlyPh2

/-- The command advances `SHIM.phase`: a shimmer step, or a reverb sample with the gate open (43_shimmer.md
R191, R196). -/
def advancesShimmer (i : Instr) (s : State) : Bool :=
  match i with
  | .shimStep _ _ => true
  | .revSample _ _ => gateOpen s
  | _ => false

/-- The command advances `DLY.ph1` and `DLY.ph2` (44_delay.md R214). -/
def advancesDelay (i : Instr) : Bool :=
  match i with
  | .dlySample _ _ => true
  | _ => false

/-- Every value a command that advances a phase reads is finite (20_memory.md R76). -/
def phaseInputsOk (c : Cfg) (i : Instr) (s : State) : Bool :=
  match i with
  | .shimStep _ r => isFinite (readX s r) && shimOk c (readX s r) s
  | .dlySample l r => dlyOk c l r s
  | .revSample l r => revOk c l r s
  | _ => true

/-! ## The invariant of the block -/

/-- The bits of `STATUS` that can be set (10_state.md R23). -/
def statusMask : Word32 := 0x0000FF87

/-- `STATUS` as 10_state.md R23 lays it out: reserved bits zero, a fault code up to 7, and `HALT` set
exactly when there is a fault code. -/
def statusLegal (s : State) : Bool :=
  s.status &&& ~~~statusMask == 0 && decide ((faultCode s).toNat ≤ 7)
    && halted s == (faultCode s != 0)

/-- Every parameter register holds a number in [0, 1] (10_state.md R26). -/
def paramsLegal (q : Params) : Prop := ∀ p, inUnit (q.get p) = true

/-- What every reachable state of the block meets (10_state.md R35). -/
structure Inv (s : State) : Prop where
  memory  : Memory.wf s = true
  params  : paramsLegal s.params
  variant : s.variant &&& ~~~1 = 0
  status  : statusLegal s = true
  finfo   : halted s = false → s.finfo = 0
  rate    : ∀ e, prepared e s = true → isPosFinite64 (rateOf e s) = true
  slots   : ∀ e, prepared e s = true → engineHasSlots e s = true

/-! ## Safe runs -/

/-- The step has a next state. -/
def SafeStep (s : State) : Prop := ∃ t, step s = .next t

/-- `k` steps from `s` all have a next state. -/
def SafeRun : Nat → State → Prop
  | 0, _ => True
  | k + 1, s => ∃ t, step s = .next t ∧ SafeRun k t

end Sys2Proof.Machine
end

