-- ==== Sys2Proof/Certificates/Slice0/Obligations.lean ====
section
/-! DEFINITION. What is to be proved about the model. Each docstring names the rules of spec/ it rests
on and, where a clause rests on a choice of the model, the log entry. -/

open Sys2Proof Sys2Proof.Machine

/-! ## Encoding -/

/-- Every well-formed command is what its word decodes to (30_encoding.md R91, R96, R97). That a `CSRW` of a
read-only register is among them is the model's choice (log 18). -/
def Obligations.DecodeEncode : Prop :=
  ∀ i : Instr, i.wellFormed = true → decode (encode i) = .ok i

/-- A legal word is the word of the command it decodes to: no bit of a word is ignored, so two words
never stand for one command (30_encoding.md R93, R97). -/
def Obligations.EncodeDecode : Prop :=
  ∀ (w : Command) (i : Instr), decode w = .ok i → encode i = w ∧ i.wellFormed = true

/-- A command is legal only if its word under the mask of its format is the opcode, and an LR word only
with two different registers; any other word with that opcode raises `IllegalCommand` (30_encoding.md
R93). -/
def Obligations.UnusedFieldsZero : Prop :=
  (∀ (w : Command) (i : Instr), decode w = .ok i → w &&& i.format.mask = i.opMatch) ∧
  (∀ (w : Command) (i : Instr) (s : State), halted s = false →
    (splitWord w).op = (encodeFields i).op → w &&& i.format.mask ≠ i.opMatch →
    runCommand w s = .next (raised .illegalCommand w s)) ∧
  (∀ (w : Command) (s : State), halted s = false →
    (splitWord w).op ∈ [0x52, 0x66, 0x72] → (splitWord w).rd = (splitWord w).rs1 →
    runCommand w s = .next (raised .illegalCommand w s))

/-- Words written out from the encoding table decode to the commands they stand for (30_encoding.md
R96, 95_test_vectors.md section 3). -/
def Obligations.DecodeWords : Prop :=
  decode 0x0000000000000000 = .ok .nop ∧
  decode 0x3F00000000000101 = .ok (.ldv 1 0x3F000000) ∧
  decode 0x0000000411000010 = .ok (.rbInit 17 4) ∧
  decode 0x0000000011041220 = .ok (.apProc 2 17 1 4) ∧
  decode 0x0000000016031231 = .ok (.fLp 2 22 1 3) ∧
  decode 0x0000000000001240 = .ok (.shimWin 2 1) ∧
  decode 0x0000000000001052 = .ok (.dlySample 0 1) ∧
  decode 0x0000000000321463 = .ok (.satFold 4 1 2 3) ∧
  decode 0x0000000000001072 = .ok (.revSample 0 1) ∧
  decode 0x0000000000000100 = .error .unusedFieldNonzero ∧
  decode 0x0000000000000052 = .error .sameRegister

/-- The CSR map: each number with its register, by `CSRR` and by `CSRW`, and no other number
(10_state.md R28). That the word of a `CSRW` of a read-only register (`STATUS`, `FINFO`, `MAXBLK_*`) decodes to
a command at all is the model's choice (log 18): 60_exceptions.md R341 (f) counts it as no legal command, and
running it raises `IllegalCommand` (`Obligations.IllegalWordsRaise`). -/
def Obligations.CsrMap : Prop :=
  let map : List (Nat × Csr) :=
    [(0x00, .status), (0x01, .finfo), (0x02, .srateLo), (0x03, .srateHi), (0x04, .maxblk .rev),
      (0x05, .maxblk .dly), (0x06, .maxblk .sat), (0x07, .variant),
      (0x10, .param .revMix), (0x11, .param .revSize), (0x12, .param .revDamp), (0x13, .param .revTone),
      (0x14, .param .revShimmer),
      (0x20, .param .dlyMix), (0x21, .param .dlyTime), (0x22, .param .dlyFeedback),
      (0x23, .param .dlyTone), (0x24, .param .dlySub), (0x25, .param .dlyPingpong),
      (0x26, .param .dlyMod),
      (0x30, .param .satGrit), (0x31, .param .satTone), (0x32, .param .satWarmth),
      (0x33, .param .satAttack), (0x34, .param .satOutput), (0x35, .param .satMix),
      (0x36, .param .satDrive), (0x37, .param .satType), (0x38, .param .satComp)]
  (∀ q ∈ map, decode (BitVec.ofNat 64 (0x05 + q.1 * 2 ^ 24)) = .ok (.csrr q.2) ∧
    decode (BitVec.ofNat 64 (0x04 + q.1 * 2 ^ 24)) = .ok (.csrw q.2 0)) ∧
  ∀ n : Fin 256, n.val ∉ map.map Prod.fst → Csr.ofNumber n.val = none

/-- The byte form: a command's first byte is its opcode, byte 3 its `sel`, bytes 4 to 7 its `imm` with the
least significant byte first; every well-formed command, and every 32-bit word, is read back from its bytes
(30_encoding.md R100, 20_memory.md R63). -/
def Obligations.ByteForm : Prop :=
  (∀ w : Command, let bs := bytesOfWord w
    bs.length = 8 ∧ bs[0]? = some (splitWord w).op ∧ bs[3]? = some (splitWord w).sel ∧
      bs.drop 4 = bytesOfWord32 (splitWord w).imm) ∧
  (∀ (i : Instr) (rest : List (BitVec 8)), i.wellFormed = true →
    decodeBytes (bytesOfWord (encode i) ++ rest) = some (.ok i, rest)) ∧
  ∀ (w : Word32) (rest : List (BitVec 8)), (bytesOfWord32 w).length = 4 ∧
    (∀ k : Fin 4, (bytesOfWord32 w)[k.val]? = some (w.extractLsb' (8 * k.val) 8)) ∧
    word32OfBytes (bytesOfWord32 w ++ rest) = w

/-- The conditions (a) to (f) under which a word is no legal command; each raises `IllegalCommand`,
whatever the state of the units it names (60_exceptions.md R341). -/
def Obligations.IllegalWordsRaise : Prop :=
  ∀ (w : Command) (s : State), halted s = false →
    let f := splitWord w
    ((∀ i : Instr, (encodeFields i).op ≠ f.op)
      ∨ (∃ i : Instr, (encodeFields i).op = f.op ∧ w &&& i.format.mask ≠ i.opMatch)
      ∨ (f.op ∈ [0x52, 0x66, 0x72] ∧ f.rd = f.rs1)
      ∨ (f.op ∈ [0x10, 0x11, 0x12, 0x13, 0x14, 0x15, 0x16, 0x17, 0x18, 0x19, 0x20, 0x30, 0x31, 0x32,
          0x33] ∧ 31 < f.sel.toNat)
      ∨ (f.op ∈ [0x06, 0x07] ∧ 2 < f.sel.toNat)
      ∨ (f.op ∈ [0x38, 0x39, 0x3A] ∧ 1 < f.sel.toNat)
      ∨ (f.op ∈ [0x04, 0x05] ∧ Csr.ofNumber f.sel.toNat = none)
      ∨ (f.op = 0x04 ∧ f.sel ∈ [0x00, 0x01, 0x04, 0x05, 0x06])) →
    runCommand w s = .next (raised .illegalCommand w s)

/-! ## The step -/

/-- A step runs the command the presented word decodes to, in the state without that word
(30_encoding.md R97; the list of words to come is the model's, log 1). -/
def Obligations.StepRunsDecoded : Prop :=
  ∀ (s : State) (w : Command) (rest : List HostEvent) (i : Instr),
    s.inbox = .command w :: rest → halted s = false → decode w = .ok i →
    step s = exec i { s with inbox := rest }

/-- A word that decodes to no command raises `IllegalCommand` (30_encoding.md R97). -/
def Obligations.StepRejectsIllegal : Prop :=
  ∀ (s : State) (w : Command) (rest : List HostEvent) (e : DecodeError),
    s.inbox = .command w :: rest → halted s = false → decode w = .error e →
    step s = .next (raised .illegalCommand w { s with inbox := rest })

/-- While halted, a legal `CSRR` is answered, every other word responds 0, and no state changes
(60_exceptions.md R346). -/
def Obligations.HaltedIgnoresCommands : Prop :=
  ∀ (s : State) (w : Command) (rest : List HostEvent),
    s.inbox = .command w :: rest → halted s = true →
    (∀ n, w &&& 0xFFFFFFFF00FFFFFF = 0x05 → Csr.ofNumber (w.extractLsb' 24 8).toNat = some n →
      step s = .next { s with inbox := rest, resp := readCsr s n }) ∧
    (w &&& 0xFFFFFFFF00FFFFFF ≠ 0x05 ∨ Csr.ofNumber (w.extractLsb' 24 8).toNat = none →
      step s = .next { s with inbox := rest, resp := 0 })

/-- With nothing from the host the block holds its state; the reset input sets every piece of the
block's state to its reset value (60_exceptions.md R354, 70_reset_and_hazards.md R370; that the words to
come and the count of free values survive is the model's, log 3, log 4). -/
def Obligations.StepIdleAndReset : Prop :=
  (∀ s : State, s.inbox = [] → step s = .next s) ∧
  (∀ (s : State) (rest : List HostEvent), s.inbox = .reset :: rest →
    step s = .next { State.reset with inbox := rest, free := s.free })

/-- What hardware reset leaves (10_state.md R36, R27). -/
def Obligations.ResetValues : Prop :=
  (∀ r, readX State.reset r = 0) ∧ State.reset.status = 0 ∧ State.reset.finfo = 0 ∧
  srate State.reset = 0 ∧ State.reset.maxblkRev = 0 ∧ State.reset.maxblkDly = 0 ∧
  State.reset.maxblkSat = 0 ∧ State.reset.variant = 0 ∧
  (∀ u, (ring State.reset u).cap = 0 ∧ (ring State.reset u).wr = 0) ∧
  (∀ f, filter State.reset f = { x1 := 0, y1 := 0 }) ∧
  State.reset.shimPhase = 0 ∧ State.reset.shimOut = 0 ∧ State.reset.dlyPh1 = 0 ∧
  State.reset.dlyPh2 = 0 ∧ (∀ e, rateOf e State.reset = 0) ∧
  (∀ e, ∀ p ∈ cachePlaces e, getPlace State.reset p = 0) ∧ State.reset.dlyc.hp = false ∧
  (∀ p, readCsr State.reset (.param p) =
    match p with
    | .revMix | .dlyMix | .satWarmth => 0x3ECCCCCD
    | .revSize | .satOutput => 0x3F19999A
    | .revDamp | .dlyFeedback | .satGrit | .satAttack => 0x3E99999A
    | .revTone | .dlyTone | .dlySub | .satTone => 0x3F000000
    | .revShimmer | .dlyPingpong | .satType => 0
    | .dlyTime | .satDrive => 0x3EB33333
    | .dlyMod => 0x3E19999A
    | .satMix => 0x3F4CCCCD
    | .satComp => 0x3E4CCCCD)

/-! ## Invariants and whole-machine rules -/

/-- The reset state meets the invariant (10_state.md R35). -/
def Obligations.ResetMeetsInv : Prop := Inv State.reset

/-- Every step keeps the invariant: canonical ring-buffer storage, parameter registers in [0, 1], a
legal `STATUS`, and, for every prepared engine, a legal rate and units with slots (10_state.md R23, R26,
R35, 40_ring_buffer.md R130, 60_exceptions.md R342). -/
def Obligations.StepKeepsInv : Prop :=
  ∀ s t : State, Inv s → step s = .next t → Inv t

/-- No step of a state that meets the invariant ends in a stop of the model: every word has a next state
(30_encoding.md R97, 40_ring_buffer.md R130; log 15). -/
def Obligations.EveryWordCompletes : Prop :=
  ∀ s : State, Inv s → SafeStep s

/-- Fault entry: code, halt, information word and response, and nothing else; `PREP_*` and the reserved
bits of `STATUS` keep their values (60_exceptions.md R344). The seven codes are those of R340. -/
def Obligations.FaultEntry : Prop :=
  (FaultCode.illegalCommand.code = 1 ∧ FaultCode.capZero.code = 2 ∧ FaultCode.capRange.code = 3 ∧
    FaultCode.capNotPow2.code = 4 ∧ FaultCode.rbUninit.code = 5 ∧ FaultCode.notPrepared.code = 6 ∧
    FaultCode.badRate.code = 7) ∧
  ∀ (k : FaultCode) (w : Command) (s : State),
    faultCode (raised k w s) = k.code ∧ halted (raised k w s) = true ∧
    (raised k w s).status &&& 0xFFFF007F = s.status &&& 0xFFFF007F ∧
    raised k w s = { s with
      status := (raised k w s).status, finfo := w.extractLsb' 0 32, resp := 0 }

/-- Faults are precise: a command that leaves the block halted has changed nothing but the fault record
and the response (60_exceptions.md R355). -/
def Obligations.FaultsArePrecise : Prop :=
  ∀ (i : Instr) (s t : State), halted s = false → exec i s = .next t → halted t = true →
    t = { s with status := t.status, finfo := t.finfo, resp := t.resp } ∧
    ∃ k, t = raised k (encode i) s

/-- `HALT` is set by every fault and by nothing else; once set it stays set, with `FCODE` and `FINFO`
frozen, through every step that is not a reset, and a reset clears it (60_exceptions.md R345). -/
def Obligations.HaltIsSticky : Prop :=
  (∀ (k : FaultCode) (w : Command) (s : State), halted (raised k w s) = true) ∧
  (∀ s t : State, halted s = false → step s = .next t → halted t = true →
    ∃ k w rest, s.inbox = .command w :: rest ∧ t = raised k w { s with inbox := rest }) ∧
  (∀ s t : State, halted s = true → (∀ rest, s.inbox ≠ .reset :: rest) → step s = .next t →
    t = { s with inbox := t.inbox, resp := t.resp }) ∧
  (∀ (s t : State) (rest : List HostEvent), s.inbox = .reset :: rest → step s = .next t →
    halted t = false)

/-- Which commands change the control state: only `PREPARE` a rate, a `PREP` bit or `MAXBLK`; only
`PREPARE` and `BLOCK` a cache; only `CSRW` the rate registers, `VARIANT` or a parameter; only `PREPARE`,
`RB.INIT` and `RB.INIT2` a capacity (10_state.md R32, R33, 47_system.md R317, 40_ring_buffer.md R134). -/
def Obligations.ControlStateWriters : Prop :=
  ∀ (i : Instr) (s t : State), exec i s = .next t →
    ((∀ e m, i ≠ .prepare e m) → (∀ e, rateOf e t = rateOf e s ∧ prepared e t = prepared e s) ∧
      t.maxblkRev = s.maxblkRev ∧ t.maxblkDly = s.maxblkDly ∧ t.maxblkSat = s.maxblkSat) ∧
    ((∀ e m, i ≠ .prepare e m ∧ i ≠ .block e) →
      t.revc = s.revc ∧ t.dlyc = s.dlyc ∧ t.satc = s.satc) ∧
    ((∀ n v, i ≠ .csrw n v) → srate t = srate s ∧ t.variant = s.variant ∧ t.params = s.params) ∧
    ((∀ e m u c, i ≠ .prepare e m ∧ i ≠ .rbInit u c ∧ i ≠ .rbInit2 u c) →
      ∀ u, (ring t u).cap = (ring s u).cap)

/-- The phases `SHIM.phase`, `DLY.ph1` and `DLY.ph2` start in [0, 1), and each stays there through every
command: one that does not advance it needs no premise, one that does must read finite values and have that
phase's own increment in [0, 1) (10_state.md R32, R35, 43_shimmer.md R196, 44_delay.md R214; after a value that
is not finite the phases are free: 20_memory.md R76, log 9). -/
def Obligations.PhasesStayInRange : Prop :=
  phasesLegal State.reset = true ∧
  ∀ (i : Instr) (s t : State), Inv s → i.wellFormed = true → exec i s = .next t →
    ((advancesShimmer i s = true →
        phaseInputsOk Config.cfg i s = true ∧ inPhase (shimIncrement (ring s 12)) = true) →
      inPhase s.shimPhase = true → inPhase t.shimPhase = true) ∧
    ((advancesDelay i = true → phaseInputsOk Config.cfg i s = true ∧ inPhase s.dlyc.lfoInc = true) →
      (inPhase s.dlyPh1 = true → inPhase t.dlyPh1 = true) ∧
      (inPhase s.dlyPh2 = true → inPhase t.dlyPh2 = true))

/-- The capacity of a unit that `RB.INIT2` set, and of the shimmer buffer that `PREPARE rev` set, is a
power of two, and the shimmer buffer's stays zero or a power of two through every command but an `RB.INIT`
of it (10_state.md R35, 40_ring_buffer.md R122, 47_system.md R316). -/
def Obligations.ShimmerCapacityIsPowerOfTwo : Prop :=
  (∀ (u : RbUnit) (c : Word32) (s t : State), halted s = false → exec (.rbInit2 u c) s = .next t →
    halted t = false → ∃ k, (ring t u).cap = 2 ^ k) ∧
  (∀ (m : Word32) (s t : State), halted s = false → exec (.prepare .rev m) s = .next t →
    halted t = false → ∃ k, (ring t 12).cap = 2 ^ k) ∧
  (∀ (i : Instr) (s t : State), (∀ c, i ≠ .rbInit 12 c) → exec i s = .next t →
    ((ring s 12).cap = 0 ∨ ∃ k, (ring s 12).cap = 2 ^ k) →
    (ring t 12).cap = 0 ∨ ∃ k, (ring t 12).cap = 2 ^ k)

/-- No command takes a unit back to the uninitialised state (40_ring_buffer.md R134, 60_exceptions.md
R348). -/
def Obligations.CapacityNeverReturnsToZero : Prop :=
  ∀ (i : Instr) (s t : State) (u : RbUnit), exec i s = .next t → (ring s u).cap ≠ 0 →
    (ring t u).cap ≠ 0

/-! ## System commands -/

/-- `NOP` does nothing; its only legal word is zero (47_system.md R310). -/
def Obligations.NopDoesNothing : Prop :=
  (∀ s : State, exec .nop s = .next (respond s 0)) ∧
  (∀ w : Command, decode w = .ok .nop ↔ w = 0) ∧
  (∀ (w : Command) (s : State), halted s = false → (splitWord w).op = 0 → w ≠ 0 →
    runCommand w s = .next (raised .illegalCommand w s))

/-- `LDV`, `RDV` and `MOV`: their opcodes and formats, and that they move the 32 bits as they stand
(47_system.md R311 to R313). -/
def Obligations.MovesAreBitExact : Prop :=
  (encode (.ldv 1 0x3F000000) = 0x3F00000000000101 ∧ encode (.rdv 1) = 0x0000000000001002 ∧
    encode (.mov 2 1) = 0x0000000000001203) ∧
  ∀ (d r : Reg) (v : Word32) (s : State),
    ((encodeFields (.ldv d v)).op = 0x01 ∧ (Instr.ldv d v).format = .di) ∧
    ((encodeFields (.rdv r)).op = 0x02 ∧ (Instr.rdv r).format = .s) ∧
    ((encodeFields (.mov d r)).op = 0x03 ∧ (Instr.mov d r).format = .ds) ∧
    exec (.ldv d v) s = .next { s with x := s.x.set d.val v d.isLt, resp := 0 } ∧
    exec (.rdv r) s = .next { s with resp := s.x[r] } ∧
    exec (.mov d r) s = .next { s with x := s.x.set d.val s.x[r] d.isLt, resp := 0 }

/-- `CSRR`: its opcode and format; it responds with the register and changes nothing, and it is the one
command that a halted block still executes; a number outside the map raises `IllegalCommand` (47_system.md R315). -/
def Obligations.CsrrReads : Prop :=
  (encode (.csrr (.param .revSize)) = 0x0000000011000005 ∧
    encode (.csrr .status) = 0x0000000000000005) ∧
  (∀ n, (encodeFields (.csrr n)).op = 0x05 ∧ (Instr.csrr n).format = .c) ∧
  (∀ (w : Command) (s : State), halted s = false → (splitWord w).op = 0x05 →
    Csr.ofNumber (splitWord w).sel.toNat = none →
    runCommand w s = .next (raised .illegalCommand w s)) ∧
  (∀ (n : Csr) (s : State), halted s = true →
    runCommand (encode (.csrr n)) s = .next { s with resp := readCsr s n }) ∧
  (∀ (w : Command) (s : State), halted s = true → (∀ n, w ≠ encode (.csrr n)) →
    runCommand w s = .next { s with resp := 0 }) ∧
  ∀ (n : Csr) (s : State), exec (.csrr n) s = .next { s with resp := readCsr s n }

/-- `CSRW`: the rate words are stored as given, `VARIANT` keeps bit 0, a parameter is clamped to [0, 1]
with a NaN stored as `+0.0`, and a read-only register raises `IllegalCommand` (47_system.md R314). -/
def Obligations.CsrwWrites : Prop :=
  ∀ (w : Word32) (s : State),
    exec (.csrw .srateLo w) s = .next { s with srateLo := w, resp := 0 } ∧
    exec (.csrw .srateHi w) s = .next { s with srateHi := w, resp := 0 } ∧
    exec (.csrw .variant w) s = .next { s with variant := w &&& 1, resp := 0 } ∧
    (∀ p : Param, ∃ v : F32, exec (.csrw (.param p) w) s
        = .next { s with params := s.params.put p v, resp := 0 } ∧
      (isNaN w = true ∨ fle w 0 = true → v = 0) ∧
      (fle 0x3F800000 w = true → v = 0x3F800000) ∧
      (flt 0 w = true → flt w 0x3F800000 = true → v = w) ∧
      (s.params.put p v).get p = v ∧ ∀ q, q ≠ p → (s.params.put p v).get q = s.params.get q) ∧
    (∀ n, n = .status ∨ n = .finfo ∨ (∃ e, n = .maxblk e) →
      exec (.csrw n w) s = .next (raised .illegalCommand (encode (.csrw n w)) s))

/-- What a parameter register reads after a write is a number in [0, 1] (10_state.md R26). -/
def Obligations.ParameterStaysInUnit : Prop :=
  ∀ (p : Param) (w : Word32) (s t u : State),
    exec (.csrw (.param p) w) s = .next t → exec (.csrr (.param p)) t = .next u →
    inUnit u.resp = true

/-- `PREPARE` of an engine at a legal rate with sizes in range: the owned units take their sizes,
zero-filled, the owned filter states and scalars are cleared, the rate, the block size and the cache are
latched, the engine is prepared, and nothing else changes (47_system.md R316, R317; a NaN latched value is
free: log 10). -/
def Obligations.PrepareCompletes : Prop :=
  ∀ (e : Engine) (m : Word32) (s : State),
    isPosFinite64 (srate s) = true →
    (∀ u ∈ ownedRings e, ∃ n, preparedSize Config.cfg (srate s) u = some n ∧ 1 ≤ n
      ∧ n ≤ Config.rbCapMax) →
    ∃ t, exec (.prepare e m) s = .next t ∧ t.resp = 0 ∧
      (∀ u ∈ ownedRings e, ∃ n, preparedSize Config.cfg (srate s) u = some n
        ∧ ring t (ownedUnit u) = freshRing n) ∧
      (∀ v, (∀ u ∈ ownedRings e, ownedUnit u ≠ v) → ring t v = ring s v) ∧
      (∀ f ∈ ownedFilters e, filter t f = { x1 := 0, y1 := 0 }) ∧
      (∀ f, f ∉ ownedFilters e → filter t f = filter s f) ∧
      t.status = s.status ||| prepBit e ∧ prepared e t = true ∧ rateOf e t = srate s ∧
      readCsr t (.maxblk e) = m ∧
      (∀ q ∈ cacheValues Config.cfg e s.params (srate s),
        if isNaN q.2 then ∃ n, s.free ≤ n ∧ n < t.free ∧ getPlace t q.1 = Config.freeF32 n
        else getPlace t q.1 = q.2) ∧
      (e = .dly → t.dlyc.hp = !flt s.params.dlyTone half) ∧
      (∀ e', e' ≠ e → rateOf e' t = rateOf e' s ∧ readCsr t (.maxblk e') = readCsr s (.maxblk e')
        ∧ ∀ p ∈ cachePlaces e', getPlace t p = getPlace s p) ∧
      (e ≠ .dly → t.dlyc.hp = s.dlyc.hp) ∧
      (if e = .rev then t.shimPhase = 0 ∧ t.shimOut = 0
        else t.shimPhase = s.shimPhase ∧ t.shimOut = s.shimOut) ∧
      (if e = .dly then t.dlyPh1 = 0 ∧ t.dlyPh2 = cfgDlyLfoPhi Config.cfg
        else t.dlyPh1 = s.dlyPh1 ∧ t.dlyPh2 = s.dlyPh2) ∧
      t.x = s.x ∧ t.finfo = s.finfo ∧ srate t = srate s ∧ t.variant = s.variant ∧
      t.params = s.params ∧ t.inbox = s.inbox

/-- The checks of `PREPARE` in their order, under all structural sizes and every configuration: `BadRate`,
then `CapZero` if some computed size is 0, then `CapRange` if some exceeds the bound; each leaves every unit
as it was (00_scope.md R6, 47_system.md R316, 60_exceptions.md R347, R349). That a computed infinity counts as above the bound is
the model's (log 14). -/
def Obligations.PrepareFaults : Prop :=
  (∀ (e : Engine) (m : Word32) (s : State),
    exec (.prepare e m) s = prepareWith Config.sizes Config.cfg e m s) ∧
  ∀ (z : Config.Sizes) (c : Config.Cfg) (e : Engine) (m : Word32) (s : State),
    (isPosFinite64 (srate s) = false →
      prepareWith z c e m s = .next (raised .badRate (encode (.prepare e m)) s)) ∧
    (isPosFinite64 (srate s) = true → (∃ u ∈ ownedRings e, preparedSize c (srate s) u = some 0) →
      prepareWith z c e m s = .next (raised .capZero (encode (.prepare e m)) s)) ∧
    (isPosFinite64 (srate s) = true → (∀ u ∈ ownedRings e, preparedSize c (srate s) u ≠ some 0) →
      (∃ u ∈ ownedRings e, preparedSize c (srate s) u = none
        ∨ ∃ n, preparedSize c (srate s) u = some n ∧ z.rbCapMax < n) →
      prepareWith z c e m s = .next (raised .capRange (encode (.prepare e m)) s))

/-- Preparing twice gives the state of preparing once: the same sizes and a fully zeroed state; the whole
state is the same if the first latch used no free value (47_system.md R316; log 10). -/
def Obligations.PrepareIsIdempotent : Prop :=
  ∀ (e : Engine) (m : Word32) (s t : State), exec (.prepare e m) s = .next t →
    ∃ t', exec (.prepare e m) t = .next t' ∧ t'.rb = t.rb ∧ t'.fs = t.fs ∧ t'.x = t.x ∧
      control t' = control t ∧ t'.shimPhase = t.shimPhase ∧ t'.shimOut = t.shimOut ∧
      t'.dlyPh1 = t.dlyPh1 ∧ t'.dlyPh2 = t.dlyPh2 ∧ (t.free = s.free → t' = t)

/-- `BLOCK` latches the engine's cache from the parameter registers and the engine's rate, and changes
nothing else (47_system.md R317, 10_state.md R33; a NaN latched value is free: log 10). -/
def Obligations.BlockLatchesCache : Prop :=
  ∀ (e : Engine) (s : State), prepared e s = true →
    exec (.block e) s = landed true (cacheValues Config.cfg e s.params (rateOf e s))
      (if e = .dly then { s with dlyc := { s.dlyc with hp := !flt s.params.dlyTone half } } else s)

/-! ## Ring buffers -/

/-- `RB.INIT` and `RB.INIT2`: a legal capacity gives a zero-filled unit with cursor 0; the checks are
made in their order and a fault leaves the unit as it was (40_ring_buffer.md R121, R122, 60_exceptions.md
R347, R349). -/
def Obligations.RingInit : Prop :=
  ∀ (u : RbUnit) (cap : Word32) (s : State),
    (cap.toNat = 0 →
      exec (.rbInit u cap) s = .next (raised .capZero (encode (.rbInit u cap)) s) ∧
      exec (.rbInit2 u cap) s = .next (raised .capZero (encode (.rbInit2 u cap)) s)) ∧
    (Config.rbCapMax < cap.toNat →
      exec (.rbInit u cap) s = .next (raised .capRange (encode (.rbInit u cap)) s) ∧
      exec (.rbInit2 u cap) s = .next (raised .capRange (encode (.rbInit2 u cap)) s)) ∧
    (1 ≤ cap.toNat → cap.toNat ≤ Config.rbCapMax →
      exec (.rbInit u cap) s = .next (respond (setRing s u (freshRing cap.toNat)) 0) ∧
      ((∃ k, cap.toNat = 2 ^ k) →
        exec (.rbInit2 u cap) s = .next (respond (setRing s u (freshRing cap.toNat)) 0)) ∧
      ((∀ k, cap.toNat ≠ 2 ^ k) →
        exec (.rbInit2 u cap) s = .next (raised .capNotPow2 (encode (.rbInit2 u cap)) s))) ∧
    (∀ i, memRead (freshRing cap.toNat) i = 0)

/-- `RB.PUSH` writes the register's bits at the cursor and advances the cursor; no other slot and no
other unit changes (40_ring_buffer.md R123). -/
def Obligations.PushWritesAtCursor : Prop :=
  ∀ (u : RbUnit) (rs : Reg) (s : State), (ring s u).cap ≠ 0 →
    ∃ t, exec (.rbPush u rs) s = .next t ∧ t.resp = 0 ∧ t.free = s.free ∧
      Frame [.slot u (ring s u).wr] [u] s t ∧
      (ring t u).wr = ((ring s u).wr + 1) % (ring s u).cap ∧
      (Inv s → memRead (ring t u) (ring s u).wr = readX s rs)

/-- Round trip: a push of any value, then a read at delay 0, gives the value bit for bit; and a push
makes every stored sample one step older (40_ring_buffer.md R120, R133). -/
def Obligations.PushReadRoundTrip : Prop :=
  ∀ (u : RbUnit) (rs rd : Reg) (s t : State), Inv s → (ring s u).cap ≠ 0 →
    exec (.rbPush u rs) s = .next t →
    (∃ t', exec (.rbRdn rd u 0) t = .next t' ∧ readX t' rd = readX s rs) ∧
    ∀ k : Nat, k + 1 < (ring s u).cap →
      memRead (ring t u) (slotOf (ring t u) (k + 1 : Nat)) = memRead (ring s u) (slotOf (ring s u) k)

/-- `RB.RDN` copies the bits of the slot at the clamped delay, and changes only its register
(40_ring_buffer.md R124; bit for bit also for a NaN: log 11). -/
def Obligations.RdnCopiesSlot : Prop :=
  ∀ (rd : Reg) (u : RbUnit) (k : Word32) (s : State), (ring s u).cap ≠ 0 →
    exec (.rbRdn rd u k) s = .next (respond (writeX s rd (memRead (ring s u)
      (slotOf (ring s u) (min k.toNat ((ring s u).cap - 1) : Nat)))) 0)

/-- The interpolated reads: the value of the rule for finite data, a free value otherwise; only the
destination register changes (40_ring_buffer.md R126 to R129, 20_memory.md R76; log 9). A NaN result of
finite data is free too (log 10), and so is what `RB.RDP` reads where its wrap overflows (log 19); at an
integer-valued delay the value is that of the expression as written (log 28). -/
def Obligations.InterpolatedReads : Prop :=
  ∀ (rd : Reg) (u : RbUnit) (rs : Reg) (s : State), (ring s u).cap ≠ 0 →
    let b := ring s u
    let v := readX s rs
    exec (.rbRdi rd u rs) s = landed (readOk b v (rdiSlots b v)) [(.x rd, rdiValue b v)] s ∧
    exec (.rbRdl rd u rs) s = landed (readOk b v (rdlSlots b v)) [(.x rd, rdlValue b v)] s ∧
    exec (.rbRdc rd u rs) s = landed (readOk b v (rdcSlots b v)) [(.x rd, rdcValue b v)] s ∧
    exec (.rbRdp rd u rs) s = landed (readOk b v (rdpSlots b v)) [(.x rd, rdpValue b v)] s

/-- Every slot a command computes lies inside the unit (20_memory.md R67, R70), the delay reads stay
inside the bounds of their order, whatever the delay is (40_ring_buffer.md R125). -/
def Obligations.ReadsStayInside : Prop :=
  ∀ (b : RingUnit) (d : F32) (k : Int), 1 ≤ b.cap → b.cap ≤ Config.rbCapMax →
    slotOf b k < b.cap ∧ slotAt b k < b.cap ∧
    (0 ≤ (delay0 b d).1 ∧ (delay0 b d).1 ≤ (b.cap : Int) - 1) ∧
    (0 ≤ (delay1 b d).1 ∧ (delay1 b d).1 ≤ max 0 ((b.cap : Int) - 2)) ∧
    (1 ≤ (delay3 b d).1 ∧ (delay3 b d).1 ≤ max 1 ((b.cap : Int) - 4))

/-- Every slot command on an uninitialised unit raises `RbUninit` with no change of state
(40_ring_buffer.md R130, 60_exceptions.md R348). -/
def Obligations.UninitialisedUnitFaults : Prop :=
  ∀ (u : RbUnit) (s : State), (ring s u).cap = 0 → ∀ (d r g : Reg) (k : Word32), ∀ i ∈
    ([.rbPush u r, .rbRdn d u k, .rbRdi d u r, .rbRdl d u r, .rbRdc d u r, .rbRdp d u r,
      .apProc d u r g] : List Instr),
    exec i s = .next (raised .rbUninit (encode i) s)

/-- `RB.CAP` and `RB.CUR` respond with the capacity and the cursor, of an uninitialised unit too, and
change nothing; their opcodes and formats (40_ring_buffer.md R131, R132). -/
def Obligations.CapacityAndCursorResponses : Prop :=
  (encode (.rbCap 17) = 0x0000000011000018 ∧ encode (.rbCur 17) = 0x0000000011000019) ∧
  (∀ u, ((encodeFields (.rbCap u)).op = 0x18 ∧ (Instr.rbCap u).format = .c) ∧
    (encodeFields (.rbCur u)).op = 0x19 ∧ (Instr.rbCur u).format = .c) ∧
  ∀ (u : RbUnit) (s : State), Inv s →
    ∃ c w : Word32, exec (.rbCap u) s = .next { s with resp := c } ∧ c.toNat = (ring s u).cap ∧
      exec (.rbCur u) s = .next { s with resp := w } ∧ w.toNat = (ring s u).wr

/-! ## Allpass and filters -/

/-- `AP.PROC`: the sum is pushed, the difference is the output, and no other place changes (41_allpass.md
R150). If a value it uses is not finite both written values are free (20_memory.md R76; log 9), and so is a
value that comes out as a NaN (log 10). -/
def Obligations.AllpassStep : Prop :=
  ∀ (d : Reg) (u : RbUnit) (r g : Reg) (s : State), Inv s → (ring s u).cap ≠ 0 →
    let b := ring s u
    exec (.apProc d u r g) s = landed
      (isFinite (readX s r) && isFinite (readX s g) && isFinite (oldest b))
      [(.slot u b.wr, apStored b (readX s r) (readX s g)), (.x d, apOut b (readX s r) (readX s g))]
      (setRing s u { b with wr := (b.wr + 1) % b.cap })

/-- `F.CLR`: its opcode and format, and that it clears the two fields of the unit (42_filters.md
R161). -/
def Obligations.FilterClear : Prop :=
  encode (.fClr 22) = 0x0000000016000030 ∧
  (∀ f, (encodeFields (.fClr f)).op = 0x30 ∧ (Instr.fClr f).format = .c) ∧
  ∀ (f : FsUnit) (s : State), exec (.fClr f) s
    = .next { s with fs := s.fs.set f.val { x1 := 0, y1 := 0 } f.isLt, resp := 0 }

/-- `F.LP`, `F.HP` and `F.DCB`: the unit's fields and the output (42_filters.md R162, R164, R165). If a value
they use is not finite the written values are free (20_memory.md R76; log 9), and so is a value that comes
out as a NaN (log 10). -/
def Obligations.FilterSteps : Prop :=
  ∀ (d : Reg) (f : FsUnit) (r a : Reg) (s : State),
    let x := readX s r
    let k := readX s a
    let q := filter s f
    let lp := fadd q.y1 (fmul k (fsub x q.y1))
    let dc := fadd (fsub x q.x1) (fmul k q.y1)
    exec (.fLp d f r a) s = landed (isFinite x && isFinite k && isFinite q.y1)
      [(.fsX f, x), (.fsY f, lp), (.x d, lp)] s ∧
    exec (.fHp d f r a) s = landed (isFinite x && isFinite k && isFinite q.y1)
      [(.fsX f, x), (.fsY f, lp), (.x d, fsub x lp)] s ∧
    exec (.fDcb d f r a) s = landed (isFinite x && isFinite k && isFinite q.x1 && isFinite q.y1)
      [(.fsX f, x), (.fsY f, dc), (.x d, dc)] s

/-- The commands with one operand and one result: the function of their rule for a finite operand, a
free value otherwise (42_filters.md R166, 43_shimmer.md R190, 44_delay.md R211, R212, 45_saturation.md
R258, 46_reverb.md R281, R282, 20_memory.md R76; log 9; a NaN result of a finite operand is free too: log
10; the NaN operand of `DLY.RATIO` is log 12). -/
def Obligations.UnaryCommands : Prop :=
  ∀ (d r : Reg) (s : State),
    let v := readX s r
    exec (.slim d r) s = landed (isFinite v) [(.x d, softLimit v)] s ∧
    exec (.shimWin d r) s = landed (isFinite v) [(.x d, winA Config.cfg v)] s ∧
    exec (.dlyTime d r) s = landed (isFinite v) [(.x d, timeSec Config.cfg v)] s ∧
    exec (.dlyRatio d r) s = landed (isNaN v || isFinite v) [(.x d, ratio v)] s ∧
    exec (.satOutg d r) s = landed (isFinite v) [(.x d, outGain Config.cfg v)] s ∧
    exec (.revDecay d r) s = landed (isFinite v) [(.x d, decayOf v)] s ∧
    exec (.revDamp d r) s = landed (isFinite v) [(.x d, dampCoef v)] s

/-- `F.COEF` gives the coefficient at the rate registers as they stand, and raises `BadRate` when they
hold no finite rate above zero (42_filters.md R163, 60_exceptions.md R342). For a cutoff that is not
finite the result is a free value (20_memory.md R76; log 9), and so is a NaN coefficient, which a rate that
narrows to 0 can give (log 10, log 20). -/
def Obligations.CoefficientCommand : Prop :=
  ∀ (d r : Reg) (s : State),
    (isPosFinite64 (srate s) = true → exec (.fCoef d r) s
      = landed (isFinite (readX s r)) [(.x d, coef Config.cfg (readX s r) (srate s))] s) ∧
    (isPosFinite64 (srate s) = false → exec (.fCoef d r) s
      = .next (raised .badRate (encode (.fCoef d r)) s))

/-- `CLAMP` and the five shapers: the function of their rule for finite operands, a free value otherwise
(42_filters.md R167, 45_saturation.md R241 to R246, 20_memory.md R76; log 9); a NaN result of finite
operands is free too (log 10). -/
def Obligations.TernaryCommands : Prop :=
  ∀ (d a b c : Reg) (s : State),
    let x := readX s a
    let y := readX s b
    let z := readX s c
    let ok := isFinite x && isFinite y && isFinite z
    exec (.clamp d a b c) s = landed ok [(.x d, fmax y (fmin x z))] s ∧
    exec (.satTape d a b c) s = landed ok [(.x d, shapeTape Config.cfg x y z)] s ∧
    exec (.satTube d a b c) s = landed ok [(.x d, shapeTube Config.cfg x y z)] s ∧
    exec (.satClip d a b c) s = landed ok [(.x d, cfgSatClip Config.cfg x y z)] s ∧
    exec (.satFold d a b c) s = landed ok [(.x d, shapeFold Config.cfg x y z)] s ∧
    exec (.satXf d a b c) s = landed ok [(.x d, shapeXf Config.cfg s.params.satType x y z)] s

/-- The three tone-tilt commands of a prepared engine: their low-passes step whatever the tone, then the
output (42_filters.md R171, R172, R175). If a value they use is not finite the written values are free
(20_memory.md R76; log 9), and so is a value that comes out as a NaN (log 10). -/
def Obligations.TiltCommands : Prop :=
  ∀ (d r : Reg) (ch : Channel) (s : State),
    let v := readX s r
    (prepared .rev s = true →
      let f := chUnit ch 4 5
      let g := chUnit ch 6 7
      let lo := lpOut (filter s f) v s.revc.aLo
      let hi := lpOut (filter s g) v s.revc.aHi
      exec (.tiltRev d ch r) s = landed (isFinite v && isFinite s.revc.aLo && isFinite (filter s f).y1
          && isFinite s.revc.aHi && isFinite (filter s g).y1)
        [(.fsX f, v), (.fsY f, lo), (.fsX g, v), (.fsY g, hi),
          (.x d, tiltRevOut Config.cfg s.params.revTone v lo hi)] s) ∧
    (prepared .dly s = true →
      let f := chUnit ch 10 11
      let lp := lpOut (filter s f) v s.dlyc.aTone
      exec (.tiltDly d ch r) s = landed (isFinite v && isFinite s.dlyc.aTone
          && isFinite (filter s f).y1)
        [(.fsX f, v), (.fsY f, lp), (.x d, tiltDlyOut s.dlyc.hp s.params.dlyTone v lp)] s) ∧
    (prepared .sat s = true →
      let f := chUnit ch 16 17
      let lp := lpOut (filter s f) v s.satc.aTone
      exec (.tiltSat d ch r) s = landed (isFinite v && isFinite s.satc.aTone
          && isFinite (filter s f).y1)
        [(.fsX f, v), (.fsY f, lp), (.x d, tiltSatOut Config.cfg s.params.satTone v lp)] s)

/-- At tone 0.5 the reverb's and the saturation's tone stages put out their input bit for bit, when the
input and every state field they use are finite (42_filters.md R171, R175). -/
def Obligations.TiltIsFlatAtCentre : Prop :=
  ∀ (d r : Reg) (ch : Channel) (s : State), isFinite (readX s r) = true →
    (prepared .rev s = true → s.params.revTone = 0x3F000000 →
      isFinite s.revc.aLo = true → isFinite s.revc.aHi = true →
      isFinite (filter s (chUnit ch 4 5)).y1 = true → isFinite (filter s (chUnit ch 6 7)).y1 = true →
      ∃ t, exec (.tiltRev d ch r) s = .next t ∧ readX t d = readX s r) ∧
    (prepared .sat s = true → s.params.satTone = 0x3F000000 → isFinite s.satc.aTone = true →
      isFinite (filter s (chUnit ch 16 17)).y1 = true →
      ∃ t, exec (.tiltSat d ch r) s = .next t ∧ readX t d = readX s r)

/-- The commands that use an engine raise `NotPrepared` while its `PREP` bit is clear (60_exceptions.md
R343); an LR word needs two registers to be a command at all (30_encoding.md R93). -/
def Obligations.UnpreparedEngineFaults : Prop :=
  ∀ (e : Engine) (s : State), prepared e s = false → ∀ (d r : Reg) (ch : Channel), ∀ i ∈
    (match e with
      | .rev => [.block .rev, .tiltRev d ch r, .shimStep d r]
      | .dly => [.block .dly, .tiltDly d ch r]
      | .sat => [.block .sat, .tiltSat d ch r] : List Instr)
      ++ (if d = r then [] else
        [match e with
          | .rev => .revSample d r
          | .dly => .dlySample d r
          | .sat => .satSample d r]),
    exec i s = .next (raised .notPrepared (encode i) s)

/-! ## Functions of the rules -/

/-- The soft limiter is odd, and the identity up to 0.95 in magnitude (42_filters.md R166). -/
def Obligations.SoftLimiterShape : Prop :=
  ∀ v : F32, isNaN v = false →
    softLimit (fneg v) = fneg (softLimit v) ∧ (fle (fabs v) 0x3F733333 = true → softLimit v = v)

/-- The ceilings: the decay never exceeds 0.93, the delay's feedback gain never 0.88, and the fed-back
sample stays within 0.9, unless it is a NaN (46_reverb.md R281, 44_delay.md R217, R218). -/
def Obligations.FeedbackCeilings : Prop :=
  (∀ size : F32, isNaN (decayOf size) = true ∨ fle (decayOf size) 0x3F6E147B = true) ∧
  (∀ f : F32, isNaN f = false → fle (dlyGain f) 0x3F6147AE = true) ∧
  (∀ fbk v : F32, isNaN (dlyFeedback fbk v) = true ∨ within 0x3F666666 (dlyFeedback fbk v) = true)

/-- The delay ratio takes five values by bands, for every control: below 0.2, from 0.2 to 0.4, from 0.4 to
0.6, from 0.6 to 0.8, and from 0.8 on, each threshold in the higher band; a NaN is in the last band
(44_delay.md R212; that `DLY.RATIO` writes that value for a NaN is log 12). The values of the rule's examples,
of the thresholds and of the number just below the first one are written out too. -/
def Obligations.RatioBands : Prop :=
  (∀ s : F32,
    (flt s 0x3E4CCCCD = true → ratio s = 0x3F2AC083) ∧
    (fle 0x3E4CCCCD s = true → flt s 0x3ECCCCCD = true → ratio s = 0x3F000000) ∧
    (fle 0x3ECCCCCD s = true → flt s 0x3F19999A = true → ratio s = 0x3F400000) ∧
    (fle 0x3F19999A s = true → flt s 0x3F4CCCCD = true → ratio s = 0x3FC00000) ∧
    (fle 0x3F4CCCCD s = true → ratio s = 0x3FCF1AA0) ∧
    (isNaN s = true → ratio s = 0x3FCF1AA0)) ∧
  ratio 0x3DCCCCCD = 0x3F2AC083 ∧ ratio 0x3E99999A = 0x3F000000 ∧ ratio 0x3F000000 = 0x3F400000 ∧
  ratio 0x3F333333 = 0x3FC00000 ∧ ratio 0x3F666666 = 0x3FCF1AA0 ∧
  ratio 0x3E4CCCCC = 0x3F2AC083 ∧ ratio 0x3E4CCCCD = 0x3F000000 ∧ ratio 0x3ECCCCCD = 0x3F400000 ∧
  ratio 0x3F19999A = 0x3FC00000 ∧ ratio 0x3F4CCCCD = 0x3FCF1AA0 ∧ ratio 0x7FC00000 = 0x3FCF1AA0

/-! ## Engine commands -/

/-- One shimmer step: which places change, the cursor, and the next state. If everything the step reads
is finite, each place holds the value of the rules, computed from the state before the command (a NaN is
free: log 10); if not, every place it writes is free (43_shimmer.md R192 to R198, 20_memory.md R76; log 9).
The guard on the slots is the model's (log 15). -/
def Obligations.ShimmerStep : Prop :=
  ∀ (d r : Reg) (s : State), prepared .rev s = true → engineHasSlots .rev s = true →
    (∃ t, exec (.shimStep d r) s = .next t ∧ t.resp = 0 ∧
      Frame (shimPlaces s ++ [.x d]) [12] s t ∧ (ring t 12).wr = nextWr (ring s 12) ∧
      (t.free = s.free → t = respond (writeX (shimState Config.cfg (readX s r) s) d
        (shimOutput Config.cfg (readX s r) s)) 0)) ∧
    (Inv s → exec (.shimStep d r) s
      = landed (isFinite (readX s r) && shimOk Config.cfg (readX s r) s)
        (valuesAt (shimPlaces s ++ [.x d]) (writeX (shimState Config.cfg (readX s r) s) d
          (shimOutput Config.cfg (readX s r) s))) (advanced [12] s))

/-- One delay sample: which places change, the cursors, and the next state (44_delay.md R214 to R222).
If everything the command reads is finite, each place holds the value of the rules, computed from the state
before the command (a NaN is free: log 10); if not, every place it writes is free (20_memory.md R76; log 9).
The guard on the slots is the model's (log 15). -/
def Obligations.DelaySample : Prop :=
  ∀ (l r : Reg) (s : State), l ≠ r → prepared .dly s = true → engineHasSlots .dly s = true →
    (∃ t, exec (.dlySample l r) s = .next t ∧ t.resp = 0 ∧ Frame (dlyPlaces l r s) [13, 14, 15, 16] s t ∧
      (∀ u ∈ ([13, 14, 15, 16] : List RbUnit), (ring t u).wr = nextWr (ring s u)) ∧
      (t.free = s.free → t = respond (dlyState Config.cfg l r s) 0)) ∧
    (Inv s → exec (.dlySample l r) s = landed (dlyOk Config.cfg l r s)
      (valuesAt (dlyPlaces l r s) (dlyState Config.cfg l r s)) (advanced [13, 14, 15, 16] s))

/-- One saturation sample: which places change (the compressor's only while its control is above zero),
no ring buffer, and the next state (45_saturation.md R250 to R262). If everything the command reads is
finite, each place holds the value of the rules, computed from the state before the command (a NaN is free:
log 10); if not, every place it writes is free (20_memory.md R76; log 9). -/
def Obligations.SaturationSample : Prop :=
  ∀ (l r : Reg) (s : State), l ≠ r → prepared .sat s = true →
    (∃ t, exec (.satSample l r) s = .next t ∧ t.resp = 0 ∧ Frame (satPlaces l r s) [] s t ∧
      (t.free = s.free → t = respond (satState Config.cfg l r s) 0)) ∧
    (Inv s → exec (.satSample l r) s = landed (satOk l r s)
      (valuesAt (satPlaces l r s) (satState Config.cfg l r s)) (advanced [] s))

/-- One reverb sample: which places change (the shimmer's only while the gate is open), the cursors, and
the next state (46_reverb.md R283 to R295). If everything the command reads is finite, each place holds the
value of the rules, computed from the state before the command, the taps from the tank lines after their
pushes (a NaN is free: log 10); if not, every place it writes is free (20_memory.md R76; log 9). The guard
on the slots is the model's (log 15). -/
def Obligations.ReverbSample : Prop :=
  ∀ (l r : Reg) (s : State), l ≠ r → prepared .rev s = true → engineHasSlots .rev s = true →
    (∃ t, exec (.revSample l r) s = .next t ∧ t.resp = 0 ∧ Frame (revPlaces l r s) (revUnits s) s t ∧
      (∀ u ∈ revUnits s, (ring t u).wr = nextWr (ring s u)) ∧
      (t.free = s.free → t = respond (revState Config.cfg l r s) 0)) ∧
    (Inv s → exec (.revSample l r) s = landed (revOk Config.cfg l r s)
      (valuesAt (revPlaces l r s) (revState Config.cfg l r s)) (advanced (revUnits s) s))

/-- A closed gate freezes the shimmer: its buffer, its two filters, its phase and its output keep what
they held through every reverb sample (43_shimmer.md R191, 70_reset_and_hazards.md R381). -/
def Obligations.ClosedGateFreezesShimmer : Prop :=
  ∀ (l r : Reg) (s t : State), l ≠ r → flt 0x3A83126F s.params.revShimmer = false →
    exec (.revSample l r) s = .next t →
    (∀ i, memRead (ring t 12) i = memRead (ring s 12) i) ∧ (ring t 12).cap = (ring s 12).cap ∧
    (ring t 12).wr = (ring s 12).wr ∧ filter t 8 = filter s 8 ∧ filter t 9 = filter s 9 ∧
    t.shimPhase = s.shimPhase ∧ t.shimOut = s.shimOut

/-- The delay's and the saturation's outputs lie in [-1, 1], or are free values (44_delay.md R222,
45_saturation.md R259; log 9, log 10). -/
def Obligations.OutputsAreClamped : Prop :=
  ∀ (l r : Reg) (s : State), l ≠ r →
    (prepared .dly s = true → engineHasSlots .dly s = true →
      ∃ t, exec (.dlySample l r) s = .next t ∧ ∀ o ∈ [l, r], within one (readX t o) = true ∨
        ∃ n, s.free ≤ n ∧ n < t.free ∧ readX t o = Config.freeF32 n) ∧
    (prepared .sat s = true →
      ∃ t, exec (.satSample l r) s = .next t ∧ ∀ o ∈ [l, r], within one (readX t o) = true ∨
        ∃ n, s.free ≤ n ∧ n < t.free ∧ readX t o = Config.freeF32 n)

/-- A NaN or infinite input makes both outputs of an engine command free values; the command still
completes, and writes no other place than its rule names (20_memory.md R76; log 9). -/
def Obligations.NonFiniteInputIsFree : Prop :=
  ∀ (l r : Reg) (s : State), l ≠ r → isFinite (readX s l) = false ∨ isFinite (readX s r) = false →
    (prepared .dly s = true → engineHasSlots .dly s = true →
      ∃ t m n, exec (.dlySample l r) s = .next t ∧ Frame (dlyPlaces l r s) [13, 14, 15, 16] s t ∧
        s.free ≤ m ∧ m < n ∧ n < t.free ∧
        readX t l = Config.freeF32 m ∧ readX t r = Config.freeF32 n) ∧
    (prepared .sat s = true →
      ∃ t m n, exec (.satSample l r) s = .next t ∧ Frame (satPlaces l r s) [] s t ∧
        s.free ≤ m ∧ m < n ∧ n < t.free ∧
        readX t l = Config.freeF32 m ∧ readX t r = Config.freeF32 n) ∧
    (prepared .rev s = true → engineHasSlots .rev s = true →
      ∃ t m n, exec (.revSample l r) s = .next t ∧ Frame (revPlaces l r s) (revUnits s) s t ∧
        s.free ≤ m ∧ m < n ∧ n < t.free ∧
        readX t l = Config.freeF32 m ∧ readX t r = Config.freeF32 n)
end

