-- ==== Sys2Proof/Laws/State.lean ====
section
/-! SUPPORT. One lemma per field of the state per update: what each named update leaves in each field. -/

namespace Sys2Proof.Machine

variable (s : State)

/-! ## `writeX` -/

@[simp] theorem writeX_x (r : Reg) (v : F32) : (writeX s r v).x = s.x.set r.val v r.isLt := rfl
@[simp] theorem writeX_status (r : Reg) (v : F32) : (writeX s r v).status = s.status := rfl
@[simp] theorem writeX_finfo (r : Reg) (v : F32) : (writeX s r v).finfo = s.finfo := rfl
@[simp] theorem writeX_srateLo (r : Reg) (v : F32) : (writeX s r v).srateLo = s.srateLo := rfl
@[simp] theorem writeX_srateHi (r : Reg) (v : F32) : (writeX s r v).srateHi = s.srateHi := rfl
@[simp] theorem writeX_maxblkRev (r : Reg) (v : F32) : (writeX s r v).maxblkRev = s.maxblkRev := rfl
@[simp] theorem writeX_maxblkDly (r : Reg) (v : F32) : (writeX s r v).maxblkDly = s.maxblkDly := rfl
@[simp] theorem writeX_maxblkSat (r : Reg) (v : F32) : (writeX s r v).maxblkSat = s.maxblkSat := rfl
@[simp] theorem writeX_variant (r : Reg) (v : F32) : (writeX s r v).variant = s.variant := rfl
@[simp] theorem writeX_params (r : Reg) (v : F32) : (writeX s r v).params = s.params := rfl
@[simp] theorem writeX_rb (r : Reg) (v : F32) : (writeX s r v).rb = s.rb := rfl
@[simp] theorem writeX_fs (r : Reg) (v : F32) : (writeX s r v).fs = s.fs := rfl
@[simp] theorem writeX_shimPhase (r : Reg) (v : F32) : (writeX s r v).shimPhase = s.shimPhase := rfl
@[simp] theorem writeX_shimOut (r : Reg) (v : F32) : (writeX s r v).shimOut = s.shimOut := rfl
@[simp] theorem writeX_dlyPh1 (r : Reg) (v : F32) : (writeX s r v).dlyPh1 = s.dlyPh1 := rfl
@[simp] theorem writeX_dlyPh2 (r : Reg) (v : F32) : (writeX s r v).dlyPh2 = s.dlyPh2 := rfl
@[simp] theorem writeX_rateRev (r : Reg) (v : F32) : (writeX s r v).rateRev = s.rateRev := rfl
@[simp] theorem writeX_rateDly (r : Reg) (v : F32) : (writeX s r v).rateDly = s.rateDly := rfl
@[simp] theorem writeX_rateSat (r : Reg) (v : F32) : (writeX s r v).rateSat = s.rateSat := rfl
@[simp] theorem writeX_revc (r : Reg) (v : F32) : (writeX s r v).revc = s.revc := rfl
@[simp] theorem writeX_dlyc (r : Reg) (v : F32) : (writeX s r v).dlyc = s.dlyc := rfl
@[simp] theorem writeX_satc (r : Reg) (v : F32) : (writeX s r v).satc = s.satc := rfl
@[simp] theorem writeX_inbox (r : Reg) (v : F32) : (writeX s r v).inbox = s.inbox := rfl
@[simp] theorem writeX_resp (r : Reg) (v : F32) : (writeX s r v).resp = s.resp := rfl
@[simp] theorem writeX_free (r : Reg) (v : F32) : (writeX s r v).free = s.free := rfl

/-! ## `setRing` -/

@[simp] theorem setRing_x (u : RbUnit) (b : RingUnit) : (setRing s u b).x = s.x := rfl
@[simp] theorem setRing_status (u : RbUnit) (b : RingUnit) : (setRing s u b).status = s.status := rfl
@[simp] theorem setRing_finfo (u : RbUnit) (b : RingUnit) : (setRing s u b).finfo = s.finfo := rfl
@[simp] theorem setRing_srateLo (u : RbUnit) (b : RingUnit) : (setRing s u b).srateLo = s.srateLo := rfl
@[simp] theorem setRing_srateHi (u : RbUnit) (b : RingUnit) : (setRing s u b).srateHi = s.srateHi := rfl
@[simp] theorem setRing_maxblkRev (u : RbUnit) (b : RingUnit) : (setRing s u b).maxblkRev = s.maxblkRev := rfl
@[simp] theorem setRing_maxblkDly (u : RbUnit) (b : RingUnit) : (setRing s u b).maxblkDly = s.maxblkDly := rfl
@[simp] theorem setRing_maxblkSat (u : RbUnit) (b : RingUnit) : (setRing s u b).maxblkSat = s.maxblkSat := rfl
@[simp] theorem setRing_variant (u : RbUnit) (b : RingUnit) : (setRing s u b).variant = s.variant := rfl
@[simp] theorem setRing_params (u : RbUnit) (b : RingUnit) : (setRing s u b).params = s.params := rfl
@[simp] theorem setRing_rb (u : RbUnit) (b : RingUnit) : (setRing s u b).rb = s.rb.set u.val b u.isLt := rfl
@[simp] theorem setRing_fs (u : RbUnit) (b : RingUnit) : (setRing s u b).fs = s.fs := rfl
@[simp] theorem setRing_shimPhase (u : RbUnit) (b : RingUnit) : (setRing s u b).shimPhase = s.shimPhase := rfl
@[simp] theorem setRing_shimOut (u : RbUnit) (b : RingUnit) : (setRing s u b).shimOut = s.shimOut := rfl
@[simp] theorem setRing_dlyPh1 (u : RbUnit) (b : RingUnit) : (setRing s u b).dlyPh1 = s.dlyPh1 := rfl
@[simp] theorem setRing_dlyPh2 (u : RbUnit) (b : RingUnit) : (setRing s u b).dlyPh2 = s.dlyPh2 := rfl
@[simp] theorem setRing_rateRev (u : RbUnit) (b : RingUnit) : (setRing s u b).rateRev = s.rateRev := rfl
@[simp] theorem setRing_rateDly (u : RbUnit) (b : RingUnit) : (setRing s u b).rateDly = s.rateDly := rfl
@[simp] theorem setRing_rateSat (u : RbUnit) (b : RingUnit) : (setRing s u b).rateSat = s.rateSat := rfl
@[simp] theorem setRing_revc (u : RbUnit) (b : RingUnit) : (setRing s u b).revc = s.revc := rfl
@[simp] theorem setRing_dlyc (u : RbUnit) (b : RingUnit) : (setRing s u b).dlyc = s.dlyc := rfl
@[simp] theorem setRing_satc (u : RbUnit) (b : RingUnit) : (setRing s u b).satc = s.satc := rfl
@[simp] theorem setRing_inbox (u : RbUnit) (b : RingUnit) : (setRing s u b).inbox = s.inbox := rfl
@[simp] theorem setRing_resp (u : RbUnit) (b : RingUnit) : (setRing s u b).resp = s.resp := rfl
@[simp] theorem setRing_free (u : RbUnit) (b : RingUnit) : (setRing s u b).free = s.free := rfl

/-! ## `setFilter` -/

@[simp] theorem setFilter_x (f : FsUnit) (q : FilterUnit) : (setFilter s f q).x = s.x := rfl
@[simp] theorem setFilter_status (f : FsUnit) (q : FilterUnit) : (setFilter s f q).status = s.status := rfl
@[simp] theorem setFilter_finfo (f : FsUnit) (q : FilterUnit) : (setFilter s f q).finfo = s.finfo := rfl
@[simp] theorem setFilter_srateLo (f : FsUnit) (q : FilterUnit) : (setFilter s f q).srateLo = s.srateLo := rfl
@[simp] theorem setFilter_srateHi (f : FsUnit) (q : FilterUnit) : (setFilter s f q).srateHi = s.srateHi := rfl
@[simp] theorem setFilter_maxblkRev (f : FsUnit) (q : FilterUnit) : (setFilter s f q).maxblkRev = s.maxblkRev := rfl
@[simp] theorem setFilter_maxblkDly (f : FsUnit) (q : FilterUnit) : (setFilter s f q).maxblkDly = s.maxblkDly := rfl
@[simp] theorem setFilter_maxblkSat (f : FsUnit) (q : FilterUnit) : (setFilter s f q).maxblkSat = s.maxblkSat := rfl
@[simp] theorem setFilter_variant (f : FsUnit) (q : FilterUnit) : (setFilter s f q).variant = s.variant := rfl
@[simp] theorem setFilter_params (f : FsUnit) (q : FilterUnit) : (setFilter s f q).params = s.params := rfl
@[simp] theorem setFilter_rb (f : FsUnit) (q : FilterUnit) : (setFilter s f q).rb = s.rb := rfl
@[simp] theorem setFilter_fs (f : FsUnit) (q : FilterUnit) : (setFilter s f q).fs = s.fs.set f.val q f.isLt := rfl
@[simp] theorem setFilter_shimPhase (f : FsUnit) (q : FilterUnit) : (setFilter s f q).shimPhase = s.shimPhase := rfl
@[simp] theorem setFilter_shimOut (f : FsUnit) (q : FilterUnit) : (setFilter s f q).shimOut = s.shimOut := rfl
@[simp] theorem setFilter_dlyPh1 (f : FsUnit) (q : FilterUnit) : (setFilter s f q).dlyPh1 = s.dlyPh1 := rfl
@[simp] theorem setFilter_dlyPh2 (f : FsUnit) (q : FilterUnit) : (setFilter s f q).dlyPh2 = s.dlyPh2 := rfl
@[simp] theorem setFilter_rateRev (f : FsUnit) (q : FilterUnit) : (setFilter s f q).rateRev = s.rateRev := rfl
@[simp] theorem setFilter_rateDly (f : FsUnit) (q : FilterUnit) : (setFilter s f q).rateDly = s.rateDly := rfl
@[simp] theorem setFilter_rateSat (f : FsUnit) (q : FilterUnit) : (setFilter s f q).rateSat = s.rateSat := rfl
@[simp] theorem setFilter_revc (f : FsUnit) (q : FilterUnit) : (setFilter s f q).revc = s.revc := rfl
@[simp] theorem setFilter_dlyc (f : FsUnit) (q : FilterUnit) : (setFilter s f q).dlyc = s.dlyc := rfl
@[simp] theorem setFilter_satc (f : FsUnit) (q : FilterUnit) : (setFilter s f q).satc = s.satc := rfl
@[simp] theorem setFilter_inbox (f : FsUnit) (q : FilterUnit) : (setFilter s f q).inbox = s.inbox := rfl
@[simp] theorem setFilter_resp (f : FsUnit) (q : FilterUnit) : (setFilter s f q).resp = s.resp := rfl
@[simp] theorem setFilter_free (f : FsUnit) (q : FilterUnit) : (setFilter s f q).free = s.free := rfl

/-! ## `respond` -/

@[simp] theorem respond_x (v : Word32) : (respond s v).x = s.x := rfl
@[simp] theorem respond_status (v : Word32) : (respond s v).status = s.status := rfl
@[simp] theorem respond_finfo (v : Word32) : (respond s v).finfo = s.finfo := rfl
@[simp] theorem respond_srateLo (v : Word32) : (respond s v).srateLo = s.srateLo := rfl
@[simp] theorem respond_srateHi (v : Word32) : (respond s v).srateHi = s.srateHi := rfl
@[simp] theorem respond_maxblkRev (v : Word32) : (respond s v).maxblkRev = s.maxblkRev := rfl
@[simp] theorem respond_maxblkDly (v : Word32) : (respond s v).maxblkDly = s.maxblkDly := rfl
@[simp] theorem respond_maxblkSat (v : Word32) : (respond s v).maxblkSat = s.maxblkSat := rfl
@[simp] theorem respond_variant (v : Word32) : (respond s v).variant = s.variant := rfl
@[simp] theorem respond_params (v : Word32) : (respond s v).params = s.params := rfl
@[simp] theorem respond_rb (v : Word32) : (respond s v).rb = s.rb := rfl
@[simp] theorem respond_fs (v : Word32) : (respond s v).fs = s.fs := rfl
@[simp] theorem respond_shimPhase (v : Word32) : (respond s v).shimPhase = s.shimPhase := rfl
@[simp] theorem respond_shimOut (v : Word32) : (respond s v).shimOut = s.shimOut := rfl
@[simp] theorem respond_dlyPh1 (v : Word32) : (respond s v).dlyPh1 = s.dlyPh1 := rfl
@[simp] theorem respond_dlyPh2 (v : Word32) : (respond s v).dlyPh2 = s.dlyPh2 := rfl
@[simp] theorem respond_rateRev (v : Word32) : (respond s v).rateRev = s.rateRev := rfl
@[simp] theorem respond_rateDly (v : Word32) : (respond s v).rateDly = s.rateDly := rfl
@[simp] theorem respond_rateSat (v : Word32) : (respond s v).rateSat = s.rateSat := rfl
@[simp] theorem respond_revc (v : Word32) : (respond s v).revc = s.revc := rfl
@[simp] theorem respond_dlyc (v : Word32) : (respond s v).dlyc = s.dlyc := rfl
@[simp] theorem respond_satc (v : Word32) : (respond s v).satc = s.satc := rfl
@[simp] theorem respond_inbox (v : Word32) : (respond s v).inbox = s.inbox := rfl
@[simp] theorem respond_resp (v : Word32) : (respond s v).resp = v := rfl
@[simp] theorem respond_free (v : Word32) : (respond s v).free = s.free := rfl

/-! ## `raised` -/

@[simp] theorem raised_x (k : FaultCode) (w : Command) : (raised k w s).x = s.x := rfl
@[simp] theorem raised_status (k : FaultCode) (w : Command) : (raised k w s).status = statusFaulted k s.status := rfl
@[simp] theorem raised_finfo (k : FaultCode) (w : Command) : (raised k w s).finfo = w.extractLsb' 0 32 := rfl
@[simp] theorem raised_srateLo (k : FaultCode) (w : Command) : (raised k w s).srateLo = s.srateLo := rfl
@[simp] theorem raised_srateHi (k : FaultCode) (w : Command) : (raised k w s).srateHi = s.srateHi := rfl
@[simp] theorem raised_maxblkRev (k : FaultCode) (w : Command) : (raised k w s).maxblkRev = s.maxblkRev := rfl
@[simp] theorem raised_maxblkDly (k : FaultCode) (w : Command) : (raised k w s).maxblkDly = s.maxblkDly := rfl
@[simp] theorem raised_maxblkSat (k : FaultCode) (w : Command) : (raised k w s).maxblkSat = s.maxblkSat := rfl
@[simp] theorem raised_variant (k : FaultCode) (w : Command) : (raised k w s).variant = s.variant := rfl
@[simp] theorem raised_params (k : FaultCode) (w : Command) : (raised k w s).params = s.params := rfl
@[simp] theorem raised_rb (k : FaultCode) (w : Command) : (raised k w s).rb = s.rb := rfl
@[simp] theorem raised_fs (k : FaultCode) (w : Command) : (raised k w s).fs = s.fs := rfl
@[simp] theorem raised_shimPhase (k : FaultCode) (w : Command) : (raised k w s).shimPhase = s.shimPhase := rfl
@[simp] theorem raised_shimOut (k : FaultCode) (w : Command) : (raised k w s).shimOut = s.shimOut := rfl
@[simp] theorem raised_dlyPh1 (k : FaultCode) (w : Command) : (raised k w s).dlyPh1 = s.dlyPh1 := rfl
@[simp] theorem raised_dlyPh2 (k : FaultCode) (w : Command) : (raised k w s).dlyPh2 = s.dlyPh2 := rfl
@[simp] theorem raised_rateRev (k : FaultCode) (w : Command) : (raised k w s).rateRev = s.rateRev := rfl
@[simp] theorem raised_rateDly (k : FaultCode) (w : Command) : (raised k w s).rateDly = s.rateDly := rfl
@[simp] theorem raised_rateSat (k : FaultCode) (w : Command) : (raised k w s).rateSat = s.rateSat := rfl
@[simp] theorem raised_revc (k : FaultCode) (w : Command) : (raised k w s).revc = s.revc := rfl
@[simp] theorem raised_dlyc (k : FaultCode) (w : Command) : (raised k w s).dlyc = s.dlyc := rfl
@[simp] theorem raised_satc (k : FaultCode) (w : Command) : (raised k w s).satc = s.satc := rfl
@[simp] theorem raised_inbox (k : FaultCode) (w : Command) : (raised k w s).inbox = s.inbox := rfl
@[simp] theorem raised_resp (k : FaultCode) (w : Command) : (raised k w s).resp = 0 := rfl
@[simp] theorem raised_free (k : FaultCode) (w : Command) : (raised k w s).free = s.free := rfl

/-! ## `hardwareReset` -/

@[simp] theorem hardwareReset_x : (hardwareReset s).x = State.reset.x := rfl
@[simp] theorem hardwareReset_status : (hardwareReset s).status = State.reset.status := rfl
@[simp] theorem hardwareReset_finfo : (hardwareReset s).finfo = State.reset.finfo := rfl
@[simp] theorem hardwareReset_srateLo : (hardwareReset s).srateLo = State.reset.srateLo := rfl
@[simp] theorem hardwareReset_srateHi : (hardwareReset s).srateHi = State.reset.srateHi := rfl
@[simp] theorem hardwareReset_maxblkRev : (hardwareReset s).maxblkRev = State.reset.maxblkRev := rfl
@[simp] theorem hardwareReset_maxblkDly : (hardwareReset s).maxblkDly = State.reset.maxblkDly := rfl
@[simp] theorem hardwareReset_maxblkSat : (hardwareReset s).maxblkSat = State.reset.maxblkSat := rfl
@[simp] theorem hardwareReset_variant : (hardwareReset s).variant = State.reset.variant := rfl
@[simp] theorem hardwareReset_params : (hardwareReset s).params = State.reset.params := rfl
@[simp] theorem hardwareReset_rb : (hardwareReset s).rb = State.reset.rb := rfl
@[simp] theorem hardwareReset_fs : (hardwareReset s).fs = State.reset.fs := rfl
@[simp] theorem hardwareReset_shimPhase : (hardwareReset s).shimPhase = State.reset.shimPhase := rfl
@[simp] theorem hardwareReset_shimOut : (hardwareReset s).shimOut = State.reset.shimOut := rfl
@[simp] theorem hardwareReset_dlyPh1 : (hardwareReset s).dlyPh1 = State.reset.dlyPh1 := rfl
@[simp] theorem hardwareReset_dlyPh2 : (hardwareReset s).dlyPh2 = State.reset.dlyPh2 := rfl
@[simp] theorem hardwareReset_rateRev : (hardwareReset s).rateRev = State.reset.rateRev := rfl
@[simp] theorem hardwareReset_rateDly : (hardwareReset s).rateDly = State.reset.rateDly := rfl
@[simp] theorem hardwareReset_rateSat : (hardwareReset s).rateSat = State.reset.rateSat := rfl
@[simp] theorem hardwareReset_revc : (hardwareReset s).revc = State.reset.revc := rfl
@[simp] theorem hardwareReset_dlyc : (hardwareReset s).dlyc = State.reset.dlyc := rfl
@[simp] theorem hardwareReset_satc : (hardwareReset s).satc = State.reset.satc := rfl
@[simp] theorem hardwareReset_inbox : (hardwareReset s).inbox = s.inbox := rfl
@[simp] theorem hardwareReset_resp : (hardwareReset s).resp = State.reset.resp := rfl
@[simp] theorem hardwareReset_free : (hardwareReset s).free = s.free := rfl

end Sys2Proof.Machine
end

