-- ==== Sys2Proof/Laws/Memory.lean ====
section
/-! SUPPORT. The laws of ring-buffer storage: reading after writing, and that every operation keeps the
canonical form (`samplesWf`, `ringWf`, `Memory.wf`). -/

namespace Sys2Proof.Machine

/-! ## The sample list -/

/-- Reading a slot other than the written one. -/
theorem samplesRead_write_ne (m : Samples) {i j : Nat} (v : F32) (h : i ≠ j) :
    samplesRead (samplesWrite m i v) j = samplesRead m j := by
  induction m with
  | nil => by_cases hv : v = 0#32 <;> simp [samplesWrite, samplesRead, hv, h]
  | cons e rest ih =>
    obtain ⟨k, w⟩ := e
    by_cases hk : k = i
    · subst hk
      by_cases hv : v = 0#32 <;> simp [samplesWrite, samplesRead, hv, h]
    · by_cases hi : i < k
      · by_cases hv : v = 0#32 <;> simp [samplesWrite, samplesRead, hk, hi, hv, h]
      · simp [samplesWrite, samplesRead, hk, hi, ih]

/-- The canonical form, entry by entry: a listed sample is not `+0.0`, its slot is below the capacity
and below every later one. -/
theorem samplesWf_cons (cap i : Nat) (v : F32) (rest : Samples) :
    samplesWf cap ((i, v) :: rest) = true ↔
      v ≠ 0 ∧ i < cap ∧ (∀ e ∈ rest, i < e.1) ∧ samplesWf cap rest = true := by
  induction rest generalizing i v with
  | nil => simp [samplesWf]; tauto
  | cons e rest ih =>
    obtain ⟨j, w⟩ := e
    have step : samplesWf cap ((i, v) :: (j, w) :: rest) = true ↔
        i < j ∧ v ≠ 0 ∧ samplesWf cap ((j, w) :: rest) = true := by
      simp [samplesWf, and_assoc]
    rw [step, ih]
    constructor
    · rintro ⟨hij, hv, hw, hj, hall, hrest⟩
      refine ⟨hv, by omega, ?_, hw, hj, hall, hrest⟩
      intro e he
      rcases List.mem_cons.mp he with rfl | he
      · exact hij
      · have := hall e he
        omega
    · rintro ⟨hv, hi, hall, hw, hj, hrest⟩
      exact ⟨hall (j, w) (by simp), hv, hw, hj, hrest⟩

/-- A slot below every listed one holds `+0.0`. -/
theorem samplesRead_absent (m : Samples) (i : Nat) (h : ∀ e ∈ m, i < e.1) : samplesRead m i = 0 := by
  induction m with
  | nil => rfl
  | cons e rest ih =>
    obtain ⟨j, w⟩ := e
    have hj : i < j := h (j, w) (by simp)
    simp only [samplesRead]
    rw [if_neg (by omega)]
    exact ih fun e he => h e (by simp [he])

/-- Reading the written slot. -/
theorem samplesRead_write_same (cap : Nat) (m : Samples) (i : Nat) (v : F32)
    (h : samplesWf cap m = true) : samplesRead (samplesWrite m i v) i = v := by
  induction m with
  | nil =>
    by_cases hv : v = 0#32 <;> simp [samplesWrite, samplesRead, hv]
  | cons e rest ih =>
    obtain ⟨k, w⟩ := e
    obtain ⟨hw, hk, hall, hrest⟩ := (samplesWf_cons ..).mp h
    by_cases hki : k = i
    · subst hki
      by_cases hv : v = 0#32
      · simp [samplesWrite, hv, samplesRead_absent rest k hall]
      · simp [samplesWrite, samplesRead, hv]
    · by_cases hi : i < k
      · by_cases hv : v = 0#32
        · have hz : samplesRead rest i = 0 :=
            samplesRead_absent rest i fun e he => by have := hall e he; omega
          simp [samplesWrite, samplesRead, hki, hi, hv, hz]
        · simp [samplesWrite, samplesRead, hki, hi, hv]
      · simp [samplesWrite, samplesRead, hki, hi, ih hrest]

/-- Every entry of a written list is the written slot or was listed before. -/
theorem mem_samplesWrite (m : Samples) (i : Nat) (v : F32) (e : Nat × F32)
    (h : e ∈ samplesWrite m i v) : e = (i, v) ∧ v ≠ 0 ∨ e ∈ m := by
  induction m with
  | nil =>
    by_cases hv : v = 0#32
    · simp [samplesWrite, hv] at h
    · simp [samplesWrite, hv] at h; exact .inl ⟨h, hv⟩
  | cons f rest ih =>
    obtain ⟨k, w⟩ := f
    by_cases hk : k = i
    · by_cases hv : v = 0#32
      · simp [samplesWrite, hk, hv] at h; exact .inr (by simp [h])
      · simp [samplesWrite, hk, hv] at h
        rcases h with h | h
        · exact .inl ⟨h, hv⟩
        · exact .inr (by simp [h])
    · by_cases hi : i < k
      · by_cases hv : v = 0#32
        · simp [samplesWrite, hk, hi, hv] at h; exact .inr (by simpa using h)
        · simp [samplesWrite, hk, hi, hv] at h
          rcases h with h | h | h
          · exact .inl ⟨h, hv⟩
          · exact .inr (by simp [h])
          · exact .inr (by simp [h])
      · simp [samplesWrite, hk, hi] at h
        rcases h with h | h
        · exact .inr (by simp [h])
        · rcases ih h with h | h
          · exact .inl h
          · exact .inr (by simp [h])

/-- A write inside the capacity keeps the canonical form. -/
theorem samplesWrite_wf (cap : Nat) (m : Samples) (i : Nat) (v : F32) (hi : i < cap)
    (h : samplesWf cap m = true) : samplesWf cap (samplesWrite m i v) = true := by
  induction m with
  | nil => by_cases hv : v = 0#32 <;> simp [samplesWrite, samplesWf, hv, hi]
  | cons e rest ih =>
    obtain ⟨k, w⟩ := e
    obtain ⟨hw, hk, hall, hrest⟩ := (samplesWf_cons ..).mp h
    by_cases hki : k = i
    · subst hki
      by_cases hv : v = 0#32
      · simpa [samplesWrite, hv] using hrest
      · simpa [samplesWrite, hv] using (samplesWf_cons ..).mpr ⟨hv, hi, hall, hrest⟩
    · by_cases hlt : i < k
      · by_cases hv : v = 0#32
        · simpa [samplesWrite, hki, hlt, hv] using h
        · have hnew : samplesWf cap ((i, v) :: (k, w) :: rest) = true := by
            refine (samplesWf_cons ..).mpr ⟨hv, hi, ?_, h⟩
            intro e he
            rcases List.mem_cons.mp he with rfl | he
            · exact hlt
            · have := hall e he
              omega
          simpa [samplesWrite, hki, hlt, hv] using hnew
      · have hnew : samplesWf cap ((k, w) :: samplesWrite rest i v) = true := by
          refine (samplesWf_cons ..).mpr ⟨hw, hk, ?_, ih hrest⟩
          intro e he
          rcases mem_samplesWrite rest i v e he with ⟨rfl, -⟩ | he
          · show k < i
            omega
          · exact hall e he
        simpa [samplesWrite, hki, hlt] using hnew

/-- A second write to a slot replaces the first. -/
theorem samplesWrite_write (cap : Nat) (m : Samples) (i : Nat) (v w : F32)
    (h : samplesWf cap m = true) : samplesWrite (samplesWrite m i v) i w = samplesWrite m i w := by
  induction m with
  | nil => by_cases hv : v = 0#32 <;> by_cases hw : w = 0#32 <;> simp [samplesWrite, hv, hw]
  | cons e rest ih =>
    obtain ⟨k, u⟩ := e
    obtain ⟨hu, hk, hall, hrest⟩ := (samplesWf_cons ..).mp h
    by_cases hki : k = i
    · subst hki
      by_cases hv : v = 0#32
      · have hstay : ∀ x : F32, samplesWrite rest k x = if x = 0 then rest else (k, x) :: rest := by
          intro x
          cases rest with
          | nil => rfl
          | cons f tail =>
            obtain ⟨j, y⟩ := f
            have hj : k < j := hall (j, y) (by simp)
            simp only [samplesWrite]
            rw [if_neg (by omega), if_pos hj]
        simp [samplesWrite, hv, hstay]
      · simp [samplesWrite, hv]
    · by_cases hlt : i < k
      · by_cases hv : v = 0#32 <;> simp [samplesWrite, hki, hlt, hv]
      · simp [samplesWrite, hki, hlt, ih hrest]

/-! ## Units -/

@[simp] theorem memWrite_cap (b : RingUnit) (i : Nat) (v : F32) : (memWrite b i v).cap = b.cap := by
  simp only [memWrite]; split <;> rfl

@[simp] theorem memWrite_wr (b : RingUnit) (i : Nat) (v : F32) : (memWrite b i v).wr = b.wr := by
  simp only [memWrite]; split <;> rfl

/-- Reading a slot other than the written one. -/
theorem memRead_write_ne (b : RingUnit) {i j : Nat} (v : F32) (h : i ≠ j) :
    memRead (memWrite b i v) j = memRead b j := by
  simp only [memRead, memWrite]
  split
  · exact samplesRead_write_ne b.mem v h
  · rfl

/-- Reading the written slot. -/
theorem memRead_write_same (b : RingUnit) (i : Nat) (v : F32) (hi : i < b.cap)
    (h : ringWf b = true) : memRead (memWrite b i v) i = v := by
  simp only [ringWf, Bool.and_eq_true] at h
  simp only [memRead, memWrite, if_pos hi]
  exact samplesRead_write_same b.cap b.mem i v h.2

/-- A write keeps the unit well formed. -/
theorem memWrite_wf (b : RingUnit) (i : Nat) (v : F32) (h : ringWf b = true) :
    ringWf (memWrite b i v) = true := by
  simp only [ringWf, Bool.and_eq_true] at h ⊢
  refine ⟨by simpa using h.1, ?_⟩
  simp only [memWrite]
  split
  · next hi => exact samplesWrite_wf b.cap b.mem i v hi h.2
  · exact h.2

/-- A second write to a slot replaces the first. -/
theorem memWrite_write (b : RingUnit) (i : Nat) (v w : F32) (h : ringWf b = true) :
    memWrite (memWrite b i v) i w = memWrite b i w := by
  simp only [ringWf, Bool.and_eq_true] at h
  by_cases hi : i < b.cap
  · simp [memWrite, hi, samplesWrite_write b.cap b.mem i v w h.2]
  · simp [memWrite, hi]

/-- A fresh unit is well formed (40_ring_buffer.md R121). -/
theorem freshRing_wf (cap : Nat) (h : cap ≤ Config.rbCapMax) : ringWf (freshRing cap) = true := by
  have hwr : 0 < max cap 1 := by omega
  simp [ringWf, freshRing, samplesWf, h, hwr]

/-- Every slot of a fresh unit reads `+0.0`. -/
@[simp] theorem memRead_fresh (cap i : Nat) : memRead (freshRing cap) i = 0 := rfl

/-- The write cursor after a push stays inside the unit. -/
theorem nextWr_lt (b : RingUnit) (h : b.cap ≠ 0) : nextWr b < b.cap :=
  Nat.mod_lt _ (Nat.pos_of_ne_zero h)

end Sys2Proof.Machine
end

