-- ==== Sys2Proof/Laws/Places.lean ====
section
/-! SUPPORT. The laws of registers, units and places: reading back what was written, leaving the rest
alone, and keeping `Memory.wf`. -/

namespace Sys2Proof.Machine

/-! ## Registers and units -/

theorem readX_writeX (s : State) (d r : Reg) (v : F32) :
    readX (writeX s d v) r = if d = r then v else readX s r := by
  simp [readX, Vector.getElem_set, Fin.ext_iff]

@[simp] theorem readX_writeX_same (s : State) (d : Reg) (v : F32) : readX (writeX s d v) d = v := by
  simp [readX_writeX]

theorem ring_setRing (s : State) (a u : RbUnit) (b : RingUnit) :
    ring (setRing s a b) u = if a = u then b else ring s u := by
  simp [ring, Vector.getElem_set, Fin.ext_iff]

@[simp] theorem ring_setRing_same (s : State) (u : RbUnit) (b : RingUnit) :
    ring (setRing s u b) u = b := by
  simp [ring_setRing]

theorem filter_setFilter (s : State) (a f : FsUnit) (q : FilterUnit) :
    filter (setFilter s a q) f = if a = f then q else filter s f := by
  simp [filter, Vector.getElem_set, Fin.ext_iff]

@[simp] theorem filter_setFilter_same (s : State) (f : FsUnit) (q : FilterUnit) :
    filter (setFilter s f q) f = q := by
  simp [filter_setFilter]

@[simp] theorem readX_setRing (s : State) (u : RbUnit) (b : RingUnit) (r : Reg) :
    readX (setRing s u b) r = readX s r := rfl
@[simp] theorem readX_setFilter (s : State) (f : FsUnit) (q : FilterUnit) (r : Reg) :
    readX (setFilter s f q) r = readX s r := rfl
@[simp] theorem readX_respond (s : State) (v : Word32) (r : Reg) :
    readX (respond s v) r = readX s r := rfl
@[simp] theorem ring_writeX (s : State) (d : Reg) (v : F32) (u : RbUnit) :
    ring (writeX s d v) u = ring s u := rfl
@[simp] theorem ring_setFilter (s : State) (f : FsUnit) (q : FilterUnit) (u : RbUnit) :
    ring (setFilter s f q) u = ring s u := rfl
@[simp] theorem ring_respond (s : State) (v : Word32) (u : RbUnit) :
    ring (respond s v) u = ring s u := rfl
@[simp] theorem filter_writeX (s : State) (d : Reg) (v : F32) (f : FsUnit) :
    filter (writeX s d v) f = filter s f := rfl
@[simp] theorem filter_setRing (s : State) (u : RbUnit) (b : RingUnit) (f : FsUnit) :
    filter (setRing s u b) f = filter s f := rfl
@[simp] theorem filter_respond (s : State) (v : Word32) (f : FsUnit) :
    filter (respond s v) f = filter s f := rfl

theorem writeX_writeX (s : State) (d : Reg) (v w : F32) :
    writeX (writeX s d v) d w = writeX s d w := by
  simp [writeX]

theorem setFilter_setFilter (s : State) (f : FsUnit) (p q : FilterUnit) :
    setFilter (setFilter s f p) f q = setFilter s f q := by
  simp [setFilter]

theorem setRing_setRing (s : State) (u : RbUnit) (a b : RingUnit) :
    setRing (setRing s u a) u b = setRing s u b := by
  simp [setRing]

/-! ## Memory.wf -/

/-- Storage is canonical exactly when every unit is. -/
theorem wf_iff (s : State) : Memory.wf s = true ↔ ∀ u, ringWf (ring s u) = true := by
  simp only [Memory.wf, ring, Vector.all_eq_true]
  constructor
  · intro h u
    exact h u.val u.isLt
  · intro h i hi
    exact h ⟨i, hi⟩

theorem setRing_comm (s : State) {u v : RbUnit} (a b : RingUnit) (h : u ≠ v) :
    setRing (setRing s u a) v b = setRing (setRing s v b) u a := by
  have hv : u.val ≠ v.val := fun e => h (Fin.ext e)
  simp only [setRing]
  rw [Vector.set_comm _ _ hv]

/-- Replacing a unit by a well-formed one keeps storage canonical. -/
theorem setRing_memory_wf (s : State) (u : RbUnit) (b : RingUnit) (h : Memory.wf s = true)
    (hb : ringWf b = true) : Memory.wf (setRing s u b) = true := by
  rw [wf_iff] at h ⊢
  intro v
  rw [ring_setRing]
  split
  · exact hb
  · exact h v

/-- Storage is canonical after hardware reset. -/
theorem reset_memory_wf : Memory.wf State.reset = true := by
  rw [wf_iff]
  intro u
  have hr : ring State.reset u = { cap := 0, wr := 0, mem := [] } := by
    simp [ring, State.reset]
  rw [hr]
  decide

/-! ## Places -/

/-- A place that can be written: a slot needs to lie inside a canonical unit. -/
def placeOk (s : State) : Place → Prop
  | .slot u i => i < (ring s u).cap ∧ ringWf (ring s u) = true
  | _ => True

@[simp] theorem getRevc_putRevc (q : RevCache) (k : RevField) (v : F32) :
    getRevc (putRevc q k v) k = v := by
  cases k <;> rfl

theorem getRevc_putRevc_ne (q : RevCache) {k j : RevField} (v : F32) (h : k ≠ j) :
    getRevc (putRevc q k v) j = getRevc q j := by
  cases k <;> cases j <;> first | rfl | exact absurd rfl h

@[simp] theorem getDlyc_putDlyc (q : DlyCache) (k : DlyField) (v : F32) :
    getDlyc (putDlyc q k v) k = v := by
  cases k <;> rfl

theorem getDlyc_putDlyc_ne (q : DlyCache) {k j : DlyField} (v : F32) (h : k ≠ j) :
    getDlyc (putDlyc q k v) j = getDlyc q j := by
  cases k <;> cases j <;> first | rfl | exact absurd rfl h

@[simp] theorem putDlyc_hp (q : DlyCache) (k : DlyField) (v : F32) : (putDlyc q k v).hp = q.hp := by
  cases k <;> rfl

@[simp] theorem getSatc_putSatc (q : SatCache) (k : SatField) (v : F32) :
    getSatc (putSatc q k v) k = v := by
  cases k <;> rfl

theorem getSatc_putSatc_ne (q : SatCache) {k j : SatField} (v : F32) (h : k ≠ j) :
    getSatc (putSatc q k v) j = getSatc q j := by
  cases k <;> cases j <;> first | rfl | exact absurd rfl h

/-- A place reads what was written to it. -/
theorem getPlace_putPlace (s : State) (p : Place) (v : F32) (h : placeOk s p) :
    getPlace (putPlace s p v) p = v := by
  cases p with
  | slot u i => simpa [getPlace, putPlace] using memRead_write_same (ring s u) i v h.1 h.2
  | x r => simp [getPlace, putPlace]
  | fsX f => simp [getPlace, putPlace]
  | fsY f => simp [getPlace, putPlace]
  | _ => simp [getPlace, putPlace]

/-- A write to one place leaves every other place alone. -/
theorem getPlace_putPlace_ne (s : State) {p q : Place} (v : F32) (h : p ≠ q) :
    getPlace (putPlace s p v) q = getPlace s q := by
  cases p with
  | x r =>
    cases q with
    | x r' =>
      have hr : r ≠ r' := fun e => h (by rw [e])
      simp [getPlace, putPlace, readX_writeX, hr]
    | _ => rfl
  | slot u i =>
    cases q with
    | slot u' j =>
      by_cases hu : u = u'
      · subst hu
        have hij : i ≠ j := fun e => h (by rw [e])
        simpa [getPlace, putPlace] using memRead_write_ne (ring s u) v hij
      · simp [getPlace, putPlace, ring_setRing, hu]
    | _ => rfl
  | fsX f =>
    cases q with
    | fsX g =>
      have hf : f ≠ g := fun e => h (by rw [e])
      simp [getPlace, putPlace, filter_setFilter, hf]
    | fsY g =>
      by_cases hf : f = g
      · subst hf; simp [getPlace, putPlace]
      · simp [getPlace, putPlace, filter_setFilter, hf]
    | _ => rfl
  | fsY f =>
    cases q with
    | fsY g =>
      have hf : f ≠ g := fun e => h (by rw [e])
      simp [getPlace, putPlace, filter_setFilter, hf]
    | fsX g =>
      by_cases hf : f = g
      · subst hf; simp [getPlace, putPlace]
      · simp [getPlace, putPlace, filter_setFilter, hf]
    | _ => rfl
  | revc k =>
    cases q with
    | revc j =>
      have hk : k ≠ j := fun e => h (by rw [e])
      simp [getPlace, putPlace, getRevc_putRevc_ne _ _ hk]
    | _ => rfl
  | dlyc k =>
    cases q with
    | dlyc j =>
      have hk : k ≠ j := fun e => h (by rw [e])
      simp [getPlace, putPlace, getDlyc_putDlyc_ne _ _ hk]
    | _ => rfl
  | satc k =>
    cases q with
    | satc j =>
      have hk : k ≠ j := fun e => h (by rw [e])
      simp [getPlace, putPlace, getSatc_putSatc_ne _ _ hk]
    | _ => rfl
  | shimPhase => cases q <;> first | rfl | exact absurd rfl h
  | shimOut => cases q <;> first | rfl | exact absurd rfl h
  | dlyPh1 => cases q <;> first | rfl | exact absurd rfl h
  | dlyPh2 => cases q <;> first | rfl | exact absurd rfl h

@[simp] theorem control_putPlace (s : State) (p : Place) (v : F32) :
    control (putPlace s p v) = control s := by
  cases p <;> simp [control, putPlace]

@[simp] theorem putPlace_free (s : State) (p : Place) (v : F32) : (putPlace s p v).free = s.free := by
  cases p <;> rfl

@[simp] theorem putPlace_resp (s : State) (p : Place) (v : F32) : (putPlace s p v).resp = s.resp := by
  cases p <;> rfl

@[simp] theorem putPlace_params (s : State) (p : Place) (v : F32) :
    (putPlace s p v).params = s.params := by
  cases p <;> rfl

@[simp] theorem ring_putPlace_cap (s : State) (p : Place) (v : F32) (u : RbUnit) :
    (ring (putPlace s p v) u).cap = (ring s u).cap := by
  cases p with
  | slot a i =>
    by_cases h : a = u
    · subst h; simp [putPlace]
    · simp [putPlace, ring_setRing, h]
  | _ => rfl

@[simp] theorem ring_putPlace_wr (s : State) (p : Place) (v : F32) (u : RbUnit) :
    (ring (putPlace s p v) u).wr = (ring s u).wr := by
  cases p with
  | slot a i =>
    by_cases h : a = u
    · subst h; simp [putPlace]
    · simp [putPlace, ring_setRing, h]
  | _ => rfl

/-- Writing a place keeps storage canonical. -/
theorem putPlace_memory_wf (s : State) (p : Place) (v : F32) (h : Memory.wf s = true) :
    Memory.wf (putPlace s p v) = true := by
  cases p with
  | slot u i => exact setRing_memory_wf s u _ h (memWrite_wf _ i v ((wf_iff s).mp h u))
  | _ => exact h

/-! ## Frames -/

theorem Frame.refl (s : State) : Frame [] [] s s :=
  ⟨rfl, fun _ _ => rfl, fun _ => rfl, fun _ _ => rfl⟩

/-- A frame may name more places and more units. -/
theorem Frame.mono {ps qs : List Place} {us vs : List RbUnit} {s t : State} (h : Frame ps us s t)
    (hp : ps ⊆ qs) (hu : us ⊆ vs) : Frame qs vs s t :=
  ⟨h.control, fun p hn => h.place p fun hm => hn (hp hm), h.cap,
    fun u hn => h.wr u fun hm => hn (hu hm)⟩

/-- Frames compose. -/
theorem Frame.trans {ps qs : List Place} {us vs : List RbUnit} {s t r : State}
    (h : Frame ps us s t) (g : Frame qs vs t r) : Frame (ps ++ qs) (us ++ vs) s r := by
  refine ⟨g.control.trans h.control, ?_, fun u => (g.cap u).trans (h.cap u), ?_⟩
  · intro p hp
    rw [List.mem_append, not_or] at hp
    exact (g.place p hp.2).trans (h.place p hp.1)
  · intro u hu
    rw [List.mem_append, not_or] at hu
    exact (g.wr u hu.2).trans (h.wr u hu.1)

/-- Writing a place changes that place alone. -/
theorem putPlace_frame (s : State) (p : Place) (v : F32) : Frame [p] [] s (putPlace s p v) :=
  ⟨control_putPlace s p v,
    fun _ hq => getPlace_putPlace_ne s v fun e => hq (by simp [e]),
    fun u => ring_putPlace_cap s p v u, fun u _ => ring_putPlace_wr s p v u⟩

/-- Counting a free value changes no place. -/
theorem free_frame (s : State) (n : Nat) : Frame [] [] s { s with free := n } :=
  ⟨rfl, fun p _ => by cases p <;> rfl, fun _ => rfl, fun _ _ => rfl⟩

/-- The response is no place. -/
theorem respond_frame (s : State) (v : Word32) : Frame [] [] s (respond s v) :=
  ⟨rfl, fun p _ => by cases p <;> rfl, fun _ => rfl, fun _ _ => rfl⟩

/-- Settling a place changes that place alone. -/
theorem settlePlace_frame (ok : Bool) (s : State) (p : Place) :
    Frame [p] [] s (settlePlace ok s p) := by
  simp only [settlePlace]
  split
  · exact (Frame.refl s).mono (by simp) (by simp)
  · exact (putPlace_frame s p _).trans (free_frame _ _)

/-- Settling keeps storage canonical. -/
theorem settlePlace_memory_wf (ok : Bool) (s : State) (p : Place) (h : Memory.wf s = true) :
    Memory.wf (settlePlace ok s p) = true := by
  simp only [settlePlace]
  split
  · exact h
  · exact putPlace_memory_wf s p _ h

/-- Settling a list of places changes those places alone. -/
theorem settle_all_frame (ok : Bool) (ps : List Place) (s : State) :
    Frame ps [] s (ps.foldl (settlePlace ok) s) := by
  induction ps generalizing s with
  | nil => exact Frame.refl s
  | cons p ps ih => exact (settlePlace_frame ok s p).trans (ih _)

theorem settle_all_memory_wf (ok : Bool) (ps : List Place) (s : State) (h : Memory.wf s = true) :
    Memory.wf (ps.foldl (settlePlace ok) s) = true := by
  induction ps generalizing s with
  | nil => exact h
  | cons p ps ih => exact ih _ (settlePlace_memory_wf ok s p h)

/-- A free value is counted, so the counter never falls. -/
theorem settle_all_free (ok : Bool) (ps : List Place) (s : State) :
    s.free ≤ (ps.foldl (settlePlace ok) s).free := by
  induction ps generalizing s with
  | nil => exact Nat.le_refl _
  | cons p ps ih =>
    refine Nat.le_trans ?_ (ih _)
    simp only [settlePlace]
    split <;> simp

/-- If no free value was used, settling changed nothing. -/
theorem settle_all_eq (ok : Bool) (ps : List Place) (s : State)
    (h : (ps.foldl (settlePlace ok) s).free = s.free) : ps.foldl (settlePlace ok) s = s := by
  induction ps generalizing s with
  | nil => rfl
  | cons p ps ih =>
    simp only [List.foldl_cons] at h ⊢
    have hle := settle_all_free ok ps (settlePlace ok s p)
    have hs : settlePlace ok s p = s := by
      simp only [settlePlace] at hle h ⊢
      split
      · rfl
      · next hn =>
        rw [if_neg hn] at hle h
        simp only at hle h
        omega
    rw [hs] at h ⊢
    exact ih s h

/-! ## The end of a command -/

@[simp] theorem settlePlace_resp (ok : Bool) (s : State) (p : Place) :
    (settlePlace ok s p).resp = s.resp := by
  simp only [settlePlace]; split <;> simp

/-- The end of a command changes only the places the command wrote. -/
theorem finishWork_frame (w : Work) : Frame w.wrote [] w.st (finishWork w) :=
  settle_all_frame w.dom w.wrote w.st

theorem finishWork_memory_wf (w : Work) (h : Memory.wf w.st = true) :
    Memory.wf (finishWork w) = true :=
  settle_all_memory_wf w.dom w.wrote w.st h

/-- A command that used no free value leaves what it wrote. -/
theorem finishWork_eq (w : Work) (h : (finishWork w).free = w.st.free) : finishWork w = w.st :=
  settle_all_eq w.dom w.wrote w.st h

/-- After a command that used a non-finite value, every place it wrote holds the next free value in
turn (20_memory.md R76). -/
theorem settle_all_open (ps : List Place) (s : State) :
    (ps.foldl (settlePlace false) s).free = s.free + ps.length := by
  induction ps generalizing s with
  | nil => rfl
  | cons p ps ih =>
    simp only [List.foldl_cons, List.length_cons]
    rw [ih]
    simp only [settlePlace, Bool.false_and, Bool.false_eq_true, if_false]
    omega

theorem settle_all_open_reg (ps qs : List Place) (r : Reg) (s : State) (h : .x r ∉ qs) :
    readX ((ps ++ .x r :: qs).foldl (settlePlace false) s) r = Config.freeF32 (s.free + ps.length) := by
  have hq : ∀ t, readX (qs.foldl (settlePlace false) t) r = readX t r := fun t =>
    (settle_all_frame false qs t).place (.x r) h
  rw [List.foldl_append, List.foldl_cons, hq]
  simp only [settlePlace, Bool.false_and, Bool.false_eq_true, if_false, putPlace]
  rw [settle_all_open]
  exact readX_writeX_same _ _ _

/-- After a command, a register it wrote holds the number that was written, or a free value. -/
theorem settle_all_reg (ok : Bool) (ps : List Place) (r : Reg) (s : State) (h : .x r ∈ ps) :
    (readX (ps.foldl (settlePlace ok) s) r = readX s r ∧ isNaN (readX s r) = false) ∨
      ∃ n, s.free ≤ n ∧ n < (ps.foldl (settlePlace ok) s).free
        ∧ readX (ps.foldl (settlePlace ok) s) r = Config.freeF32 n := by
  have keep : ∀ (qs : List Place) (t : State),
      readX (qs.foldl (settlePlace ok) t) r = readX t r ∨
        ∃ n, t.free ≤ n ∧ n < (qs.foldl (settlePlace ok) t).free
          ∧ readX (qs.foldl (settlePlace ok) t) r = Config.freeF32 n := by
    intro qs
    induction qs with
    | nil => exact fun t => .inl rfl
    | cons q qs ih =>
      intro t
      simp only [List.foldl_cons]
      have hf : t.free ≤ (settlePlace ok t q).free := settle_all_free ok [q] t
      have hg := settle_all_free ok qs (settlePlace ok t q)
      rcases ih (settlePlace ok t q) with hk | ⟨n, h1, h2, h3⟩
      · rw [hk]
        simp only [settlePlace] at hg ⊢
        split
        · exact .inl rfl
        · next hn =>
          rw [if_neg hn] at hg
          by_cases hq : q = .x r
          · subst hq
            exact .inr ⟨t.free, Nat.le_refl _, hg, readX_writeX_same t r _⟩
          · exact .inl (getPlace_putPlace_ne t (Config.freeF32 t.free) hq)
      · exact .inr ⟨n, by omega, h2, h3⟩
  induction ps generalizing s with
  | nil => cases h
  | cons q qs ih =>
    simp only [List.foldl_cons]
    have hf : s.free ≤ (settlePlace ok s q).free := settle_all_free ok [q] s
    have hg := settle_all_free ok qs (settlePlace ok s q)
    by_cases hq : q = .x r
    · subst hq
      rcases keep qs (settlePlace ok s (.x r)) with hk | ⟨n, h1, h2, h3⟩
      · rw [hk]
        simp only [settlePlace] at hg ⊢
        split
        · next hc => exact .inl ⟨rfl, by simp only [Bool.and_eq_true] at hc; simpa [getPlace] using hc.2⟩
        · next hn =>
          rw [if_neg hn] at hg
          exact .inr ⟨s.free, Nat.le_refl _, hg, readX_writeX_same s r _⟩
      · exact .inr ⟨n, by omega, h2, h3⟩
    · have hm : .x r ∈ qs := by
        rcases List.mem_cons.mp h with e | e
        · exact absurd e.symm hq
        · exact e
      have hr : readX (settlePlace ok s q) r = readX s r :=
        (settlePlace_frame ok s q).place (.x r) (by simpa using Ne.symm hq)
      rcases ih (settlePlace ok s q) hm with ⟨h1, h2⟩ | ⟨n, h1, h2, h3⟩
      · exact .inl ⟨h1.trans hr, hr ▸ h2⟩
      · exact .inr ⟨n, by omega, h2, h3⟩

end Sys2Proof.Machine
end

