-- ==== Sys2Proof/Laws/Puts.lean ====
section
/-! SUPPORT. Writing places one after another and moving cursors: which of these commute. -/

namespace Sys2Proof.Machine

/-- A place that is a ring-buffer slot. -/
def Place.isSlot : Place → Bool
  | .slot _ _ => true
  | _ => false

theorem placeOk_of_not_slot (s : State) {p : Place} (h : p.isSlot = false) : placeOk s p := by
  cases p with
  | slot u i => cases h
  | _ => trivial

/-- A place up to the slot number: two places with different keys share no storage. -/
def Place.key : Place → Place
  | .slot u _ => .slot u 0
  | p => p

theorem ne_of_key {p q : Place} (h : p.key ≠ q.key) : p ≠ q := fun e => h (by rw [e])

/-- Writes to two places commute, unless both are slots of one unit. -/
theorem putPlace_comm (s : State) {p q : Place} (v w : F32) (hk : p.key ≠ q.key) :
    putPlace (putPlace s p v) q w = putPlace (putPlace s q w) p v := by
  have h : p ≠ q := ne_of_key hk
  cases p with
  | x r =>
    cases q with
    | x r' =>
      have hr : r.val ≠ r'.val := fun e => h (by rw [Fin.ext e])
      simp only [putPlace, writeX]
      rw [Vector.set_comm _ _ hr]
    | _ => rfl
  | slot u i =>
    cases q with
    | slot u' j =>
      have hu : u ≠ u' := fun e => hk (by rw [e]; rfl)
      simp only [putPlace, ring_setRing, hu, Ne.symm hu, if_false]
      exact setRing_comm _ _ _ hu
    | _ => rfl
  | fsX f =>
    cases q with
    | fsX g =>
      have hf : f ≠ g := fun e => h (by rw [e])
      have hv : f.val ≠ g.val := fun e => hf (Fin.ext e)
      simp only [putPlace, setFilter, filter]
      simp [hv, Ne.symm hv]
      rw [Vector.set_comm _ _ hv]
    | fsY g =>
      by_cases hf : f = g
      · subst hf
        simp [putPlace, setFilter, filter]
      · have hv : f.val ≠ g.val := fun e => hf (Fin.ext e)
        simp only [putPlace, setFilter, filter]
        simp [hv, Ne.symm hv]
        rw [Vector.set_comm _ _ hv]
    | _ => rfl
  | fsY f =>
    cases q with
    | fsY g =>
      have hf : f ≠ g := fun e => h (by rw [e])
      have hv : f.val ≠ g.val := fun e => hf (Fin.ext e)
      simp only [putPlace, setFilter, filter]
      simp [hv, Ne.symm hv]
      rw [Vector.set_comm _ _ hv]
    | fsX g =>
      by_cases hf : f = g
      · subst hf
        simp [putPlace, setFilter, filter]
      · have hv : f.val ≠ g.val := fun e => hf (Fin.ext e)
        simp only [putPlace, setFilter, filter]
        simp [hv, Ne.symm hv]
        rw [Vector.set_comm _ _ hv]
    | _ => rfl
  | revc k =>
    cases q with
    | revc j => cases k <;> cases j <;> first | rfl | exact absurd rfl h
    | _ => rfl
  | dlyc k =>
    cases q with
    | dlyc j => cases k <;> cases j <;> first | rfl | exact absurd rfl h
    | _ => rfl
  | satc k =>
    cases q with
    | satc j => cases k <;> cases j <;> first | rfl | exact absurd rfl h
    | _ => rfl
  | shimPhase => cases q <;> first | rfl | exact absurd rfl h
  | shimOut => cases q <;> first | rfl | exact absurd rfl h
  | dlyPh1 => cases q <;> first | rfl | exact absurd rfl h
  | dlyPh2 => cases q <;> first | rfl | exact absurd rfl h

/-- A second write to a place replaces the first. -/
theorem putPlace_putPlace (s : State) (p : Place) (v w : F32) (h : placeOk s p) :
    putPlace (putPlace s p v) p w = putPlace s p w := by
  cases p with
  | x r => simp [putPlace, writeX_writeX]
  | slot u i => simp [putPlace, setRing_setRing, memWrite_write _ _ _ _ h.2]
  | fsX f => simp [putPlace, setFilter_setFilter]
  | fsY f => simp [putPlace, setFilter_setFilter]
  | revc k => cases k <;> rfl
  | dlyc k => cases k <;> rfl
  | satc k => cases k <;> rfl
  | _ => rfl

theorem putPlace_free_comm (s : State) (p : Place) (v : F32) (n : Nat) :
    putPlace { s with free := n } p v = { putPlace s p v with free := n } := by
  cases p <;> rfl

/-- Several values written in order. -/
def putAll (ws : List (Place × F32)) (s : State) : State :=
  ws.foldl (fun s q => putPlace s q.1 q.2) s

theorem getPlace_putAll_ne (ws : List (Place × F32)) (s : State) (p : Place)
    (h : p ∉ ws.map Prod.fst) : getPlace (putAll ws s) p = getPlace s p := by
  induction ws generalizing s with
  | nil => rfl
  | cons q ws ih =>
    simp only [List.map_cons, List.mem_cons, not_or] at h
    show getPlace (putAll ws (putPlace s q.1 q.2)) p = _
    rw [ih _ h.2, getPlace_putPlace_ne _ _ (Ne.symm h.1)]

theorem putAll_free (ws : List (Place × F32)) (s : State) : (putAll ws s).free = s.free := by
  induction ws generalizing s with
  | nil => rfl
  | cons q ws ih =>
    show (putAll ws (putPlace s q.1 q.2)).free = _
    rw [ih, putPlace_free]

theorem putAll_free_comm (ws : List (Place × F32)) (s : State) (n : Nat) :
    putAll ws { s with free := n } = { putAll ws s with free := n } := by
  induction ws generalizing s with
  | nil => rfl
  | cons q ws ih =>
    show putAll ws (putPlace { s with free := n } q.1 q.2) = _
    rw [putPlace_free_comm, ih]
    rfl

theorem putPlace_putAll_comm (ws : List (Place × F32)) (s : State) (p : Place) (v : F32)
    (h : ∀ q ∈ ws, p.key ≠ q.1.key) : putPlace (putAll ws s) p v = putAll ws (putPlace s p v) := by
  induction ws generalizing s with
  | nil => rfl
  | cons q ws ih =>
    show putPlace (putAll ws (putPlace s q.1 q.2)) p v = putAll ws (putPlace (putPlace s p v) q.1 q.2)
    rw [ih _ fun r hr => h r (by simp [hr]), putPlace_comm s v q.2 (h q (by simp))]

theorem putAll_append (ws vs : List (Place × F32)) (s : State) :
    putAll (ws ++ vs) s = putAll vs (putAll ws s) :=
  List.foldl_append

/-! ## Advancing cursors -/

theorem advanced_append (us vs : List RbUnit) (s : State) :
    advanced (us ++ vs) s = advanced vs (advanced us s) :=
  List.foldl_append

theorem memWrite_setWr (b : RingUnit) (n i : Nat) (v : F32) :
    memWrite { b with wr := n } i v = { memWrite b i v with wr := n } := by
  simp only [memWrite]
  split <;> rfl

/-- A cursor moves independently of what is written. -/
theorem advance_putPlace (s : State) (u : RbUnit) (p : Place) (v : F32) :
    advanced [u] (putPlace s p v) = putPlace (advanced [u] s) p v := by
  cases p with
  | slot a i =>
    by_cases ha : a = u
    · subst ha
      simp [advanced, putPlace, setRing_setRing, nextWr, memWrite_setWr]
    · simp only [advanced, List.foldl_cons, List.foldl_nil, putPlace, ring_setRing, ha, Ne.symm ha,
        if_false]
      exact setRing_comm _ _ _ ha
  | _ => rfl

theorem advanced_putAll (us : List RbUnit) (ws : List (Place × F32)) (s : State) :
    advanced us (putAll ws s) = putAll ws (advanced us s) := by
  induction us generalizing s with
  | nil => rfl
  | cons u us ih =>
    have one : ∀ (ws : List (Place × F32)) (s : State),
        advanced [u] (putAll ws s) = putAll ws (advanced [u] s) := by
      intro ws
      induction ws with
      | nil => intro s; rfl
      | cons q ws ihw =>
        intro s
        show advanced [u] (putAll ws (putPlace s q.1 q.2)) = putAll ws (putPlace (advanced [u] s) q.1 q.2)
        rw [ihw, advance_putPlace]
    show advanced us (advanced [u] (putAll ws s)) = putAll ws (advanced us (advanced [u] s))
    rw [one, ih]

theorem advanced_cap (us : List RbUnit) (s : State) (a : RbUnit) :
    (ring (advanced us s) a).cap = (ring s a).cap := by
  induction us generalizing s with
  | nil => rfl
  | cons u us ih =>
    show (ring (advanced us (setRing s u { ring s u with wr := nextWr (ring s u) })) a).cap = _
    rw [ih, ring_setRing]
    split
    · next h => subst h; rfl
    · rfl

theorem advanced_mem (us : List RbUnit) (s : State) (a : RbUnit) :
    (ring (advanced us s) a).mem = (ring s a).mem := by
  induction us generalizing s with
  | nil => rfl
  | cons u us ih =>
    show (ring (advanced us (setRing s u { ring s u with wr := nextWr (ring s u) })) a).mem = _
    rw [ih, ring_setRing]
    split
    · next h => subst h; rfl
    · rfl

theorem valuesAt_append (ps qs : List Place) (t : State) :
    valuesAt (ps ++ qs) t = valuesAt ps t ++ valuesAt qs t :=
  List.map_append

theorem valuesAt_congr {ps : List Place} {s t : State} (h : ∀ p ∈ ps, getPlace s p = getPlace t p) :
    valuesAt ps s = valuesAt ps t :=
  List.map_congr_left fun p hp => by rw [h p hp]

theorem valuesAt_fst (ps : List Place) (t : State) : (valuesAt ps t).map Prod.fst = ps := by
  simp [valuesAt, Function.comp_def]

theorem nodup_of_key {ps : List Place} (h : (ps.map Place.key).Nodup) : ps.Nodup :=
  List.Nodup.of_map _ h

/-- Moving the cursors of units with slots keeps the storage canonical. -/
theorem advanced_wf (us : List RbUnit) (s : State) (hu : ∀ u ∈ us, (ring s u).cap ≠ 0)
    (h : Memory.wf s = true) : Memory.wf (advanced us s) = true := by
  induction us generalizing s with
  | nil => exact h
  | cons u us ih =>
    show Memory.wf (advanced us (advanced [u] s)) = true
    refine ih _ (fun a ha => by rw [advanced_cap]; exact hu a (by simp [ha])) ?_
    have hr := (wf_iff _).mp h u
    have hn := nextWr_lt (ring s u) (hu u (by simp))
    refine setRing_memory_wf _ _ _ h ?_
    simp only [ringWf, Bool.and_eq_true, decide_eq_true_eq] at hr ⊢
    exact ⟨⟨hr.1.1, by omega⟩, hr.2⟩

end Sys2Proof.Machine
end

