-- ==== Sys2Proof/Laws/Work.lean ====
section
/-! SUPPORT. One lemma per shared operation of a command in flight: what it answers, what state it
leaves, which places it notes as written, and whether it saw only finite values. -/

namespace Sys2Proof.Machine

open Config (Cfg)

/-! ## Reading, writing, pushing -/

@[simp] theorem startWork_st (s : State) : (startWork s).st = s := rfl
@[simp] theorem startWork_dom (s : State) : (startWork s).dom = true := rfl
@[simp] theorem startWork_wrote (s : State) : (startWork s).wrote = [] := rfl

@[simp] theorem seeValue_st (w : Work) (v : F32) : (seeValue w v).st = w.st := rfl
@[simp] theorem seeValue_dom (w : Work) (v : F32) : (seeValue w v).dom = (w.dom && isFinite v) := rfl
@[simp] theorem seeValue_wrote (w : Work) (v : F32) : (seeValue w v).wrote = w.wrote := rfl

@[simp] theorem readPlace_fst (w : Work) (p : Place) : (readPlace w p).1 = getPlace w.st p := rfl
@[simp] theorem readPlace_snd (w : Work) (p : Place) :
    (readPlace w p).2 = seeValue w (getPlace w.st p) := rfl

@[simp] theorem writePlace_st (w : Work) (p : Place) (v : F32) :
    (writePlace w p v).st = putPlace w.st p v := rfl
@[simp] theorem writePlace_dom (w : Work) (p : Place) (v : F32) : (writePlace w p v).dom = w.dom := rfl
@[simp] theorem writePlace_wrote (w : Work) (p : Place) (v : F32) :
    (writePlace w p v).wrote = w.wrote ++ [p] := rfl

/-- A push writes the slot at the cursor and advances the cursor (40_ring_buffer.md R123). -/
@[simp] theorem pushWork_st (w : Work) (u : RbUnit) (v : F32) :
    (pushWork w u v).st = setRing w.st u (pushRing (ring w.st u) v) := by
  simp [pushWork, putPlace, setRing_setRing, pushRing, nextWr]
@[simp] theorem pushWork_dom (w : Work) (u : RbUnit) (v : F32) : (pushWork w u v).dom = w.dom := rfl
@[simp] theorem pushWork_wrote (w : Work) (u : RbUnit) (v : F32) :
    (pushWork w u v).wrote = w.wrote ++ [.slot u (ring w.st u).wr] := rfl

@[simp] theorem oldestWork_fst (w : Work) (u : RbUnit) :
    (oldestWork w u).1 = oldest (ring w.st u) := rfl
@[simp] theorem oldestWork_snd (w : Work) (u : RbUnit) :
    (oldestWork w u).2 = seeValue w (oldest (ring w.st u)) := rfl

/-! ## Interpolated reads: they answer the value of the unit and change no state -/

@[simp] theorem rdiWork_fst (w : Work) (u : RbUnit) (d : F32) :
    (rdiWork w u d).1 = rdiValue (ring w.st u) d := rfl
@[simp] theorem rdiWork_st (w : Work) (u : RbUnit) (d : F32) : (rdiWork w u d).2.st = w.st := rfl
@[simp] theorem rdiWork_wrote (w : Work) (u : RbUnit) (d : F32) :
    (rdiWork w u d).2.wrote = w.wrote := rfl
@[simp] theorem rdiWork_dom (w : Work) (u : RbUnit) (d : F32) :
    (rdiWork w u d).2.dom = (w.dom && slotsOk (ring w.st u) (rdiSlots (ring w.st u) d)) := by
  simp [rdiWork, slotsOk, rdiSlots, getPlace]

@[simp] theorem rdlWork_fst (w : Work) (u : RbUnit) (d : F32) :
    (rdlWork w u d).1 = rdlValue (ring w.st u) d := rfl
@[simp] theorem rdlWork_st (w : Work) (u : RbUnit) (d : F32) : (rdlWork w u d).2.st = w.st := rfl
@[simp] theorem rdlWork_wrote (w : Work) (u : RbUnit) (d : F32) :
    (rdlWork w u d).2.wrote = w.wrote := rfl
@[simp] theorem rdlWork_dom (w : Work) (u : RbUnit) (d : F32) :
    (rdlWork w u d).2.dom = (w.dom && slotsOk (ring w.st u) (rdlSlots (ring w.st u) d)) := by
  simp [rdlWork, slotsOk, rdlSlots, getPlace, Bool.and_assoc]

@[simp] theorem rdcWork_fst (w : Work) (u : RbUnit) (d : F32) :
    (rdcWork w u d).1 = rdcValue (ring w.st u) d := rfl
@[simp] theorem rdcWork_st (w : Work) (u : RbUnit) (d : F32) : (rdcWork w u d).2.st = w.st := rfl
@[simp] theorem rdcWork_wrote (w : Work) (u : RbUnit) (d : F32) :
    (rdcWork w u d).2.wrote = w.wrote := rfl
@[simp] theorem rdcWork_dom (w : Work) (u : RbUnit) (d : F32) :
    (rdcWork w u d).2.dom = (w.dom && slotsOk (ring w.st u) (rdcSlots (ring w.st u) d)) := by
  simp [rdcWork, slotsOk, rdcSlots, getPlace, Bool.and_assoc]

@[simp] theorem rdpWork_fst (w : Work) (u : RbUnit) (p : F32) :
    (rdpWork w u p).1 = rdpValue (ring w.st u) p := rfl
@[simp] theorem rdpWork_st (w : Work) (u : RbUnit) (p : F32) : (rdpWork w u p).2.st = w.st := rfl
@[simp] theorem rdpWork_wrote (w : Work) (u : RbUnit) (p : F32) :
    (rdpWork w u p).2.wrote = w.wrote := rfl
@[simp] theorem rdpWork_dom (w : Work) (u : RbUnit) (p : F32) :
    (rdpWork w u p).2.dom = (w.dom && slotsOk (ring w.st u) (rdpSlots (ring w.st u) p)) := by
  simp [rdpWork, slotsOk, rdpSlots, getPlace, Bool.and_assoc]

/-! ## Allpass and filters -/

@[simp] theorem apWork_fst (w : Work) (u : RbUnit) (v g : F32) :
    (apWork w u v g).1 = apOut (ring w.st u) v g := rfl
@[simp] theorem apWork_st (w : Work) (u : RbUnit) (v g : F32) :
    (apWork w u v g).2.st = setRing w.st u (pushRing (ring w.st u) (apStored (ring w.st u) v g)) :=
  pushWork_st ..
@[simp] theorem apWork_wrote (w : Work) (u : RbUnit) (v g : F32) :
    (apWork w u v g).2.wrote = w.wrote ++ [.slot u (ring w.st u).wr] := rfl
@[simp] theorem apWork_dom (w : Work) (u : RbUnit) (v g : F32) :
    (apWork w u v g).2.dom = (w.dom && isFinite (oldest (ring w.st u))) := rfl

@[simp] theorem writeFilter_st (w : Work) (f : FsUnit) (x y : F32) :
    (writeFilter w f x y).st = setFilter w.st f { x1 := x, y1 := y } := by
  simp [writeFilter, putPlace, setFilter_setFilter]
@[simp] theorem writeFilter_wrote (w : Work) (f : FsUnit) (x y : F32) :
    (writeFilter w f x y).wrote = w.wrote ++ [.fsX f, .fsY f] := by
  simp [writeFilter]
@[simp] theorem writeFilter_dom (w : Work) (f : FsUnit) (x y : F32) :
    (writeFilter w f x y).dom = w.dom := rfl

@[simp] theorem lpWork_fst (w : Work) (f : FsUnit) (x a : F32) :
    (lpWork w f x a).1 = lpOut (filter w.st f) x a := rfl
@[simp] theorem lpWork_st (w : Work) (f : FsUnit) (x a : F32) :
    (lpWork w f x a).2.st = setFilter w.st f { x1 := x, y1 := lpOut (filter w.st f) x a } :=
  writeFilter_st ..
@[simp] theorem lpWork_wrote (w : Work) (f : FsUnit) (x a : F32) :
    (lpWork w f x a).2.wrote = w.wrote ++ [.fsX f, .fsY f] :=
  writeFilter_wrote ..
@[simp] theorem lpWork_dom (w : Work) (f : FsUnit) (x a : F32) :
    (lpWork w f x a).2.dom = (w.dom && isFinite (filter w.st f).y1) := rfl

@[simp] theorem hpWork_fst (w : Work) (f : FsUnit) (x a : F32) :
    (hpWork w f x a).1 = fsub x (lpOut (filter w.st f) x a) := rfl
@[simp] theorem hpWork_snd (w : Work) (f : FsUnit) (x a : F32) :
    (hpWork w f x a).2 = (lpWork w f x a).2 := rfl

@[simp] theorem dcbWork_fst (w : Work) (f : FsUnit) (x r : F32) :
    (dcbWork w f x r).1 = dcbOut (filter w.st f) x r := rfl
@[simp] theorem dcbWork_st (w : Work) (f : FsUnit) (x r : F32) :
    (dcbWork w f x r).2.st = setFilter w.st f { x1 := x, y1 := dcbOut (filter w.st f) x r } :=
  writeFilter_st ..
@[simp] theorem dcbWork_wrote (w : Work) (f : FsUnit) (x r : F32) :
    (dcbWork w f x r).2.wrote = w.wrote ++ [.fsX f, .fsY f] :=
  writeFilter_wrote ..
@[simp] theorem dcbWork_dom (w : Work) (f : FsUnit) (x r : F32) :
    (dcbWork w f x r).2.dom
      = (w.dom && (isFinite (filter w.st f).x1 && isFinite (filter w.st f).y1)) := by
  simp [dcbWork, getPlace, Bool.and_assoc]

/-! ## Tone-tilt filters -/

@[simp] theorem chUnit_left (a b : FsUnit) : chUnit .left a b = a := rfl
@[simp] theorem chUnit_right (a b : FsUnit) : chUnit .right a b = b := rfl

theorem tiltRevWork_fst (c : Cfg) (w : Work) (ch : Channel) (v : F32) :
    (tiltRevWork c w ch v).1 = tiltRevOut c w.st.params.revTone v
      (lpOut (filter w.st (chUnit ch 4 5)) v w.st.revc.aLo)
      (lpOut (filter w.st (chUnit ch 6 7)) v w.st.revc.aHi) := by
  cases ch <;> simp only [tiltRevWork, tiltRevOut, readPlace, chUnit] <;> split <;>
    first | (split <;> simp [getPlace, filter_setFilter, getRevc]) | simp [getPlace, getRevc]

theorem tiltRevWork_snd (c : Cfg) (w : Work) (ch : Channel) (v : F32) :
    (tiltRevWork c w ch v).2
      = (lpWork (seeValue (lpWork (seeValue w w.st.revc.aLo) (chUnit ch 4 5) v w.st.revc.aLo).2
          w.st.revc.aHi) (chUnit ch 6 7) v w.st.revc.aHi).2 := by
  simp only [tiltRevWork]
  split
  · rfl
  · split <;> rfl

theorem tiltDlyWork_fst (w : Work) (ch : Channel) (v : F32) :
    (tiltDlyWork w ch v).1 = tiltDlyOut w.st.dlyc.hp w.st.params.dlyTone v
      (lpOut (filter w.st (chUnit ch 10 11)) v w.st.dlyc.aTone) := by
  have hp : (lpWork (seeValue w w.st.dlyc.aTone) (chUnit ch 10 11) v w.st.dlyc.aTone).2.st.dlyc.hp
      = w.st.dlyc.hp := by simp
  simp only [tiltDlyWork, tiltDlyOut, readPlace, getPlace, getDlyc, hp]
  split <;> rfl

theorem tiltDlyWork_snd (w : Work) (ch : Channel) (v : F32) :
    (tiltDlyWork w ch v).2
      = (lpWork (seeValue w w.st.dlyc.aTone) (chUnit ch 10 11) v w.st.dlyc.aTone).2 := by
  have hp : (lpWork (seeValue w w.st.dlyc.aTone) (chUnit ch 10 11) v w.st.dlyc.aTone).2.st.dlyc.hp
      = w.st.dlyc.hp := by simp
  simp only [tiltDlyWork, readPlace, getPlace, getDlyc, hp]
  split <;> rfl

theorem tiltSatWork_fst (c : Cfg) (w : Work) (ch : Channel) (v : F32) :
    (tiltSatWork c w ch v).1 = tiltSatOut c w.st.params.satTone v
      (lpOut (filter w.st (chUnit ch 16 17)) v w.st.satc.aTone) := by
  simp only [tiltSatWork, tiltSatOut, readPlace]
  split
  · rfl
  · split <;> rfl

theorem tiltSatWork_snd (c : Cfg) (w : Work) (ch : Channel) (v : F32) :
    (tiltSatWork c w ch v).2
      = (lpWork (seeValue w w.st.satc.aTone) (chUnit ch 16 17) v w.st.satc.aTone).2 := by
  simp only [tiltSatWork, readPlace]
  split
  · rfl
  · split <;> rfl

/-! ## What a command in flight has done so far -/

/-- From `w` to `w'` the command wrote the places `ps` and advanced the cursors of `us`, and nothing
else; storage stays canonical if every pushed unit has slots, and then the state is the one before with the
cursors advanced and the values put. -/
structure Moves (w w' : Work) (ps : List Place) (us : List RbUnit) : Prop where
  wrote : w'.wrote = w.wrote ++ ps
  frame : Frame ps us w.st w'.st
  free  : w'.st.free = w.st.free
  resp  : w'.st.resp = w.st.resp
  wf    : (∀ u ∈ us, (ring w.st u).cap ≠ 0) → Memory.wf w.st = true → Memory.wf w'.st = true
  adv   : us.Nodup → ∀ u ∈ us, (ring w'.st u).wr = nextWr (ring w.st u)
  dom   : w'.dom = true → w.dom = true
  st    : Memory.wf w.st = true → (∀ u ∈ us, (ring w.st u).cap ≠ 0) → ps.Nodup →
    w'.st = putAll (valuesAt ps w'.st) (advanced us w.st)

theorem Moves.refl (w : Work) : Moves w w [] [] :=
  ⟨by simp, Frame.refl _, rfl, rfl, fun _ h => h, by simp, by simp_all, fun _ _ _ => rfl⟩

theorem nextWr_congr {a b : RingUnit} (hc : a.cap = b.cap) (hw : a.wr = b.wr) : nextWr a = nextWr b := by
  simp only [nextWr, hc, hw]

theorem Moves.trans {w a b : Work} {ps qs : List Place} {us vs : List RbUnit}
    (h : Moves w a ps us) (g : Moves a b qs vs) : Moves w b (ps ++ qs) (us ++ vs) where
  wrote := by rw [g.wrote, h.wrote, List.append_assoc]
  frame := h.frame.trans g.frame
  free  := g.free.trans h.free
  resp  := g.resp.trans h.resp
  wf    := fun hc hw => g.wf
    (fun u hu => by rw [h.frame.cap]; exact hc u (by simp [hu]))
    (h.wf (fun u hu => hc u (by simp [hu])) hw)
  adv   := fun hn u hu => by
    obtain ⟨h1, h2, h3⟩ := List.nodup_append.mp hn
    rcases List.mem_append.mp hu with hm | hm
    · rw [g.frame.wr u fun hv => h3 u hm u hv rfl]
      exact h.adv h1 u hm
    · rw [g.adv h2 u hm]
      exact nextWr_congr (h.frame.cap u) (h.frame.wr u fun hv => h3 u hv u hm rfl)
  dom   := fun hd => h.dom (g.dom hd)
  st    := fun hw hc hn => by
    obtain ⟨h1, h2, h3⟩ := List.nodup_append.mp hn
    have ha := h.st hw (fun u hu => hc u (by simp [hu])) h1
    have hb := g.st (h.wf (fun u hu => hc u (by simp [hu])) hw)
      (fun u hu => by rw [h.frame.cap]; exact hc u (by simp [hu])) h2
    have hv : valuesAt ps a.st = valuesAt ps b.st :=
      valuesAt_congr fun p hp => (g.frame.place p fun hq => h3 p hp p hq rfl).symm
    rw [valuesAt_append, putAll_append, advanced_append, ← advanced_putAll, ← hv, ← ha]
    exact hb

theorem Moves.cast {w w' : Work} {ps qs : List Place} {us vs : List RbUnit} (h : Moves w w' ps us)
    (hp : ps = qs) (hu : us = vs) : Moves w w' qs vs := hp ▸ hu ▸ h

theorem seeValue_moves (w : Work) (v : F32) : Moves w (seeValue w v) [] [] :=
  ⟨by simp, Frame.refl _, rfl, rfl, fun _ h => h, by simp, by simp_all, fun _ _ _ => rfl⟩

/-- Slots are written by pushes alone. -/
theorem writePlace_moves (w : Work) (p : Place) (v : F32) (hp : p.isSlot = false := by rfl) :
    Moves w (writePlace w p v) [p] [] :=
  ⟨rfl, putPlace_frame _ _ _, putPlace_free _ _ _, putPlace_resp _ _ _,
    fun _ h => putPlace_memory_wf _ _ _ h, by simp, fun h => h, fun _ _ _ => by
      show putPlace w.st p v = putPlace w.st p (getPlace (putPlace w.st p v) p)
      rw [getPlace_putPlace _ _ _ (placeOk_of_not_slot _ hp)]⟩

/-- A push keeps a unit with slots well formed. -/
theorem pushRing_wf (b : RingUnit) (v : F32) (hc : b.cap ≠ 0) (h : ringWf b = true) :
    ringWf (pushRing b v) = true := by
  have hm := memWrite_wf b b.wr v h
  have hn := nextWr_lt b hc
  simp only [ringWf, Bool.and_eq_true, decide_eq_true_eq, memWrite_cap, memWrite_wr] at hm
  simp only [pushRing, ringWf, Bool.and_eq_true, decide_eq_true_eq, memWrite_cap]
  exact ⟨⟨hm.1.1, by omega⟩, hm.2⟩

@[simp] theorem pushRing_cap (b : RingUnit) (v : F32) : (pushRing b v).cap = b.cap := by
  simp [pushRing]

@[simp] theorem pushRing_wr (b : RingUnit) (v : F32) : (pushRing b v).wr = nextWr b := rfl

/-- A push leaves every other slot alone. -/
theorem memRead_push_ne (b : RingUnit) (v : F32) {i : Nat} (h : i ≠ b.wr) :
    memRead (pushRing b v) i = memRead b i :=
  memRead_write_ne b v (Ne.symm h)

/-- A push puts the value in the slot at the cursor. -/
theorem memRead_push_same (b : RingUnit) (v : F32) (hi : b.wr < b.cap) (h : ringWf b = true) :
    memRead (pushRing b v) b.wr = v :=
  memRead_write_same b b.wr v hi h

theorem pushRing_frame (s : State) (u : RbUnit) (v : F32) :
    Frame [.slot u (ring s u).wr] [u] s (setRing s u (pushRing (ring s u) v)) := by
  refine ⟨rfl, ?_, ?_, ?_⟩
  · intro p hp
    cases p with
    | slot a i =>
      by_cases ha : u = a
      · subst ha
        have hi : i ≠ (ring s u).wr := fun e => hp (by simp [e])
        simpa [getPlace] using memRead_push_ne (ring s u) v hi
      · simp [getPlace, ring_setRing, ha]
    | _ => rfl
  · intro a
    rw [ring_setRing]
    split
    · next h => subst h; simp
    · rfl
  · intro a ha
    have : u ≠ a := fun e => ha (by simp [e])
    simp [ring_setRing, this]

theorem pushWork_moves (w : Work) (u : RbUnit) (v : F32) :
    Moves w (pushWork w u v) [.slot u (ring w.st u).wr] [u] where
  wrote := rfl
  frame := by rw [pushWork_st]; exact pushRing_frame w.st u v
  free  := by simp
  resp  := by simp
  wf    := fun hc h => by
    rw [pushWork_st]
    exact setRing_memory_wf _ _ _ h
      (pushRing_wf _ _ (hc u (by simp)) ((wf_iff _).mp h u))
  adv   := fun _ a ha => by
    obtain rfl : a = u := by simpa using ha
    simp
  dom   := fun h => h
  st    := fun hw hc _ => by
    have hr := (wf_iff _).mp hw u
    have hlt : (ring w.st u).wr < (ring w.st u).cap := by
      have h0 := hc u (by simp)
      simp only [ringWf, Bool.and_eq_true, decide_eq_true_eq] at hr
      omega
    have hv : getPlace (setRing w.st u (pushRing (ring w.st u) v)) (.slot u (ring w.st u).wr) = v := by
      simpa [getPlace] using memRead_push_same _ v hlt hr
    rw [pushWork_st]
    rw [valuesAt, List.map_singleton, hv]
    show _ = putPlace (advanced [u] w.st) (.slot u (ring w.st u).wr) v
    simp [advanced, putPlace, setRing_setRing, memWrite_setWr, pushRing]

theorem rdlWork_moves (w : Work) (u : RbUnit) (d : F32) : Moves w (rdlWork w u d).2 [] [] :=
  ⟨by simp, Frame.refl _, rfl, rfl, fun _ h => h, by simp, by simp_all, fun _ _ _ => rfl⟩

theorem rdpWork_moves (w : Work) (u : RbUnit) (d : F32) : Moves w (rdpWork w u d).2 [] [] :=
  ⟨by simp, Frame.refl _, rfl, rfl, fun _ h => h, by simp, by simp_all, fun _ _ _ => rfl⟩

theorem apWork_moves (w : Work) (u : RbUnit) (v g : F32) :
    Moves w (apWork w u v g).2 [.slot u (ring w.st u).wr] [u] :=
  (seeValue_moves w _).trans (pushWork_moves _ u _)

theorem writeFilter_moves (w : Work) (f : FsUnit) (x y : F32) :
    Moves w (writeFilter w f x y) [.fsX f, .fsY f] [] :=
  (writePlace_moves w _ _).trans (writePlace_moves _ _ _)

theorem lpWork_moves (w : Work) (f : FsUnit) (x a : F32) :
    Moves w (lpWork w f x a).2 [.fsX f, .fsY f] [] :=
  (seeValue_moves w _).trans (writeFilter_moves _ f _ _)

theorem dcbWork_moves (w : Work) (f : FsUnit) (x r : F32) :
    Moves w (dcbWork w f x r).2 [.fsX f, .fsY f] [] :=
  ((seeValue_moves w _).trans (seeValue_moves _ _)).trans (writeFilter_moves _ f _ _)

theorem tiltRevWork_moves (c : Cfg) (w : Work) (ch : Channel) (v : F32) :
    Moves w (tiltRevWork c w ch v).2
      [.fsX (chUnit ch 4 5), .fsY (chUnit ch 4 5), .fsX (chUnit ch 6 7), .fsY (chUnit ch 6 7)] [] := by
  rw [tiltRevWork_snd]
  exact (((seeValue_moves w _).trans (lpWork_moves _ _ _ _)).trans (seeValue_moves _ _)).trans
    (lpWork_moves _ _ _ _)

theorem tiltDlyWork_moves (w : Work) (ch : Channel) (v : F32) :
    Moves w (tiltDlyWork w ch v).2 [.fsX (chUnit ch 10 11), .fsY (chUnit ch 10 11)] [] := by
  rw [tiltDlyWork_snd]
  exact (seeValue_moves w _).trans (lpWork_moves _ _ _ _)

theorem tiltSatWork_moves (c : Cfg) (w : Work) (ch : Channel) (v : F32) :
    Moves w (tiltSatWork c w ch v).2 [.fsX (chUnit ch 16 17), .fsY (chUnit ch 16 17)] [] := by
  rw [tiltSatWork_snd]
  exact (seeValue_moves w _).trans (lpWork_moves _ _ _ _)

/-! ## Building up what a command has done -/

theorem Moves.see {w a : Work} {ps : List Place} {us : List RbUnit} (h : Moves w a ps us) (v : F32) :
    Moves w (seeValue a v) ps us :=
  (h.trans (seeValue_moves a v)).cast (by simp) (by simp)

theorem Moves.read {w a : Work} {ps : List Place} {us : List RbUnit} (h : Moves w a ps us)
    (p : Place) : Moves w (readPlace a p).2 ps us :=
  h.see _

theorem Moves.write {w a : Work} {ps : List Place} {us : List RbUnit} (h : Moves w a ps us)
    (p : Place) (v : F32) (hp : p.isSlot = false := by rfl) :
    Moves w (writePlace a p v) (ps ++ [p]) us :=
  (h.trans (writePlace_moves a p v hp)).cast rfl (by simp)

theorem Moves.push {w a : Work} {ps : List Place} {us : List RbUnit} {u : RbUnit}
    (h : Moves w a ps us) (hu : u ∉ us) (v : F32) :
    Moves w (pushWork a u v) (ps ++ [.slot u (ring w.st u).wr]) (us ++ [u]) :=
  (h.trans (pushWork_moves a u v)).cast (by rw [h.frame.wr u hu]) rfl

theorem Moves.oldest {w a : Work} {ps : List Place} {us : List RbUnit} (h : Moves w a ps us)
    (u : RbUnit) : Moves w (oldestWork a u).2 ps us :=
  h.see _

theorem Moves.rdl {w a : Work} {ps : List Place} {us : List RbUnit} (h : Moves w a ps us)
    (u : RbUnit) (d : F32) : Moves w (rdlWork a u d).2 ps us :=
  (h.trans (rdlWork_moves a u d)).cast (by simp) (by simp)

theorem Moves.rdp {w a : Work} {ps : List Place} {us : List RbUnit} (h : Moves w a ps us)
    (u : RbUnit) (d : F32) : Moves w (rdpWork a u d).2 ps us :=
  (h.trans (rdpWork_moves a u d)).cast (by simp) (by simp)

theorem Moves.ap {w a : Work} {ps : List Place} {us : List RbUnit} {u : RbUnit}
    (h : Moves w a ps us) (hu : u ∉ us) (v g : F32) :
    Moves w (apWork a u v g).2 (ps ++ [.slot u (ring w.st u).wr]) (us ++ [u]) :=
  (h.oldest u).push hu _

theorem Moves.lp {w a : Work} {ps : List Place} {us : List RbUnit} (h : Moves w a ps us)
    (f : FsUnit) (x k : F32) : Moves w (lpWork a f x k).2 (ps ++ [.fsX f, .fsY f]) us :=
  (h.trans (lpWork_moves a f x k)).cast rfl (by simp)

theorem Moves.dcb {w a : Work} {ps : List Place} {us : List RbUnit} (h : Moves w a ps us)
    (f : FsUnit) (x k : F32) : Moves w (dcbWork a f x k).2 (ps ++ [.fsX f, .fsY f]) us :=
  (h.trans (dcbWork_moves a f x k)).cast rfl (by simp)

theorem Moves.filt {w a : Work} {ps : List Place} {us : List RbUnit} (h : Moves w a ps us)
    (f : FsUnit) (x y : F32) : Moves w (writeFilter a f x y) (ps ++ [.fsX f, .fsY f]) us :=
  (h.trans (writeFilter_moves a f x y)).cast rfl (by simp)

theorem Moves.tiltRev {w a : Work} {ps : List Place} {us : List RbUnit} (h : Moves w a ps us)
    (c : Cfg) (ch : Channel) (v : F32) : Moves w (tiltRevWork c a ch v).2 (ps ++
      [.fsX (chUnit ch 4 5), .fsY (chUnit ch 4 5), .fsX (chUnit ch 6 7), .fsY (chUnit ch 6 7)]) us :=
  (h.trans (tiltRevWork_moves c a ch v)).cast rfl (by simp)

theorem Moves.tiltDly {w a : Work} {ps : List Place} {us : List RbUnit} (h : Moves w a ps us)
    (ch : Channel) (v : F32) : Moves w (tiltDlyWork a ch v).2
      (ps ++ [.fsX (chUnit ch 10 11), .fsY (chUnit ch 10 11)]) us :=
  (h.trans (tiltDlyWork_moves a ch v)).cast rfl (by simp)

theorem Moves.tiltSat {w a : Work} {ps : List Place} {us : List RbUnit} (h : Moves w a ps us)
    (c : Cfg) (ch : Channel) (v : F32) : Moves w (tiltSatWork c a ch v).2
      (ps ++ [.fsX (chUnit ch 16 17), .fsY (chUnit ch 16 17)]) us :=
  (h.trans (tiltSatWork_moves c a ch v)).cast rfl (by simp)

/-- The end of a command that began in `s`: a next state with response 0, in which only the written
places and the advanced cursors differ, and which holds exactly what the command wrote if it used no
free value. -/
theorem complete_moves {s : State} {w : Work} {ps : List Place} {us : List RbUnit}
    (h : Moves (startWork s) w ps us) :
    ∃ t, complete w = .next t ∧ t.resp = 0 ∧ Frame ps us s t ∧ s.free ≤ t.free
      ∧ (us.Nodup → ∀ u ∈ us, (ring t u).wr = nextWr (ring s u))
      ∧ (t.free = s.free → t = respond w.st 0)
      ∧ ((∀ u ∈ us, (ring s u).cap ≠ 0) → Memory.wf s = true → Memory.wf t = true) := by
  have hw : w.wrote = ps := by simpa using h.wrote
  have hff := finishWork_frame w
  refine ⟨respond (finishWork w) 0, rfl, rfl, ?_, ?_, ?_, ?_, ?_⟩
  · have := (h.frame.trans hff).trans (respond_frame (finishWork w) 0)
    exact this.mono (by simp [hw]) (by simp)
  · have := settle_all_free w.dom w.wrote w.st
    have hf : w.st.free = s.free := h.free
    show s.free ≤ (finishWork w).free
    rw [← hf]
    exact this
  · intro hn u hu
    exact (hff.wr u (by simp)).trans (h.adv hn u hu)
  · intro hf
    have : (finishWork w).free = w.st.free := by rw [h.free]; exact hf
    rw [finishWork_eq w this]
  · intro hc hs
    exact finishWork_memory_wf w (h.wf hc hs)

end Sys2Proof.Machine
end

