-- ==== Sys2Proof/Laws/Engines.lean ====
section
/-! SUPPORT. What the engine commands write: the places and the cursors of `SHIM.STEP`, `DLY.SAMPLE`,
`SAT.SAMPLE`, `REV.SAMPLE` and of the cache latch, once each. -/

namespace Sys2Proof.Machine

open Config (Cfg)

/-- A command in flight changes no parameter register. -/
theorem Moves.params {w a : Work} {ps : List Place} {us : List RbUnit} (h : Moves w a ps us) :
    a.st.params = w.st.params :=
  congrArg Control.params h.frame.control

/-! ## Shimmer -/

theorem shimStepWork_moves (c : Cfg) (w : Work) (v : F32) :
    Moves w (shimStepWork c w v).2 (shimPlaces w.st) [12] := by
  simp only [shimStepWork]
  refine Moves.cast (((((((((((Moves.refl w).read _).lp _ _ _).push (by decide) _).read _).rdp _ _).rdp
    _ _).read _).lp _ _ _).write _ _).write _ _) ?_ ?_ <;> simp [shimPlaces]

/-! ## Delay -/

theorem dlySampleWork_moves (c : Cfg) (w : Work) (l r : Reg) :
    Moves w (dlySampleWork c w l r) (dlyPlaces l r w.st) [13, 14, 15, 16] := by
  simp only [dlySampleWork, dlyLine]
  refine Moves.cast ((((((((((((((((((((((Moves.refl w).read _).read _).read _).read _).read _).read _).rdl
    _ _).rdl _ _).rdl _ _).rdl _ _).tiltDly _ _).tiltDly _ _).push (by decide) _).push (by decide)
    _).push (by decide) _).push (by decide) _).write _ _).write _ _).read _).write _ _).write _ _) ?_ ?_
    <;> simp [dlyPlaces]

/-! ## Saturation -/

theorem envWork_moves (c : Cfg) (w : Work) (ch : Channel) (v : F32) :
    Moves w (envWork c w ch v).2 [.fsX (chUnit ch 18 19), .fsY (chUnit ch 18 19)] [] := by
  simp only [envWork]
  exact Moves.cast ((((Moves.refl w).read _).read _).filt _ _ _) (by simp) rfl

theorem compWork_moves (c : Cfg) (w : Work) (ch : Channel) (v : F32) :
    Moves w (compWork c w ch v).2 (compPlaces (chUnit ch 20 21) w.st) [] := by
  simp only [compWork, compPlaces]
  split
  · exact Moves.cast ((((Moves.refl w).read _).read _).filt _ _ _) (by simp) rfl
  · exact Moves.refl w

theorem Moves.comp {w a : Work} {ps : List Place} {us : List RbUnit} (h : Moves w a ps us)
    (c : Cfg) (ch : Channel) (v : F32) :
    Moves w (compWork c a ch v).2 (ps ++ compPlaces (chUnit ch 20 21) w.st) us :=
  (h.trans (compWork_moves c a ch v)).cast (by rw [compPlaces, compPlaces, h.params]) (by simp)

theorem Moves.env {w a : Work} {ps : List Place} {us : List RbUnit} (h : Moves w a ps us)
    (c : Cfg) (ch : Channel) (v : F32) :
    Moves w (envWork c a ch v).2 (ps ++ [.fsX (chUnit ch 18 19), .fsY (chUnit ch 18 19)]) us :=
  (h.trans (envWork_moves c a ch v)).cast rfl (by simp)

theorem satSampleWork_moves (c : Cfg) (w : Work) (l r : Reg) :
    Moves w (satSampleWork c w l r) (satPlaces l r w.st) [] := by
  simp only [satSampleWork, satChannelWork]
  refine Moves.cast (Moves.refl w |>.read _ |>.read _ |>.env _ _ _ |>.dcb _ _ _ |>.read _ |>.lp _ _ _
    |>.tiltSat _ _ _ |>.comp _ _ _ |>.read _ |>.env _ _ _ |>.dcb _ _ _ |>.read _ |>.lp _ _ _
    |>.tiltSat _ _ _ |>.comp _ _ _ |>.read _ |>.write _ _ |>.write _ _) ?_ ?_ <;> simp [satPlaces]

/-! ## Reverb -/

theorem Moves.gate {w a : Work} {ps : List Place} {us : List RbUnit} (h : Moves w a ps us) :
    gateOpen a.st = gateOpen w.st := by
  rw [gateOpen, gateOpen, h.params]

theorem Moves.shimBlend {w a : Work} {ps : List Place} {us : List RbUnit} (h : Moves w a ps us)
    (c : Cfg) (v : F32) : Moves w (shimBlendWork c a v).2 ps us := by
  simp only [shimBlendWork]
  split
  · exact h.read _
  · exact h

theorem Moves.shimFeed {w a : Work} {ps : List Place} {us : List RbUnit} (h : Moves w a ps us)
    (hu : 12 ∉ us) (c : Cfg) (v v' : F32) : Moves w (shimFeedWork c a v v')
      (ps ++ (if gateOpen w.st then shimPlaces w.st else []))
      (us ++ (if gateOpen w.st then [12] else [])) := by
  simp only [shimFeedWork, h.gate]
  split
  · refine (h.trans (shimStepWork_moves c a _)).cast ?_ rfl
    simp [shimPlaces, h.frame.wr 12 hu]
  · exact h.cast (by simp) (by simp)

theorem Moves.tap {w a : Work} {ps : List Place} {us : List RbUnit} (h : Moves w a ps us)
    (t : Config.Tap) (wt k : F32) : Moves w (tapWork a t wt k).2 ps us := by
  simp only [tapWork]
  exact h.rdl _ _

theorem Moves.tapSum {w a : Work} {ps : List Place} {us : List RbUnit} (h : Moves w a ps us)
    (taps : Vector Config.Tap 4) (wts : Vector F32 4) (k : F32) :
    Moves w (tapSumWork a taps wts k).2 ps us := by
  simp only [tapSumWork]
  exact h |>.tap _ _ _ |>.tap _ _ _ |>.tap _ _ _ |>.tap _ _ _

theorem Moves.wet {w a : Work} {ps : List Place} {us : List RbUnit} (h : Moves w a ps us)
    (c : Cfg) (ch : Channel) (v : F32) : Moves w (wetWork c a ch v).2
      (ps ++ [.fsX (chUnit ch 2 3), .fsY (chUnit ch 2 3), .fsX (chUnit ch 4 5), .fsY (chUnit ch 4 5),
        .fsX (chUnit ch 6 7), .fsY (chUnit ch 6 7)]) us := by
  simp only [wetWork]
  exact ((h.dcb _ _ _).tiltRev _ _ _).cast (by simp) rfl

theorem Moves.diffuse {w : Work} (w0 : Work) (h : Moves w w0 [] []) (v : F32) :
    Moves w (diffuseWork w0 v).2 [.slot 0 (ring w.st 0).wr, .slot 1 (ring w.st 1).wr,
      .slot 2 (ring w.st 2).wr, .slot 3 (ring w.st 3).wr] [0, 1, 2, 3] := by
  simp only [diffuseWork]
  exact ((((h.ap (by decide) _ _).ap (by decide) _ _).ap (by decide) _ _).ap (by decide) _ _).cast
    (by simp) (by simp)

theorem Moves.tankSide {w a : Work} {ps : List Place} {us : List RbUnit} (h : Moves w a ps us)
    (c : Cfg) (ap1 line1 ap2 line2 : RbUnit) (damp : FsUnit) (di dec tap : F32)
    (hu : ap1 ∉ us ∧ line1 ∉ us ++ [ap1] ∧ ap2 ∉ us ++ [ap1] ++ [line1]
      ∧ line2 ∉ us ++ [ap1] ++ [line1] ++ [ap2]) :
    Moves w (tankSideWork c a ap1 line1 ap2 line2 damp di dec tap)
      (ps ++ [.slot ap1 (ring w.st ap1).wr, .slot line1 (ring w.st line1).wr, .fsX damp, .fsY damp,
        .slot ap2 (ring w.st ap2).wr, .slot line2 (ring w.st line2).wr])
      (us ++ [ap1, line1, ap2, line2]) := by
  simp only [tankSideWork]
  exact (((((((h.ap hu.1 _ _).oldest _).push hu.2.1 _).read _).lp _ _ _).ap hu.2.2.1 _ _).push hu.2.2.2
    _).cast (by simp) (by simp)

theorem revSampleWork_moves (c : Cfg) (w : Work) (l r : Reg) :
    Moves w (revSampleWork c w l r) (revPlaces l r w.st) (revUnits w.st) := by
  simp only [revSampleWork, tankWork]
  refine Moves.cast (Moves.diffuse _ (Moves.refl w |>.read _ |>.read _) _ |>.shimBlend _ _ |>.oldest _
    |>.oldest _ |>.tankSide _ _ _ _ _ _ _ _ _ (by decide) |>.tankSide _ _ _ _ _ _ _ _ _ (by decide)
    |>.tapSum _ _ _ |>.tapSum _ _ _ |>.wet _ _ _ |>.wet _ _ _ |>.shimFeed (by decide) _ _ _
    |>.write _ _ |>.write _ _) ?_ ?_ <;> simp [revPlaces, revUnits]

/-! ## One sample as a function of the state before it -/

theorem shimStepWork_fst (c : Cfg) (w : Work) (v : F32) :
    (shimStepWork c w v).1 = shimOutput c v w.st := by
  simp [shimStepWork, shimOutput, shimHeads, shimPosition, getPlace, getRevc, filter_setFilter]

theorem shimStepWork_st (c : Cfg) (w : Work) (v : F32) :
    (shimStepWork c w v).2.st = shimState c v w.st := by
  simp [shimStepWork, shimState, shimOutput, shimHeads, shimPosition, shimIncrement, getPlace, getRevc,
    putPlace, stepped, filter_setFilter]

/-- A shimmer step used finite values alone exactly if everything it reads is finite. -/
theorem shimStepWork_dom (c : Cfg) (w : Work) (v : F32) :
    (shimStepWork c w v).2.dom = (w.dom && shimOk c v w.st) := by
  simp [shimStepWork, shimOk, lpOk, shimPosition, getPlace, getRevc, filter_setFilter, Bool.and_assoc]

theorem dlySampleWork_st (c : Cfg) (w : Work) (l r : Reg) :
    (dlySampleWork c w l r).st = dlyState c l r w.st := by
  simp [dlySampleWork, dlyState, dlyLine, dlyDelay, dlySwing, dlyToned, getPlace, getDlyc, putPlace,
    stepped, filter_setFilter, ring_setRing, tiltDlyWork_fst, tiltDlyWork_snd]

/-- A delay sample used finite values alone exactly if everything it reads is finite. -/
theorem dlySampleWork_dom (c : Cfg) (w : Work) (l r : Reg) :
    (dlySampleWork c w l r).dom = (w.dom && dlyOk c l r w.st) := by
  have h : ∀ a b c : Bool, (a && (b && (a && c))) = (a && (b && c)) := by decide
  simp [dlySampleWork, dlyOk, dlyLine, dlyDelay, dlySwing, lpOk, getPlace, getDlyc, putPlace,
    filter_setFilter, tiltDlyWork_fst, tiltDlyWork_snd, Bool.and_assoc, h]

theorem envWork_fst (c : Cfg) (w : Work) (ch : Channel) (v : F32) :
    (envWork c w ch v).1 = satEnvelope c (filter w.st (chUnit ch 18 19)) w.st.satc.aRel v := rfl

theorem envWork_st (c : Cfg) (w : Work) (ch : Channel) (v : F32) :
    (envWork c w ch v).2.st = setFilter w.st (chUnit ch 18 19)
      (stepped (fabs v) (satEnvelope c (filter w.st (chUnit ch 18 19)) w.st.satc.aRel v)) :=
  writeFilter_st ..

theorem compWork_fst (c : Cfg) (w : Work) (ch : Channel) (v : F32) :
    (compWork c w ch v).1 = if flt 0 w.st.params.satComp then
      fmul v (compGain c (filter w.st (chUnit ch 20 21)) w.st.satc.aCompRel w.st.params.satComp v)
      else v := by
  simp only [compWork]
  split <;> rfl

theorem compWork_st (c : Cfg) (w : Work) (ch : Channel) (v : F32) :
    (compWork c w ch v).2.st = if flt 0 w.st.params.satComp then
      setFilter w.st (chUnit ch 20 21) (stepped (compLevel v)
        (compGain c (filter w.st (chUnit ch 20 21)) w.st.satc.aCompRel w.st.params.satComp v))
      else w.st := by
  simp only [compWork]
  split
  · exact writeFilter_st ..
  · rfl

theorem chUnit_ne (ch : Channel) {a b a' b' : FsUnit} (h : a ≠ a') (h' : b ≠ b') :
    chUnit ch a b ≠ chUnit ch a' b' := by
  cases ch <;> assumption

theorem satChannelWork_eq (c : Cfg) (w : Work) (ch : Channel) (v : F32) :
    (satChannelWork c w ch v).1 = (satChannel c ch v w.st).1
      ∧ (satChannelWork c w ch v).2.st = (satChannel c ch v w.st).2 := by
  cases ch <;> by_cases h : flt 0#32 w.st.params.satComp = true <;>
    simp [satChannelWork, satChannel, envWork_fst, envWork_st, compWork_fst, compWork_st,
      tiltSatWork_fst, tiltSatWork_snd, getPlace, getSatc, stepped, filter_setFilter, h]

theorem satSampleWork_st (c : Cfg) (w : Work) (l r : Reg) :
    (satSampleWork c w l r).st = satState c l r w.st := by
  simp [satSampleWork, satState, (satChannelWork_eq c _ _ _).1, (satChannelWork_eq c _ _ _).2, getPlace,
    putPlace]

theorem envWork_dom (c : Cfg) (w : Work) (ch : Channel) (v : F32) :
    (envWork c w ch v).2.dom
      = (w.dom && (lpOk (filter w.st (chUnit ch 18 19)) && isFinite w.st.satc.aRel)) := by
  simp [envWork, lpOk, getPlace, getSatc, Bool.and_assoc]

theorem compWork_dom (c : Cfg) (w : Work) (ch : Channel) (v : F32) :
    (compWork c w ch v).2.dom = (w.dom && (!flt 0 w.st.params.satComp
      || (lpOk (filter w.st (chUnit ch 20 21)) && isFinite w.st.satc.aCompRel))) := by
  cases h : flt 0#32 w.st.params.satComp <;> simp [compWork, h, lpOk, getPlace, getSatc, Bool.and_assoc]

theorem satChannelWork_dom (c : Cfg) (w : Work) (ch : Channel) (v : F32) :
    (satChannelWork c w ch v).2.dom = (w.dom && satChannelOk ch w.st) := by
  cases ch <;> by_cases h : flt 0#32 w.st.params.satComp = true <;>
    simp [satChannelWork, satChannelOk, envWork_dom, envWork_st, compWork_dom, compWork_st,
      tiltSatWork_snd, dcbOk, lpOk, getPlace, getSatc, filter_setFilter, h, Bool.and_assoc]

/-- A channel of a saturation sample leaves what the other channel reads. -/
theorem satChannelOk_right (c : Cfg) (s : State) (v : F32) :
    satChannelOk .right (satChannel c .left v s).2 = satChannelOk .right s := by
  by_cases h : flt 0#32 s.params.satComp = true <;>
    simp [satChannel, satChannelOk, filter_setFilter, h]

/-- A saturation sample used finite values alone exactly if everything it reads is finite. -/
theorem satSampleWork_dom (c : Cfg) (w : Work) (l r : Reg) :
    (satSampleWork c w l r).dom = (w.dom && satOk l r w.st) := by
  simp [satSampleWork, satOk, satChannelWork_dom, (satChannelWork_eq c _ _ _).2, satChannelOk_right,
    getPlace, Bool.and_assoc]

theorem shimBlendWork_fst (c : Cfg) (w : Work) (v : F32) :
    (shimBlendWork c w v).1 = revInjected c w.st v := by
  simp only [shimBlendWork, revInjected]
  split <;> rfl

theorem shimBlendWork_st (c : Cfg) (w : Work) (v : F32) : (shimBlendWork c w v).2.st = w.st := by
  simp only [shimBlendWork]
  split <;> rfl

theorem shimFeedWork_st (c : Cfg) (w : Work) (v v' : F32) :
    (shimFeedWork c w v v').st = if gateOpen w.st then shimState c (fmul half (fadd v v')) w.st
      else w.st := by
  simp only [shimFeedWork]
  split
  · exact shimStepWork_st ..
  · rfl

theorem tapWork_fst (w : Work) (t : Config.Tap) (wt k : F32) :
    (tapWork w t wt k).1 = fmul wt (rdlValue (ring w.st (lineUnit t.line)) (fmul (tapPos t) k)) := by
  simp [tapWork]

theorem tapWork_st (w : Work) (t : Config.Tap) (wt k : F32) : (tapWork w t wt k).2.st = w.st := by
  simp [tapWork]

/-- The output taps read the tank lines as they stand. -/
theorem tapSumWork_fst (w : Work) (taps : Vector Config.Tap 4) (wts : Vector F32 4) (k : F32) :
    (tapSumWork w taps wts k).1 =
      let line := tankLines (ring w.st 5) (ring w.st 7) (ring w.st 9) (ring w.st 11)
      let p := fun (j : Fin 4) => fmul wts[j] (rdlValue (line taps[j].line) (fmul (tapPos taps[j]) k))
      fadd (fadd (fadd (p 0) (p 1)) (p 2)) (p 3) := by
  have h : ∀ l, ring w.st (lineUnit l)
      = tankLines (ring w.st 5) (ring w.st 7) (ring w.st 9) (ring w.st 11) l := by
    intro l
    cases l <;> rfl
  simp [tapSumWork, tapWork_fst, tapWork_st, h]

theorem tapSumWork_st (w : Work) (taps : Vector Config.Tap 4) (wts : Vector F32 4) (k : F32) :
    (tapSumWork w taps wts k).2.st = w.st := by
  simp [tapSumWork, tapWork_st]

theorem wetWork_fst (c : Cfg) (w : Work) (ch : Channel) (v : F32) :
    (wetWork c w ch v).1 =
      let y := dcbOut (filter w.st (chUnit ch 2 3)) v (cfgDcbR c)
      softLimit (tiltRevOut c w.st.params.revTone y (lpOut (filter w.st (chUnit ch 4 5)) y w.st.revc.aLo)
        (lpOut (filter w.st (chUnit ch 6 7)) y w.st.revc.aHi)) := by
  cases ch <;> simp [wetWork, tiltRevWork_fst, filter_setFilter]

theorem wetWork_st (c : Cfg) (w : Work) (ch : Channel) (v : F32) :
    (wetWork c w ch v).2.st =
      let y := dcbOut (filter w.st (chUnit ch 2 3)) v (cfgDcbR c)
      setFilter (setFilter (setFilter w.st (chUnit ch 2 3) (stepped v y)) (chUnit ch 4 5)
        (stepped y (lpOut (filter w.st (chUnit ch 4 5)) y w.st.revc.aLo))) (chUnit ch 6 7)
        (stepped y (lpOut (filter w.st (chUnit ch 6 7)) y w.st.revc.aHi)) := by
  cases ch <;> simp [wetWork, tiltRevWork_snd, filter_setFilter, stepped]

theorem diffuseWork_st (w : Work) (m : F32) :
    (diffuseWork w m).2.st =
      let g := diffusionGain w.st
      let d0 := apOut (ring w.st 0) m g
      let d1 := apOut (ring w.st 1) d0 g
      let d2 := apOut (ring w.st 2) d1 0x3F200000
      setRing (setRing (setRing (setRing w.st 0 (apRing (ring w.st 0) m g)) 1 (apRing (ring w.st 1) d0 g))
        2 (apRing (ring w.st 2) d1 0x3F200000)) 3 (apRing (ring w.st 3) d2 0x3F200000) := by
  simp [diffuseWork, ring_setRing, apRing]

theorem diffuseWork_fst (w : Work) (m : F32) :
    (diffuseWork w m).1 = apOut (ring w.st 3) (apOut (ring w.st 2) (apOut (ring w.st 1)
      (apOut (ring w.st 0) m (diffusionGain w.st)) (diffusionGain w.st)) 0x3F200000) 0x3F200000 := by
  simp [diffuseWork, ring_setRing]

theorem tankSideWork_st (c : Cfg) (w : Work) (ap1 line1 ap2 line2 : RbUnit) (damp : FsUnit)
    (di dec tap : F32) (h : ap1 ≠ line1 ∧ ap1 ≠ ap2 ∧ line1 ≠ ap2 ∧ ap1 ≠ line2 ∧ line1 ≠ line2
      ∧ ap2 ≠ line2) :
    (tankSideWork c w ap1 line1 ap2 line2 damp di dec tap).st =
      let n := softLimit (fadd di (fmul dec tap))
      let a1 := apOut (ring w.st ap1) n (cfgGT1 c)
      let dl := oldest (ring w.st line1)
      let lp := lpOut (filter w.st damp) dl w.st.revc.dampA
      let a2 := apOut (ring w.st ap2) (fmul lp dec) (cfgGT2 c)
      setRing (setRing (setFilter (setRing (setRing w.st ap1 (apRing (ring w.st ap1) n (cfgGT1 c)))
        line1 (pushRing (ring w.st line1) a1)) damp (stepped dl lp))
        ap2 (apRing (ring w.st ap2) (fmul lp dec) (cfgGT2 c))) line2 (pushRing (ring w.st line2) a2) := by
  obtain ⟨h1, h2, h3, h4, h5, h6⟩ := h
  simp [tankSideWork, ring_setRing, apRing, stepped, getPlace, getRevc, h1, h2, h3, h4, h5, h6]

theorem gateOpen_setRing (s : State) (u : RbUnit) (b : RingUnit) :
    gateOpen (setRing s u b) = gateOpen s := rfl

theorem gateOpen_setFilter (s : State) (f : FsUnit) (q : FilterUnit) :
    gateOpen (setFilter s f q) = gateOpen s := rfl

theorem tapWeights_setRing (c : Cfg) (s : State) (u : RbUnit) (b : RingUnit) :
    tapWeights c (setRing s u b) = tapWeights c s := rfl

theorem tapWeights_setFilter (c : Cfg) (s : State) (f : FsUnit) (q : FilterUnit) :
    tapWeights c (setFilter s f q) = tapWeights c s := rfl

theorem revInjected_setRing (c : Cfg) (s : State) (u : RbUnit) (b : RingUnit) (v : F32) :
    revInjected c (setRing s u b) v = revInjected c s v := rfl

theorem revSampleWork_st (c : Cfg) (w : Work) (l r : Reg) :
    (revSampleWork c w l r).st = revState c l r w.st := by
  simp only [revSampleWork, tankWork, revState, revSignals, revTaps, tapDelay, readPlace_fst, readPlace_snd, seeValue_st, oldestWork_fst,
    oldestWork_snd, writePlace_st, putPlace, getPlace, shimFeedWork_st, wetWork_st, wetWork_fst,
    tapSumWork_st, tapSumWork_fst, diffuseWork_st, diffuseWork_fst, shimBlendWork_fst, shimBlendWork_st,
    tankSideWork_st _ _ 4 5 6 7 _ _ _ _ (by decide), tankSideWork_st _ _ 8 9 10 11 _ _ _ _ (by decide),
    gateOpen_setRing, gateOpen_setFilter, tapWeights_setRing, tapWeights_setFilter, revInjected_setRing]
  simp [tankLines, ring_setRing, filter_setFilter]

theorem diffuseWork_dom (w : Work) (m : F32) :
    (diffuseWork w m).2.dom = (w.dom && (isFinite (oldest (ring w.st 0)) && (isFinite (oldest (ring w.st 1))
      && (isFinite (oldest (ring w.st 2)) && isFinite (oldest (ring w.st 3)))))) := by
  simp [diffuseWork, ring_setRing, Bool.and_assoc]

theorem shimBlendWork_dom (c : Cfg) (w : Work) (v : F32) :
    (shimBlendWork c w v).2.dom = (w.dom && (!gateOpen w.st || isFinite w.st.shimOut)) := by
  simp only [shimBlendWork]
  split
  · next h => simp [h, getPlace]
  · next h => simp [h]

theorem shimFeedWork_dom (c : Cfg) (w : Work) (v v' : F32) :
    (shimFeedWork c w v v').dom
      = (w.dom && (!gateOpen w.st || shimOk c (fmul half (fadd v v')) w.st)) := by
  simp only [shimFeedWork]
  split
  · next h => simp [h, shimStepWork_dom]
  · next h => simp [h]

theorem tapSumWork_dom (w : Work) (taps : Vector Config.Tap 4) (wts : Vector F32 4) (k : F32) :
    (tapSumWork w taps wts k).2.dom =
      let line := tankLines (ring w.st 5) (ring w.st 7) (ring w.st 9) (ring w.st 11)
      (w.dom && ([0, 1, 2, 3] : List (Fin 4)).all fun j =>
        slotsOk (line taps[j].line) (rdlSlots (line taps[j].line) (fmul (tapPos taps[j]) k))) := by
  have h : ∀ l, ring w.st (lineUnit l)
      = tankLines (ring w.st 5) (ring w.st 7) (ring w.st 9) (ring w.st 11) l := by
    intro l
    cases l <;> rfl
  simp [tapSumWork, tapWork, h, Bool.and_assoc]

theorem wetWork_dom (c : Cfg) (w : Work) (ch : Channel) (v : F32) :
    (wetWork c w ch v).2.dom = (w.dom && wetOk w.st ch) := by
  cases ch <;> simp [wetWork, tiltRevWork_snd, wetOk, dcbOk, lpOk, filter_setFilter, Bool.and_assoc]

theorem tankSideWork_dom (c : Cfg) (w : Work) (ap1 line1 ap2 line2 : RbUnit) (damp : FsUnit)
    (di dec tap : F32) (h : ap1 ≠ line1 ∧ ap1 ≠ ap2 ∧ line1 ≠ ap2) :
    (tankSideWork c w ap1 line1 ap2 line2 damp di dec tap).dom =
      (w.dom && tankSideOk w.st ap1 line1 ap2 damp) := by
  obtain ⟨h1, h2, h3⟩ := h
  simp [tankSideWork, tankSideOk, ring_setRing, lpOk, getPlace, getRevc, h1, h2, h3, Bool.and_assoc]

/-- A reverb sample used finite values alone exactly if everything it reads is finite. -/
theorem revSampleWork_dom (c : Cfg) (w : Work) (l r : Reg) :
    (revSampleWork c w l r).dom = (w.dom && revOk c l r w.st) := by
  simp only [revSampleWork, tankWork, revOk, revSignals, tapsOk, revTaps, tapDelay, readPlace_fst,
    readPlace_snd, seeValue_st, seeValue_dom, oldestWork_fst, oldestWork_snd, writePlace_dom, getPlace,
    shimFeedWork_dom, wetWork_dom, wetWork_st, wetWork_fst, tapSumWork_dom, tapSumWork_st, tapSumWork_fst,
    diffuseWork_dom, diffuseWork_st, diffuseWork_fst, shimBlendWork_dom, shimBlendWork_fst,
    shimBlendWork_st, tankSideWork_st _ _ 4 5 6 7 _ _ _ _ (by decide),
    tankSideWork_st _ _ 8 9 10 11 _ _ _ _ (by decide), tankSideWork_dom _ _ 4 5 6 7 _ _ _ _ (by decide),
    tankSideWork_dom _ _ 8 9 10 11 _ _ _ _ (by decide), gateOpen_setRing, gateOpen_setFilter,
    tapWeights_setRing, tapWeights_setFilter, revInjected_setRing]
  simp [tankLines, tankSideOk, wetOk, shimOk, ring_setRing, filter_setFilter, Bool.and_assoc]

/-! ## The outputs of the clamping engines -/

theorem readX_two (t : State) {l r : Reg} (a b : F32) (h : l ≠ r) :
    readX (writeX (writeX t l a) r b) l = a ∧ readX (writeX (writeX t l a) r b) r = b := by
  simp [readX_writeX, Ne.symm h]

theorem readX_phases (t : State) (p q : F32) (r : Reg) :
    readX { t with dlyPh1 := p, dlyPh2 := q } r = readX t r := rfl

/-- Both outputs of a delay sample are clamps (44_delay.md R222). -/
theorem dlyState_out (c : Cfg) {l r : Reg} (s : State) (h : l ≠ r) :
    ∃ a b, readX (dlyState c l r s) l = fclamp a minusOne one
      ∧ readX (dlyState c l r s) r = fclamp b minusOne one := by
  obtain ⟨t, a, b, p, q, e⟩ : ∃ t a b p q, dlyState c l r s
      = { writeX (writeX t l (fclamp a minusOne one)) r (fclamp b minusOne one) with
          dlyPh1 := p, dlyPh2 := q } := ⟨_, _, _, _, _, rfl⟩
  rw [e]
  exact ⟨a, b, readX_two t _ _ h⟩

/-- Both outputs of a saturation sample are clamps (45_saturation.md R259). -/
theorem satState_out (c : Cfg) {l r : Reg} (s : State) (h : l ≠ r) :
    ∃ a b, readX (satState c l r s) l = fclamp a minusOne one
      ∧ readX (satState c l r s) r = fclamp b minusOne one := by
  simp only [satState]
  exact ⟨_, _, (readX_two _ _ _ h).1, (readX_two _ _ _ h).2⟩

end Sys2Proof.Machine
end

