-- ==== Sys2Proof/Laws/Landing.lean ====
section
/-! SUPPORT. A command's written values land one by one: the two passes of a command in flight (write,
then settle) leave the state of `land`, and the shapes of commands in those terms. -/

namespace Sys2Proof.Machine

theorem placeOk_landOne (ok : Bool) (s : State) (q : Place × F32) {p : Place} (hk : q.1.key ≠ p.key)
    (h : placeOk s p) : placeOk (landOne ok s q) p := by
  cases p with
  | slot u i =>
    have hr : ∀ v, ring (putPlace s q.1 v) u = ring s u := by
      intro v
      obtain ⟨a, w⟩ := q
      cases a with
      | slot a j =>
        have ha : a ≠ u := fun e => hk (by rw [e]; rfl)
        simp [putPlace, ring_setRing, ha]
      | _ => rfl
    simp only [landOne]
    split
    · simpa only [placeOk, hr] using h
    · show i < (ring (putPlace s q.1 _) u).cap ∧ ringWf (ring (putPlace s q.1 _) u) = true
      rw [hr]
      exact h
  | _ => trivial

/-- Writing all values and then settling them is landing them one by one: for places that share no
storage. -/
theorem settle_putAll (ok : Bool) (ws : List (Place × F32)) (s : State)
    (hn : (ws.map fun q => q.1.key).Nodup) (hok : ∀ q ∈ ws, placeOk s q.1) :
    (ws.map Prod.fst).foldl (settlePlace ok) (putAll ws s) = land ok ws s := by
  induction ws generalizing s with
  | nil => rfl
  | cons q ws ih =>
    obtain ⟨p, v⟩ := q
    simp only [List.map_cons, List.nodup_cons] at hn
    have hp : placeOk s p := hok (p, v) (by simp)
    have hk : ∀ r ∈ ws, p.key ≠ r.1.key := fun r hr e => hn.1 (List.mem_map.mpr ⟨r, hr, e.symm⟩)
    have hne : p ∉ ws.map Prod.fst := fun h => by
      obtain ⟨r, hr, e⟩ := List.mem_map.mp h
      exact hk r hr (by rw [e])
    have hget : getPlace (putAll ws (putPlace s p v)) p = v := by
      rw [getPlace_putAll_ne _ _ _ hne, getPlace_putPlace _ _ _ hp]
    have hfree : (putAll ws (putPlace s p v)).free = s.free := by rw [putAll_free, putPlace_free]
    have hone : settlePlace ok (putAll ws (putPlace s p v)) p = putAll ws (landOne ok s (p, v)) := by
      simp only [settlePlace, landOne, hget, hfree]
      split
      · rfl
      · rw [putPlace_putAll_comm _ _ _ _ hk, putPlace_putPlace _ _ _ _ hp]
        exact (putAll_free_comm ws _ _).symm
    have hnext : ∀ r ∈ ws, placeOk (landOne ok s (p, v)) r.1 :=
      fun r hr => placeOk_landOne _ _ _ (hk r hr) (hok r (by simp [hr]))
    show (ws.map Prod.fst).foldl (settlePlace ok) (settlePlace ok (putAll ws (putPlace s p v)) p) = _
    rw [hone]
    exact ih _ hn.2 hnext

/-- The end of a command that wrote `ws` over the state `s`. -/
theorem complete_eq_landed (w : Work) (ws : List (Place × F32)) (s : State)
    (hst : w.st = putAll ws s) (hw : w.wrote = ws.map Prod.fst)
    (hn : (ws.map fun q => q.1.key).Nodup) (hok : ∀ q ∈ ws, placeOk s q.1) :
    complete w = landed w.dom ws s := by
  simp only [complete, landed, finishWork, hst, hw, settle_putAll w.dom ws s hn hok]

/-- The end of a command, given what it did: the written places hold what the command put there, or free
values, over the state before it with the pushed cursors advanced. -/
theorem Moves.landed {s : State} {w : Work} {ps : List Place} {us : List RbUnit}
    (h : Moves (startWork s) w ps us) (hs : Memory.wf s = true) (hn : (ps.map Place.key).Nodup)
    (hu : ∀ u ∈ us, (ring s u).cap ≠ 0) (hp : ∀ p ∈ ps, placeOk s p) :
    complete w = landed w.dom (valuesAt ps w.st) (advanced us s) := by
  refine complete_eq_landed w _ _ (h.st hs hu (nodup_of_key hn)) ?_ ?_ ?_
  · rw [valuesAt_fst]
    simpa using h.wrote
  · simpa [valuesAt, Function.comp_def] using hn
  · intro q hq
    obtain ⟨p, hm, rfl⟩ := List.mem_map.mp hq
    have := hp p hm
    cases p with
    | slot u i =>
      refine ⟨by rw [advanced_cap]; exact this.1, ?_⟩
      exact (wf_iff _).mp (advanced_wf us s hu hs) u
    | _ => trivial

/-- The slot at the cursor of a unit with slots is a place. -/
theorem placeOk_cursor {s : State} {u : RbUnit} (h : Memory.wf s = true) (hu : (ring s u).cap ≠ 0) :
    placeOk s (.slot u (ring s u).wr) := by
  have hr := (wf_iff _).mp h u
  refine ⟨?_, hr⟩
  simp only [ringWf, Bool.and_eq_true, decide_eq_true_eq] at hr
  omega

/-! ## The places of the engine commands share no storage -/

theorem shimPlaces_keys (s : State) (d : Reg) : ((shimPlaces s ++ [Place.x d]).map Place.key).Nodup := by
  simp [shimPlaces, Place.key]

theorem dlyPlaces_keys {l r : Reg} (s : State) (h : l ≠ r) : ((dlyPlaces l r s).map Place.key).Nodup := by
  simpa [dlyPlaces, Place.key] using h

theorem satPlaces_keys {l r : Reg} (s : State) (h : l ≠ r) : ((satPlaces l r s).map Place.key).Nodup := by
  cases hc : flt 0 s.params.satComp <;> simp only [satPlaces, compPlaces, hc] <;> simpa [Place.key] using h

theorem revPlaces_keys {l r : Reg} (s : State) (h : l ≠ r) : ((revPlaces l r s).map Place.key).Nodup := by
  cases hg : gateOpen s <;> simp only [revPlaces, shimPlaces, hg] <;> simpa [Place.key] using h

/-! ## The shapes of commands -/

/-- One operand, one result. -/
theorem unaryOp_eq (f : F32 → F32) (d r : Reg) (s : State) :
    unaryOp f d r s = landed (isFinite (readX s r)) [(.x d, f (readX s r))] s :=
  complete_eq_landed _ _ s rfl rfl (by simp) (by simp [placeOk])

/-- Three operands, one result. -/
theorem ternaryOp_eq (f : F32 → F32 → F32 → F32) (d a b c : Reg) (s : State) :
    ternaryOp f d a b c s = landed (isFinite (readX s a) && isFinite (readX s b) && isFinite (readX s c))
      [(.x d, f (readX s a) (readX s b) (readX s c))] s :=
  complete_eq_landed _ _ s rfl rfl (by simp) (by simp [placeOk])

end Sys2Proof.Machine
end

