-- ==== Sys2Proof/Laws/Shapes.lean ====
section
/-! SUPPORT. What each command does to the control state and to the storage as a whole, once for every
command: it ends in a fault entry, or keeps what its family keeps. -/

namespace Sys2Proof.Machine

open Config (Cfg)

/-- From `s` to `t` nothing changed but value registers, ring-buffer slots and cursors, filter states and
engine scalars; storage stays canonical. -/
structure Quiet (s t : State) : Prop where
  control : control t = control s
  revc    : t.revc = s.revc
  dlyc    : t.dlyc = s.dlyc
  satc    : t.satc = s.satc
  cap     : ∀ u, (ring t u).cap = (ring s u).cap
  wf      : Memory.wf s = true → Memory.wf t = true

/-- A field of a block cache. -/
def Place.isCache : Place → Bool
  | .revc _ | .dlyc _ | .satc _ => true
  | _ => false

theorem frame_caches {ps : List Place} {us : List RbUnit} {s t : State} (h : Frame ps us s t)
    (hp : ∀ p ∈ ps, p.isCache = false) : t.revc = s.revc ∧ t.dlyc = s.dlyc ∧ t.satc = s.satc := by
  have out : ∀ p, p.isCache = true → getPlace t p = getPlace s p := fun p hc =>
    h.place p fun hm => by simp [hp p hm] at hc
  have hhp : t.dlyc.hp = s.dlyc.hp := congrArg Control.hp h.control
  refine ⟨?_, ?_, ?_⟩
  · have a := out (.revc .dampA) rfl
    have b := out (.revc .aLo) rfl
    have c := out (.revc .aHi) rfl
    have d := out (.revc .aPre) rfl
    have e := out (.revc .aPost) rfl
    cases hs : s.revc; cases ht : t.revc
    simp_all [getPlace, getRevc]
  · have a := out (.dlyc .d1) rfl
    have b := out (.dlyc .d2) rfl
    have c := out (.dlyc .aTone) rfl
    have d := out (.dlyc .lfoInc) rfl
    cases hs : s.dlyc; cases ht : t.dlyc
    simp_all [getPlace, getDlyc]
  · have a := out (.satc .aRel) rfl
    have b := out (.satc .aWarm) rfl
    have c := out (.satc .aTone) rfl
    have d := out (.satc .aCompRel) rfl
    have e := out (.satc .outGain) rfl
    cases hs : s.satc; cases ht : t.satc
    simp_all [getPlace, getSatc]

/-- The result of a command: a fault entry, or a quiet next state. -/
def Quietly (i : Instr) (s : State) (r : Result) : Prop :=
  ∀ t, r = .next t → (∃ k, t = raised k (encode i) s) ∨ Quiet s t

theorem quietly_complete {i : Instr} {s : State} {w : Work} {ps : List Place} {us : List RbUnit}
    (h : Moves (startWork s) w ps us) (hp : ∀ p ∈ ps, p.isCache = false)
    (hu : ∀ u ∈ us, (ring s u).cap ≠ 0) : Quietly i s (complete w) := by
  intro t ht
  obtain ⟨t', h1, -, hf, -, -, -, hwf⟩ := complete_moves h
  rw [h1] at ht
  cases ht
  obtain ⟨c1, c2, c3⟩ := frame_caches hf hp
  exact .inr ⟨hf.control, c1, c2, c3, hf.cap, hwf hu⟩

theorem quietly_next {i : Instr} {s t : State} (h : Quiet s t) : Quietly i s (.next t) := by
  intro t' ht
  cases ht
  exact .inr h

theorem quietly_raise (i : Instr) (s : State) (k : FaultCode) : Quietly i s (raiseFault k i s) := by
  intro t ht
  cases ht
  exact .inl ⟨k, rfl⟩

theorem quietly_onRing {i : Instr} {s : State} {u : RbUnit} {r : Result}
    (h : (ring s u).cap ≠ 0 → Quietly i s r) : Quietly i s (onRing u i s r) := by
  unfold onRing
  split
  · exact quietly_raise _ _ _
  · exact h ‹_›

theorem quietly_onPrepared {i : Instr} {s : State} {e : Engine} {r : Result} (h : Quietly i s r) :
    Quietly i s (onPrepared e i s r) := by
  unfold onPrepared
  split
  · exact h
  · exact quietly_raise _ _ _

theorem quietly_stop (i : Instr) (s : State) (f : Fault) : Quietly i s (.fault f) := by
  intro t ht
  cases ht

theorem quiet_writeX (s : State) (d : Reg) (v : F32) : Quiet s (writeX s d v) :=
  ⟨rfl, rfl, rfl, rfl, fun _ => rfl, fun h => h⟩

theorem quiet_setFilter (s : State) (f : FsUnit) (q : FilterUnit) : Quiet s (setFilter s f q) :=
  ⟨rfl, rfl, rfl, rfl, fun _ => rfl, fun h => h⟩

theorem Quiet.respond {s t : State} (h : Quiet s t) (v : Word32) : Quiet s (respond t v) :=
  ⟨h.control, h.revc, h.dlyc, h.satc, h.cap, h.wf⟩

theorem Quiet.refl (s : State) : Quiet s s :=
  ⟨rfl, rfl, rfl, rfl, fun _ => rfl, fun h => h⟩

theorem quietly_unary (i : Instr) (f : F32 → F32) (d r : Reg) (s : State) :
    Quietly i s (unaryOp f d r s) := by
  simp only [unaryOp]
  exact quietly_complete (((Moves.refl (startWork s)).read _).write _ _) (by simp [Place.isCache])
    (by simp)

theorem quietly_ternary (i : Instr) (f : F32 → F32 → F32 → F32) (d a b c : Reg) (s : State) :
    Quietly i s (ternaryOp f d a b c s) := by
  simp only [ternaryOp]
  exact quietly_complete (((((Moves.refl (startWork s)).read _).read _).read _).write _ _)
    (by simp [Place.isCache]) (by simp)

theorem quietly_read (i : Instr) (read : Work → RbUnit → F32 → F32 × Work)
    (hr : ∀ w u d, Moves w (read w u d).2 [] []) (d : Reg) (u : RbUnit) (r : Reg) (s : State) :
    Quietly i s (readOp read d u r s) := by
  simp only [readOp]
  exact quietly_complete ((((Moves.refl (startWork s)).read _).trans (hr _ _ _)).write _ _)
    (by simp [Place.isCache]) (by simp)

theorem quietly_filter (i : Instr) (stepf : Work → FsUnit → F32 → F32 → F32 × Work)
    (hr : ∀ w f x a, Moves w (stepf w f x a).2 [.fsX f, .fsY f] []) (d : Reg) (f : FsUnit) (r a : Reg)
    (s : State) : Quietly i s (filterOp stepf d f r a s) := by
  simp only [filterOp]
  exact quietly_complete (((((Moves.refl (startWork s)).read _).read _).trans (hr _ _ _ _)).write _ _)
    (by simp [Place.isCache]) (by simp)

theorem quietly_tilt (i : Instr) (tilt : Work → Channel → F32 → F32 × Work)
    (hr : ∀ w ch v, ∃ ps, Moves w (tilt w ch v).2 ps [] ∧ ∀ p ∈ ps, p.isCache = false) (d : Reg)
    (ch : Channel) (r : Reg) (s : State) : Quietly i s (tiltOp tilt d ch r s) := by
  simp only [tiltOp]
  obtain ⟨ps, h, hp⟩ := hr (readPlace (startWork s) (.x r)).2 ch (readPlace (startWork s) (.x r)).1
  refine quietly_complete ((((Moves.refl (startWork s)).read _).trans h).write _ _) ?_ (by simp)
  intro p hm
  simp only [List.nil_append, List.mem_append, List.mem_singleton] at hm
  rcases hm with hm | rfl
  · exact hp p hm
  · rfl

theorem rdiWork_moves (w : Work) (u : RbUnit) (d : F32) : Moves w (rdiWork w u d).2 [] [] :=
  ⟨by simp, Frame.refl _, rfl, rfl, fun _ h => h, by simp, by simp_all, fun _ _ _ => rfl⟩

theorem hpWork_moves (w : Work) (f : FsUnit) (x a : F32) :
    Moves w (hpWork w f x a).2 [.fsX f, .fsY f] [] := by
  rw [hpWork_snd]
  exact lpWork_moves w f x a

theorem rdcWork_moves (w : Work) (u : RbUnit) (d : F32) : Moves w (rdcWork w u d).2 [] [] :=
  ⟨by simp, Frame.refl _, rfl, rfl, fun _ h => h, by simp, by simp_all, fun _ _ _ => rfl⟩

/-- An engine whose units all have slots. -/
theorem slots_of_engine {e : Engine} {s : State} (h : engineHasSlots e s = true) :
    ∀ u ∈ (ownedRings e).map ownedUnit, (ring s u).cap ≠ 0 := by
  intro u hu
  obtain ⟨v, hv, rfl⟩ := List.mem_map.mp hu
  simpa using List.all_eq_true.mp h v hv

theorem revUnits_slots {s : State} (h : engineHasSlots .rev s = true) :
    ∀ u ∈ revUnits s, (ring s u).cap ≠ 0 := by
  intro u hu
  refine slots_of_engine h u ?_
  revert hu
  unfold revUnits
  split <;> (revert u; decide)

/-- What every command but `CSRW`, `PREPARE`, `BLOCK`, `RB.INIT` and `RB.INIT2` does: a fault entry, or a
quiet next state. -/
theorem exec_quietly (i : Instr) (s : State) (h1 : ∀ n v, i ≠ .csrw n v) (h2 : ∀ e m, i ≠ .prepare e m)
    (h3 : ∀ e, i ≠ .block e) (h4 : ∀ u c, i ≠ .rbInit u c) (h5 : ∀ u c, i ≠ .rbInit2 u c) :
    Quietly i s (exec i s) := by
  cases i with
  | csrw n v => exact absurd rfl (h1 n v)
  | prepare e m => exact absurd rfl (h2 e m)
  | block e => exact absurd rfl (h3 e)
  | rbInit u c => exact absurd rfl (h4 u c)
  | rbInit2 u c => exact absurd rfl (h5 u c)
  | nop => exact quietly_next ((Quiet.refl s).respond _)
  | ldv d v => exact quietly_next ((quiet_writeX s d v).respond _)
  | rdv r => exact quietly_next ((Quiet.refl s).respond _)
  | mov d r => exact quietly_next ((quiet_writeX s d _).respond _)
  | csrr n => exact quietly_next ((Quiet.refl s).respond _)
  | rbPush u r =>
    refine quietly_onRing fun hc => quietly_next (Quiet.respond ?_ _)
    have hf := pushRing_frame s u (readX s r)
    obtain ⟨c1, c2, c3⟩ := frame_caches hf (by simp [Place.isCache])
    exact ⟨hf.control, c1, c2, c3, hf.cap, fun h =>
      setRing_memory_wf _ _ _ h (pushRing_wf _ _ hc ((wf_iff _).mp h u))⟩
  | rbRdn d u k => exact quietly_onRing fun _ => quietly_next ((quiet_writeX s d _).respond _)
  | rbRdi d u r => exact quietly_onRing fun _ => quietly_read _ _ rdiWork_moves _ _ _ _
  | rbRdl d u r => exact quietly_onRing fun _ => quietly_read _ _ rdlWork_moves _ _ _ _
  | rbRdc d u r => exact quietly_onRing fun _ => quietly_read _ _ rdcWork_moves _ _ _ _
  | rbRdp d u r => exact quietly_onRing fun _ => quietly_read _ _ rdpWork_moves _ _ _ _
  | rbCap u => exact quietly_next ((Quiet.refl s).respond _)
  | rbCur u => exact quietly_next ((Quiet.refl s).respond _)
  | apProc d u r g =>
    refine quietly_onRing fun hc => ?_
    exact quietly_complete (((((Moves.refl (startWork s)).read _).read _).ap (by simp) _ _).write _ _)
      (by simp [Place.isCache]) (by simpa using hc)
  | fClr f => exact quietly_next ((quiet_setFilter s f _).respond _)
  | fLp d f r a => exact quietly_filter _ _ lpWork_moves _ _ _ _ _
  | fHp d f r a => exact quietly_filter _ _ hpWork_moves _ _ _ _ _
  | fDcb d f r a => exact quietly_filter _ _ dcbWork_moves _ _ _ _ _
  | slim d r => exact quietly_unary _ _ _ _ _
  | clamp d a b c => exact quietly_ternary _ _ _ _ _ _ _
  | fCoef d r =>
    show Quietly _ s (coefWith Config.cfg d r s)
    unfold coefWith
    split
    · exact quietly_unary _ _ _ _ _
    · exact quietly_raise _ _ _
  | tiltRev d ch r =>
    exact quietly_onPrepared (quietly_tilt _ _ (fun w ch v =>
      ⟨_, tiltRevWork_moves _ w ch v, by simp [Place.isCache]⟩) _ _ _ _)
  | tiltDly d ch r =>
    exact quietly_onPrepared (quietly_tilt _ _ (fun w ch v =>
      ⟨_, tiltDlyWork_moves w ch v, by simp [Place.isCache]⟩) _ _ _ _)
  | tiltSat d ch r =>
    exact quietly_onPrepared (quietly_tilt _ _ (fun w ch v =>
      ⟨_, tiltSatWork_moves _ w ch v, by simp [Place.isCache]⟩) _ _ _ _)
  | shimWin d r => exact quietly_unary _ _ _ _ _
  | shimStep d r =>
    refine quietly_onPrepared ?_
    split
    · next h =>
      exact quietly_complete ((((Moves.refl (startWork s)).read _).trans
        (shimStepWork_moves _ _ _)).write _ _) (by simp [Place.isCache, shimPlaces])
        (by simpa using slots_of_engine h 12 (by decide))
    · exact quietly_stop _ _ _
  | dlyTime d r => exact quietly_unary _ _ _ _ _
  | dlyRatio d r =>
    show Quietly _ s (execDlyRatio d r s)
    simp only [execDlyRatio]
    refine quietly_complete (ps := [.x d]) (us := []) ?_ (by simp [Place.isCache]) (by simp)
    split
    · exact (Moves.refl (startWork s)).write _ _
    · exact ((Moves.refl (startWork s)).see _).write _ _
  | dlySample l r =>
    refine quietly_onPrepared ?_
    split
    · next h =>
      refine quietly_complete (dlySampleWork_moves _ _ _ _) (by simp [Place.isCache, dlyPlaces]) ?_
      intro u hu
      refine slots_of_engine h u ?_
      revert u
      decide
    · exact quietly_stop _ _ _
  | satTape d a b c => exact quietly_ternary _ _ _ _ _ _ _
  | satTube d a b c => exact quietly_ternary _ _ _ _ _ _ _
  | satClip d a b c => exact quietly_ternary _ _ _ _ _ _ _
  | satFold d a b c => exact quietly_ternary _ _ _ _ _ _ _
  | satXf d a b c => exact quietly_ternary _ _ _ _ _ _ _
  | satOutg d r => exact quietly_unary _ _ _ _ _
  | satSample l r =>
    refine quietly_onPrepared (quietly_complete (satSampleWork_moves _ _ _ _) ?_ (by simp))
    simp only [satPlaces, compPlaces]
    split <;> simp [Place.isCache]
  | revDecay d r => exact quietly_unary _ _ _ _ _
  | revDamp d r => exact quietly_unary _ _ _ _ _
  | revSample l r =>
    refine quietly_onPrepared ?_
    split
    · next h =>
      refine quietly_complete (revSampleWork_moves _ _ _ _) ?_ (revUnits_slots h)
      simp only [revPlaces, shimPlaces]
      split <;> simp [Place.isCache]
    · exact quietly_stop _ _ _

end Sys2Proof.Machine
end

