-- ==== Sys2Proof/Laws/Prepare.lean ====
section
/-! SUPPORT. What `PREPARE`, `BLOCK`, `RB.INIT` and `CSRW` write: the owned units, the scalars, the
latched rate and the cache, part by part. -/

namespace Sys2Proof.Machine

open Config (Cfg)

/-! ## The parts of PREPARE -/

theorem prepareRings_ring (size : Fin 17 → Nat) (us : List (Fin 17)) (s : State) (v : RbUnit) :
    ring (prepareRings size us s) v
      = if h : ∃ u ∈ us, ownedUnit u = v then freshRing (size ⟨v.val, by
          obtain ⟨u, -, rfl⟩ := h; exact u.isLt⟩) else ring s v := by
  induction us generalizing s with
  | nil => simp [prepareRings]
  | cons a us ih =>
    show ring (prepareRings size us (setRing s (ownedUnit a) (freshRing (size a)))) v = _
    rw [ih]
    by_cases h : ∃ u ∈ us, ownedUnit u = v
    · have h' : ∃ u ∈ a :: us, ownedUnit u = v := by
        obtain ⟨u, hu, e⟩ := h; exact ⟨u, by simp [hu], e⟩
      rw [dif_pos h, dif_pos h']
    · rw [dif_neg h, ring_setRing]
      by_cases ha : ownedUnit a = v
      · subst ha
        have h' : ∃ u ∈ a :: us, ownedUnit u = ownedUnit a := ⟨a, by simp, rfl⟩
        rw [if_pos rfl, dif_pos h']
        rfl
      · have h' : ¬∃ u ∈ a :: us, ownedUnit u = v := by
          rintro ⟨u, hu, e⟩
          rcases List.mem_cons.mp hu with rfl | hu
          · exact ha e
          · exact h ⟨u, hu, e⟩
        rw [if_neg ha, dif_neg h']

theorem ownedUnit_inj {u v : Fin 17} (h : ownedUnit u = ownedUnit v) : u = v :=
  Fin.ext (Fin.mk.inj h)

/-- An owned unit after the sizing. -/
theorem prepareRings_owned (size : Fin 17 → Nat) (us : List (Fin 17)) (s : State) {u : Fin 17}
    (h : u ∈ us) : ring (prepareRings size us s) (ownedUnit u) = freshRing (size u) := by
  rw [prepareRings_ring, dif_pos ⟨u, h, rfl⟩]
  rfl

/-- A unit that is not owned keeps everything. -/
theorem prepareRings_other (size : Fin 17 → Nat) (us : List (Fin 17)) (s : State) {v : RbUnit}
    (h : ∀ u ∈ us, ownedUnit u ≠ v) : ring (prepareRings size us s) v = ring s v := by
  rw [prepareRings_ring, dif_neg]
  rintro ⟨u, hu, e⟩
  exact h u hu e

/-- Whatever no `RB[u]` update changes, the sizing does not change. -/
theorem prepareRings_inv {α : Type} (f : State → α) (hf : ∀ s u b, f (setRing s u b) = f s)
    (size : Fin 17 → Nat) (us : List (Fin 17)) (s : State) : f (prepareRings size us s) = f s := by
  induction us generalizing s with
  | nil => rfl
  | cons a us ih => exact (ih _).trans (hf _ _ _)

/-- Whatever no `FS[f]` update changes, the clearing does not change. -/
theorem prepareFilters_inv {α : Type} (f : State → α) (hf : ∀ s u q, f (setFilter s u q) = f s)
    (fs : List FsUnit) (s : State) : f (prepareFilters fs s) = f s := by
  induction fs generalizing s with
  | nil => rfl
  | cons a fs ih => exact (ih _).trans (hf _ _ _)

theorem prepareFilters_filter (fs : List FsUnit) (s : State) (f : FsUnit) :
    filter (prepareFilters fs s) f = if f ∈ fs then { x1 := 0, y1 := 0 } else filter s f := by
  induction fs generalizing s with
  | nil => simp [prepareFilters]
  | cons a fs ih =>
    show filter (prepareFilters fs (setFilter s a _)) f = _
    rw [ih, filter_setFilter]
    by_cases h : f ∈ fs
    · simp [h]
    · by_cases ha : a = f
      · simp [ha]
      · simp [h, ha, Ne.symm ha]

/-! ## Latching a cache -/

theorem latchRev_moves (c : Cfg) (w : Work) : Moves w (latchRev c w) (cachePlaces .rev) [] := by
  simp only [latchRev]
  exact (Moves.refl w |>.write _ _ |>.write _ _ |>.write _ _ |>.write _ _ |>.write _ _).cast rfl rfl

/-- `t` is `s` but for the block caches and the count of free values. -/
def sameButCaches (s t : State) : Prop :=
  { t with revc := s.revc, dlyc := s.dlyc, satc := s.satc, free := s.free } = s

theorem sameButCaches_put {s t : State} {p : Place} (v : F32) (hp : p.isCache = true)
    (h : sameButCaches s t) : sameButCaches s (putPlace t p v) := by
  cases p with
  | revc k => exact h
  | dlyc k => exact h
  | satc k => exact h
  | _ => cases hp

theorem sameButCaches_settle {s t : State} {p : Place} (ok : Bool) (hp : p.isCache = true)
    (h : sameButCaches s t) : sameButCaches s (settlePlace ok t p) := by
  unfold settlePlace
  split
  · exact h
  · exact sameButCaches_put (Config.freeF32 t.free) hp h

theorem sameButCaches_settle_all {s : State} (ok : Bool) (ps : List Place)
    (hp : ∀ p ∈ ps, p.isCache = true) : ∀ t, sameButCaches s t →
    sameButCaches s (ps.foldl (settlePlace ok) t) := by
  induction ps with
  | nil => exact fun t h => h
  | cons p ps ih =>
    exact fun t h => ih (fun q hq => hp q (by simp [hq])) _ (sameButCaches_settle ok (hp p (by simp)) h)

/-- Latching an engine's cache changes the caches and the count of free values, and nothing else. -/
theorem finish_latch (c : Cfg) (e : Engine) (s : State) :
    sameButCaches s (finishWork (latchCache c e (startWork s))) := by
  refine sameButCaches_settle_all _ _ ?_ _ ?_
  · cases e <;> simp [latchCache, latchRev, latchDly, latchSat, Place.isCache]
  · have five : ∀ (p1 p2 p3 p4 p5 : Place) (v1 v2 v3 v4 v5 : F32), p1.isCache = true →
        p2.isCache = true → p3.isCache = true → p4.isCache = true → p5.isCache = true →
        sameButCaches s (putPlace (putPlace (putPlace (putPlace (putPlace s p1 v1) p2 v2) p3 v3) p4 v4)
          p5 v5) := fun _ _ _ _ _ _ _ _ _ _ h1 h2 h3 h4 h5 =>
      sameButCaches_put _ h5 (sameButCaches_put _ h4 (sameButCaches_put _ h3 (sameButCaches_put _ h2
        (sameButCaches_put _ h1 rfl))))
    cases e with
    | rev => exact five (.revc _) (.revc _) (.revc _) (.revc _) (.revc _) _ _ _ _ _ rfl rfl rfl rfl rfl
    | dly =>
      have hp : ∀ (t : State) (b : Bool), sameButCaches s t →
          sameButCaches s { t with dlyc := { t.dlyc with hp := b } } := fun _ _ h => h
      exact sameButCaches_put (p := .dlyc _) _ rfl (sameButCaches_put (p := .dlyc _) _ rfl (hp _ _
        (sameButCaches_put (p := .dlyc _) _ rfl (sameButCaches_put (p := .dlyc _) _ rfl rfl))))
    | sat => exact five (.satc _) (.satc _) (.satc _) (.satc _) (.satc _) _ _ _ _ _ rfl rfl rfl rfl rfl

/-- Whatever no cache update changes, latching a cache does not change. -/
theorem finish_latch_inv {α : Type} (f : State → α)
    (hf : ∀ s a b c n, f { s with revc := a, dlyc := b, satc := c, free := n } = f s) (c : Cfg)
    (e : Engine) (s : State) : f (finishWork (latchCache c e (startWork s))) = f s := by
  have h := congrArg f (finish_latch c e s)
  rwa [hf] at h

/-- The cache of another engine keeps its values. -/
theorem finish_latch_other (c : Cfg) (e : Engine) (s : State) (p : Place)
    (h : p ∉ cachePlaces e) :
    getPlace (finishWork (latchCache c e (startWork s))) p = getPlace s p := by
  cases e with
  | rev =>
    have hm := latchRev_moves c (startWork s)
    have hw : (latchRev c (startWork s)).wrote = cachePlaces .rev := by simpa using hm.wrote
    exact ((finishWork_frame _).place p (by simpa [latchCache, hw] using h)).trans (hm.frame.place p h)
  | dly =>
    refine ((finishWork_frame _).place p (by simpa [latchCache, latchDly, cachePlaces] using h)).trans ?_
    simp only [cachePlaces, List.mem_cons, List.not_mem_nil, or_false, not_or] at h
    obtain ⟨h1, h2, h3, h4⟩ := h
    simp only [latchCache, latchDly, writePlace_st, startWork_st]
    rw [getPlace_putPlace_ne _ _ (Ne.symm h4), getPlace_putPlace_ne _ _ (Ne.symm h3)]
    have : ∀ t : State, ∀ b, getPlace { t with dlyc := { t.dlyc with hp := b } } p = getPlace t p := by
      intro t b
      cases p with
      | dlyc k => cases k <;> rfl
      | _ => rfl
    rw [this, getPlace_putPlace_ne _ _ (Ne.symm h2), getPlace_putPlace_ne _ _ (Ne.symm h1)]
  | sat =>
    refine ((finishWork_frame _).place p (by simpa [latchCache, latchSat, cachePlaces] using h)).trans ?_
    simp only [cachePlaces, List.mem_cons, List.not_mem_nil, or_false, not_or] at h
    obtain ⟨h1, h2, h3, h4, h5⟩ := h
    simp only [latchCache, latchSat, writePlace_st, startWork_st]
    rw [getPlace_putPlace_ne _ _ (Ne.symm h5), getPlace_putPlace_ne _ _ (Ne.symm h4),
      getPlace_putPlace_ne _ _ (Ne.symm h3), getPlace_putPlace_ne _ _ (Ne.symm h2),
      getPlace_putPlace_ne _ _ (Ne.symm h1)]

/-! ## The effects of PREPARE as a whole -/

/-- The state of `PREPARE` just before it latches the cache. -/
def prepareBase (c : Cfg) (e : Engine) (m : Word32) (s : State) : State :=
  prepareRate e m (prepareScalars c e (prepareFilters (ownedFilters e)
    (prepareRings (fun u => (preparedSize c (srate s) u).getD 0) (ownedRings e) s)))

theorem prepareEffects_eq (c : Cfg) (e : Engine) (m : Word32) (s : State) :
    prepareEffects c e m s =
      { finishWork (latchCache c e (startWork (prepareBase c e m s))) with
        status := statusPrepared e
          (finishWork (latchCache c e (startWork (prepareBase c e m s)))).status
        resp := 0 } := rfl

/-- Whatever the latch, the status and the response do not touch is as it was just before the latch. -/
theorem prepareEffects_base {α : Type} (f : State → α) (c : Cfg) (e : Engine) (m : Word32) (s : State)
    (h1 : ∀ s a b c n, f { s with revc := a, dlyc := b, satc := c, free := n } = f s)
    (h2 : ∀ s a b, f { s with status := a, resp := b } = f s) :
    f (prepareEffects c e m s) = f (prepareBase c e m s) := by
  rw [prepareEffects_eq, h2, finish_latch_inv f h1]

/-- Whatever no part of `PREPARE` touches keeps its value. -/
theorem prepareEffects_inv {α : Type} (f : State → α) (c : Cfg) (e : Engine) (m : Word32) (s : State)
    (h1 : ∀ s a b c n, f { s with revc := a, dlyc := b, satc := c, free := n } = f s)
    (h2 : ∀ s a b, f { s with status := a, resp := b } = f s)
    (h3 : ∀ s u b, f (setRing s u b) = f s) (h4 : ∀ s u q, f (setFilter s u q) = f s)
    (h5 : ∀ c s, f (prepareScalars c e s) = f s) (h6 : ∀ m s, f (prepareRate e m s) = f s) :
    f (prepareEffects c e m s) = f s := by
  rw [prepareEffects_base f c e m s h1 h2, prepareBase, h6, h5, prepareFilters_inv f h4,
    prepareRings_inv f h3]

/-- The units after `PREPARE` are those after the sizing. -/
theorem prepareEffects_ring (c : Cfg) (e : Engine) (m : Word32) (s : State) (u : RbUnit) :
    ring (prepareEffects c e m s) u
      = ring (prepareRings (fun u => (preparedSize c (srate s) u).getD 0) (ownedRings e) s) u := by
  have h : ∀ t, ring (prepareRate e m (prepareScalars c e t)) u = ring t u := by
    intro t
    cases e <;> rfl
  rw [prepareEffects_base (fun t => ring t u) _ _ _ _ (fun _ _ _ _ _ => rfl) (fun _ _ _ => rfl),
    prepareBase, h, prepareFilters_inv (fun t => ring t u) (fun _ _ _ => rfl)]

/-- The filter units after `PREPARE` are those after the clearing. -/
theorem prepareEffects_filter (c : Cfg) (e : Engine) (m : Word32) (s : State) (f : FsUnit) :
    filter (prepareEffects c e m s) f
      = if f ∈ ownedFilters e then { x1 := 0, y1 := 0 } else filter s f := by
  have h : ∀ t, filter (prepareRate e m (prepareScalars c e t)) f = filter t f := by
    intro t
    cases e <;> rfl
  rw [prepareEffects_base (fun t => filter t f) _ _ _ _ (fun _ _ _ _ _ => rfl) (fun _ _ _ => rfl),
    prepareBase, h, prepareFilters_filter, prepareRings_inv (fun t => filter t f) (fun _ _ _ => rfl)]

/-- `STATUS` after `PREPARE`. -/
theorem prepareEffects_status (c : Cfg) (e : Engine) (m : Word32) (s : State) :
    (prepareEffects c e m s).status = statusPrepared e s.status := by
  have h : ∀ t, (prepareRate e m (prepareScalars c e t)).status = t.status := by
    intro t
    cases e <;> rfl
  rw [prepareEffects_eq]
  show statusPrepared e (State.status _) = _
  rw [finish_latch_inv State.status (fun _ _ _ _ _ => rfl), prepareBase, h,
    prepareFilters_inv State.status (fun _ _ _ => rfl), prepareRings_inv State.status (fun _ _ _ => rfl)]

end Sys2Proof.Machine
end

