-- ==== Sys2Proof/Laws/Cases.lean ====
section
/-! SUPPORT. The possible outcomes of each system command, and the bits of `STATUS` that a fault entry
and `PREPARE` leave alone. -/

namespace Sys2Proof.Machine

/-! ## STATUS -/

theorem raised_halted (k : FaultCode) (w : Command) (s : State) : halted (raised k w s) = true := by
  have h : (statusFaulted k s.status &&& haltBit).getLsbD 7 = true := by simp [statusFaulted, haltBit]
  simp only [halted, raised, bne_iff_ne, ne_eq]
  intro h0
  rw [h0] at h
  cases h

/-- Writing bits outside `p` does not change what `p` selects. -/
theorem select_after_write (st a b p : Word32) (ha : a &&& p = p) (hb : b &&& p = 0) :
    ((st &&& a) ||| b) &&& p = st &&& p := by
  apply BitVec.eq_of_getLsbD_eq
  intro i hi
  have h1 := congrArg (fun v : Word32 => v.getLsbD i) ha
  have h2 := congrArg (fun v : Word32 => v.getLsbD i) hb
  simp only [BitVec.getLsbD_and, BitVec.getLsbD_or, BitVec.ofNat_eq_ofNat, BitVec.getLsbD_zero]
    at h1 h2 ⊢
  revert h1 h2
  cases st.getLsbD i <;> cases a.getLsbD i <;> cases b.getLsbD i <;> cases p.getLsbD i <;> decide

/-- A fault entry changes no `PREP` bit (60_exceptions.md R344). -/
theorem raised_prepared (k : FaultCode) (w : Command) (s : State) (e : Engine) :
    prepared e (raised k w s) = prepared e s := by
  simp only [prepared, raised, statusFaulted, BitVec.or_assoc]
  rw [select_after_write] <;> cases e <;> first | decide | (cases k <;> decide)

/-- `PREPARE` sets one `PREP` bit and no other bit (47_system.md R316). -/
theorem prepared_of_status {s t : State} {e : Engine} (ht : t.status = statusPrepared e s.status) :
    prepared e t = true ∧ (∀ e', e' ≠ e → prepared e' t = prepared e' s) ∧ halted t = halted s := by
  refine ⟨?_, ?_, ?_⟩
  · simp only [prepared, ht, statusPrepared, bne_iff_ne, ne_eq]
    intro h
    have := congrArg (fun v : Word32 => v.getLsbD e.number) h
    cases e <;> simp [prepBit, Engine.number] at this
  · intro e' h
    have hk := select_after_write s.status (BitVec.allOnes 32) (prepBit e) (prepBit e') (by cases e' <;> decide)
      (by cases e <;> cases e' <;> first | exact absurd rfl h | decide)
    rw [BitVec.and_allOnes] at hk
    simp only [prepared, ht, statusPrepared, hk]
  · have hk := select_after_write s.status (BitVec.allOnes 32) (prepBit e) haltBit (by decide)
      (by cases e <;> decide)
    rw [BitVec.and_allOnes] at hk
    simp only [halted, ht, statusPrepared, hk]

/-- What a quiet step keeps, register by register. -/
theorem Quiet.registers {s t : State} (h : Quiet s t) :
    (∀ e, rateOf e t = rateOf e s) ∧ (∀ e, prepared e t = prepared e s) ∧ halted t = halted s ∧
      (∀ n, readCsr t n = readCsr s n) ∧ srate t = srate s ∧ t.params = s.params ∧
      t.inbox = s.inbox := by
  have f {α : Type} (f : Control → α) := congrArg f h.control
  have hst : t.status = s.status := f Control.status
  have hlo : t.srateLo = s.srateLo := f Control.srateLo
  have hhi : t.srateHi = s.srateHi := f Control.srateHi
  have hpa : t.params = s.params := f Control.params
  refine ⟨?_, ?_, ?_, ?_, ?_, hpa, f Control.inbox⟩
  · intro e
    cases e
    · exact f Control.rateRev
    · exact f Control.rateDly
    · exact f Control.rateSat
  · intro e
    simp only [prepared, hst]
  · simp only [halted, hst]
  · intro n
    cases n with
    | status => exact hst
    | finfo => exact f Control.finfo
    | srateLo => exact hlo
    | srateHi => exact hhi
    | maxblk e =>
      cases e
      · exact f Control.maxblkRev
      · exact f Control.maxblkDly
      · exact f Control.maxblkSat
    | variant => exact f Control.variant
    | param p => simp only [readCsr, hpa]
  · simp only [srate, hlo, hhi]

/-! ## The outcomes of the system commands -/

/-- `PREPARE` ends in a fault entry or has its whole effect (60_exceptions.md R349). -/
theorem exec_prepare_cases {e : Engine} {m : Word32} {s t : State}
    (h : exec (.prepare e m) s = .next t) :
    (∃ k, t = raised k (encode (.prepare e m)) s) ∨
      (isPosFinite64 (srate s) = true ∧
        (∀ u ∈ ownedRings e, ∃ n, preparedSize Config.cfg (srate s) u = some n ∧ 1 ≤ n
          ∧ n ≤ Config.rbCapMax) ∧
        t = prepareEffects Config.cfg e m s) := by
  change prepareWith Config.sizes Config.cfg e m s = _ at h
  simp only [prepareWith] at h
  split at h
  · cases h
    exact .inl ⟨_, rfl⟩
  · split at h
    · cases h
      exact .inl ⟨_, rfl⟩
    · split at h
      · cases h
        exact .inl ⟨_, rfl⟩
      · next h1 h2 h3 =>
        cases h
        refine .inr ⟨by simpa using h1, ?_, rfl⟩
        intro u hu
        have hm := List.mem_map_of_mem (f := preparedSize Config.cfg (srate s)) hu
        have h2' := List.any_eq_false.mp (Bool.eq_false_iff.mpr h2) _ hm
        have h3' := List.any_eq_false.mp (Bool.eq_false_iff.mpr h3) _ hm
        cases hn : preparedSize Config.cfg (srate s) u with
        | none => simp [hn] at h3'
        | some n =>
          simp [hn] at h2' h3'
          exact ⟨n, rfl, by omega, h3'⟩

/-- `BLOCK` ends in a fault entry or latches the cache. -/
theorem exec_block_cases {e : Engine} {s t : State} (h : exec (.block e) s = .next t) :
    (∃ k, t = raised k (encode (.block e)) s) ∨
      t = respond (finishWork (latchCache Config.cfg e (startWork s))) 0 := by
  change blockWith Config.cfg e s = _ at h
  unfold blockWith onPrepared at h
  split at h
  · cases h
    exact .inr rfl
  · cases h
    exact .inl ⟨_, rfl⟩

/-- `RB.INIT` and `RB.INIT2` end in a fault entry or give a fresh unit of a legal capacity. -/
theorem exec_init_cases {i : Instr} {u : RbUnit} {c : Word32} {s t : State}
    (hi : i = .rbInit u c ∨ i = .rbInit2 u c) (h : exec i s = .next t) :
    (∃ k, t = raised k (encode i) s) ∨
      (1 ≤ c.toNat ∧ c.toNat ≤ Config.rbCapMax ∧ t = respond (setRing s u (freshRing c.toNat)) 0) := by
  rcases hi with rfl | rfl
  · change rbInitWith Config.sizes u c s = _ at h
    unfold rbInitWith at h
    split at h
    · cases h
      exact .inl ⟨_, rfl⟩
    · split at h
      · cases h
        exact .inl ⟨_, rfl⟩
      · cases h
        exact .inr ⟨by omega, Nat.not_lt.mp ‹_›, rfl⟩
  · change rbInit2With Config.sizes u c s = _ at h
    unfold rbInit2With at h
    split at h
    · cases h
      exact .inl ⟨_, rfl⟩
    · split at h
      · cases h
        exact .inl ⟨_, rfl⟩
      · split at h
        · cases h
          exact .inl ⟨_, rfl⟩
        · cases h
          exact .inr ⟨by omega, Nat.not_lt.mp ‹_›, rfl⟩

/-- `CSRW` ends in a fault entry or writes the register. -/
theorem exec_csrw_cases {n : Csr} {v : Word32} {s t : State} (h : exec (.csrw n v) s = .next t) :
    (∃ k, t = raised k (encode (.csrw n v)) s) ∨ ∃ t', writeCsr s n v = some t' ∧ t = respond t' 0 := by
  change execCsrw n v s = _ at h
  unfold execCsrw at h
  split at h
  · cases h
    exact .inr ⟨_, ‹_›, rfl⟩
  · cases h
    exact .inl ⟨_, rfl⟩

/-- A register write is one of three words or one parameter. -/
theorem writeCsr_cases {s t : State} {n : Csr} {v : Word32} (h : writeCsr s n v = some t) :
    t = { s with srateLo := v } ∨ t = { s with srateHi := v } ∨ t = { s with variant := v &&& 1 } ∨
      ∃ p, n = .param p ∧ t = { s with params := s.params.put p (paramValue v) } := by
  cases n <;> simp only [writeCsr, Option.some.injEq, reduceCtorEq] at h <;> subst h
  · exact .inl rfl
  · exact .inr (.inl rfl)
  · exact .inr (.inr (.inl rfl))
  · exact .inr (.inr (.inr ⟨_, rfl, rfl⟩))

/-- Every next state of a command: a fault entry, a quiet state, or the effect of one of the five commands
that write control state or a capacity. -/
theorem exec_cases {i : Instr} {s t : State} (h : exec i s = .next t) :
    (∃ k, t = raised k (encode i) s) ∨ Quiet s t ∨
      (∃ n v t', i = .csrw n v ∧ writeCsr s n v = some t' ∧ t = respond t' 0) ∨
      (∃ e m, i = .prepare e m ∧ isPosFinite64 (srate s) = true ∧
        (∀ u ∈ ownedRings e, ∃ n, preparedSize Config.cfg (srate s) u = some n ∧ 1 ≤ n
          ∧ n ≤ Config.rbCapMax) ∧
        t = prepareEffects Config.cfg e m s) ∨
      (∃ e, i = .block e ∧ t = respond (finishWork (latchCache Config.cfg e (startWork s))) 0) ∨
      (∃ u c, (i = .rbInit u c ∨ i = .rbInit2 u c) ∧ 1 ≤ c.toNat ∧ c.toNat ≤ Config.rbCapMax ∧
        t = respond (setRing s u (freshRing c.toNat)) 0) := by
  by_cases h1 : ∃ n v, i = .csrw n v
  · obtain ⟨n, v, rfl⟩ := h1
    exact (exec_csrw_cases h).imp_right fun ⟨t', a, b⟩ => .inr (.inl ⟨n, v, t', rfl, a, b⟩)
  by_cases h2 : ∃ e m, i = .prepare e m
  · obtain ⟨e, m, rfl⟩ := h2
    exact (exec_prepare_cases h).imp_right fun a => .inr (.inr (.inl ⟨e, m, rfl, a⟩))
  by_cases h3 : ∃ e, i = .block e
  · obtain ⟨e, rfl⟩ := h3
    exact (exec_block_cases h).imp_right fun a => .inr (.inr (.inr (.inl ⟨e, rfl, a⟩)))
  by_cases h4 : ∃ u c, i = .rbInit u c ∨ i = .rbInit2 u c
  · obtain ⟨u, c, hi⟩ := h4
    exact (exec_init_cases hi h).imp_right fun a => .inr (.inr (.inr (.inr ⟨u, c, hi, a⟩)))
  push Not at h1 h2 h3 h4
  exact (exec_quietly i s h1 h2 h3 (fun u c => (h4 u c).1) (fun u c => (h4 u c).2) t h).imp_right .inl

end Sys2Proof.Machine
end

