-- ==== Sys2Proof/Laws/Encoding.lean ====
section
/-! SUPPORT. The laws of the encoding: splitting and joining words, operand fields there and back, and
what a successful decode says about the fields (30_encoding.md R90 to R97). -/

namespace Sys2Proof

/-! ## Words and fields -/

theorem splitWord_joinWord (f : Fields) : splitWord (joinWord f) = f := by
  obtain ⟨op, rd, rs1, rs2, rs3, sel, imm⟩ := f
  simp only [splitWord, joinWord, Fields.mk.injEq]
  refine ⟨?_, ?_, ?_, ?_, ?_, ?_, ?_⟩ <;>
  · apply BitVec.eq_of_getLsbD_eq
    intro i hi
    simp only [BitVec.getLsbD_extractLsb', BitVec.getLsbD_append]
    have : i < 32 := by omega
    interval_cases i <;> simp

theorem joinWord_splitWord (w : Command) : joinWord (splitWord w) = w := by
  simp only [splitWord, joinWord]
  apply BitVec.eq_of_getLsbD_eq
  intro i hi
  simp only [BitVec.getLsbD_extractLsb', BitVec.getLsbD_append]
  interval_cases i <;> simp

theorem regOf_field (r : Reg) : regOf (regField r) = r := by
  simp only [regOf, regField]
  ext
  simp

theorem unitOf_field (u : Fin 32) : unitOf (selField u.val) = .ok u := by
  have hu := u.isLt
  have : (selField u.val).toNat = u.val := by simp [selField]; omega
  simp [unitOf, this]

theorem engineOf_field (e : Engine) : engineOf (selField e.number) = .ok e := by cases e <;> rfl
theorem channelOf_field (c : Channel) : channelOf (selField c.number) = .ok c := by cases c <;> rfl
theorem csrOf_field (c : Csr) : csrOf (selField c.number) = .ok c := by
  rcases c with _ | _ | _ | _ | e | _ | p
  all_goals first | rfl | (cases e <;> rfl) | (cases p <;> rfl)

theorem regField_ne {l r : Reg} (h : l ≠ r) : regField l ≠ regField r := fun e => h (by
  have := congrArg regOf e; simpa [regOf_field] using this)

/-! ## From fields to commands -/

theorem regField_of (b : BitVec 4) : regField (regOf b) = b := by
  simp [regField, regOf]
theorem unitOf_ok {b : BitVec 8} {u : Fin 32} (h : unitOf b = .ok u) : selField u.val = b := by
  simp only [unitOf] at h
  split at h
  · cases h; simp [selField]
  · cases h
theorem engineOf_ok {b : BitVec 8} {e : Engine} (h : engineOf b = .ok e) : selField e.number = b := by
  revert h; revert b; cases e <;> decide
theorem channelOf_ok {b : BitVec 8} {e : Channel} (h : channelOf b = .ok e) : selField e.number = b := by
  revert h; revert b; cases e <;> decide
theorem csrOf_ok {b : BitVec 8} {e : Csr} (h : csrOf b = .ok e) : selField e.number = b := by
  have all : ∀ b : BitVec 8, (csrOf b).toOption.all (fun c => selField c.number == b) = true := by
    decide
  have hb := all b
  rw [h] at hb
  simpa [Except.toOption] using hb
theorem map_ok {α β : Type} {x : Except DecodeError α} {f : α → β} {y : β} (h : x.map f = .ok y) :
    ∃ a, x = .ok a ∧ f a = y := by
  cases x with
  | error e => cases h
  | ok a => exact ⟨a, rfl, by simpa [Except.map] using h⟩
theorem formed_ok {fmt : Format} {f : Fields} {x : Except DecodeError Instr} {i : Instr}
    (h : formed fmt f x = .ok i) : fmt.unusedZero f = true ∧ x = .ok i := by
  simp only [formed] at h
  split at h
  · exact ⟨by assumption, h⟩
  · cases h
theorem formedLr_ok {f : Fields} {mk : Reg → Reg → Instr} {i : Instr}
    (h : formedLr f mk = .ok i) : Format.lr.unusedZero f = true ∧ f.rd ≠ f.rs1 ∧ mk (regOf f.rd) (regOf f.rs1) = i := by
  obtain ⟨h1, h2⟩ := formed_ok h
  split at h2
  · cases h2
  · exact ⟨h1, by assumption, by cases h2; rfl⟩
theorem regOf_ne {a b : BitVec 4} (h : a ≠ b) : regOf a ≠ regOf b := fun e => h (by
  have := congrArg regField e
  simpa [regField_of] using this)

theorem encodeFields_of_decodeFields (f : Fields) (i : Instr) (h : decodeFields f = .ok i) : encodeFields i = f ∧ i.wellFormed = true := by
  obtain ⟨op, rd, rs1, rs2, rs3, sel, imm⟩ := f
  simp only [decodeFields] at h
  split at h
  all_goals first
    | cases h
    | skip
  all_goals
    rename_i ho
    have ho' := congrArg (BitVec.ofNat 8) ho
    simp only [BitVec.ofNat_toNat, BitVec.setWidth_eq] at ho'
    subst ho'
  all_goals first
    | (obtain ⟨h1, h2⟩ := formed_ok h
       first
         | (cases h2; simp [Format.unusedZero] at h1; simp [encodeFields, regField_of, Instr.wellFormed, h1])
         | (obtain ⟨a, ha, rfl⟩ := map_ok h2
            first | replace ha := unitOf_ok ha | replace ha := csrOf_ok ha | replace ha := engineOf_ok ha | replace ha := channelOf_ok ha
            simp [Format.unusedZero] at h1
            simp [encodeFields, regField_of, Instr.wellFormed, h1, ha]))
    | (obtain ⟨h1, h2, rfl⟩ := formedLr_ok h
       simp [Format.unusedZero] at h1
       simp [encodeFields, regField_of, Instr.wellFormed, h1, regOf_ne h2])

/-! ## Words under the mask of their format -/

theorem append_and_append {m n : Nat} (a c : BitVec m) (b d : BitVec n) :
    (a ++ b) &&& (c ++ d) = (a &&& c) ++ (b &&& d) := by
  apply BitVec.eq_of_getLsbD_eq
  intro j hj
  simp only [BitVec.getLsbD_and, BitVec.getLsbD_append]
  split <;> rfl

/-- The bitwise and of two words, field by field. -/
theorem joinWord_and (f g : Fields) : joinWord f &&& joinWord g =
    joinWord { op := f.op &&& g.op, rd := f.rd &&& g.rd, rs1 := f.rs1 &&& g.rs1, rs2 := f.rs2 &&& g.rs2,
               rs3 := f.rs3 &&& g.rs3, sel := f.sel &&& g.sel, imm := f.imm &&& g.imm } := by
  simp only [joinWord]
  refine (append_and_append (m := 56) (n := 8) _ _ _ _).trans (congrArg (· ++ _) ?_)
  refine (append_and_append (m := 52) (n := 4) _ _ _ _).trans (congrArg (· ++ _) ?_)
  refine (append_and_append (m := 48) (n := 4) _ _ _ _).trans (congrArg (· ++ _) ?_)
  refine (append_and_append (m := 44) (n := 4) _ _ _ _).trans (congrArg (· ++ _) ?_)
  refine (append_and_append (m := 40) (n := 4) _ _ _ _).trans (congrArg (· ++ _) ?_)
  exact append_and_append (m := 32) (n := 8) _ _ _ _
theorem joinWord_op (op : BitVec 8) : joinWord { op := op } = op.zeroExtend 64 := by
  simp only [joinWord]
  apply BitVec.eq_of_getLsbD_eq
  intro j hj
  simp only [BitVec.getLsbD_append, BitVec.getLsbD_setWidth]
  by_cases h : j < 8
  · simp [h, hj]
  · simp [h, hj, BitVec.getLsbD_of_ge op j (by omega)]
/-- A word with its unused fields zero is its opcode under the mask of its format (30_encoding.md R93). -/
theorem joinWord_mask (fmt : Format) (f : Fields) (h : fmt.unusedZero f = true) :
    joinWord f &&& fmt.mask = f.op.zeroExtend 64 := by
  obtain ⟨op, rd, rs1, rs2, rs3, sel, imm⟩ := f
  have hop : op &&& 255#8 = op := by
    have : (255#8) = BitVec.allOnes 8 := by decide
    rw [this, BitVec.and_allOnes]
  have hm : fmt.mask = joinWord (splitWord fmt.mask) := (joinWord_splitWord _).symm
  rw [hm, joinWord_and, ← joinWord_op]
  cases fmt <;> simp only [Format.unusedZero, decide_eq_true_eq] at h <;>
    simp [Format.mask, splitWord, h, hop]

/-- The word of a command under the mask of its format is its opcode (30_encoding.md R93). -/
theorem encode_mask (i : Instr) : encode i &&& i.format.mask = i.opMatch :=
  joinWord_mask _ _ (by cases i <;> rfl)

end Sys2Proof
end

