-- ==== Sys2Proof/Laws/Float.lean ====
section
/-! SUPPORT. Facts about binary32 values: the order, `min`, `max` and `clamp`, and the integral part of
a value between two integers (20_memory.md R72, R74, 40_ring_buffer.md R125). -/

namespace Sys2Proof.Machine

/-! ## Order, minimum, maximum, clamp -/

theorem orderKey_of_isZero {a : F32} (h : isZero a = true) : orderKey a = 0 := by
  simp only [isZero, beq_iff_eq] at h
  simp only [orderKey, h]
  split <;> rfl

theorem orderKey_of_mixedZeros {a b : F32} (h : mixedZeros a b = true) :
    orderKey a = 0 ∧ orderKey b = 0 := by
  simp only [mixedZeros, Bool.and_eq_true] at h
  exact ⟨orderKey_of_isZero h.1.1, orderKey_of_isZero h.1.2⟩

theorem fle_iff {a b : F32} :
    fle a b = true ↔ isNaN a = false ∧ isNaN b = false ∧ orderKey a ≤ orderKey b := by
  simp [fle, and_assoc]

theorem flt_iff {a b : F32} :
    flt a b = true ↔ isNaN a = false ∧ isNaN b = false ∧ orderKey a < orderKey b := by
  simp [flt, and_assoc]

theorem isNaN_openNaN : isNaN openNaN = true := by decide

/-! ### Flushed results -/

theorem isSubnormal_iff {a : F32} :
    isSubnormal a = true ↔ 0 < a.toNat % 2 ^ 31 ∧ a.toNat % 2 ^ 31 < 2 ^ 23 := by
  simp only [isSubnormal, expField, Bool.and_eq_true, beq_iff_eq, bne_iff_ne]
  omega

theorem zeroLike_toNat (a : F32) : (zeroLike a).toNat % 2 ^ 31 = 0 := by
  simp only [zeroLike, BitVec.toNat_and]
  show (a.toNat &&& 2 ^ 31) % 2 ^ 31 = 0
  rw [Nat.and_two_pow]
  exact Nat.mul_mod_left _ _

/-- Flushing changes a subnormal number alone, and gives a zero. -/
theorem flushed_cases (a : F32) :
    flushed a = a ∨ (isSubnormal a = true ∧ (flushed a).toNat % 2 ^ 31 = 0) := by
  unfold flushed
  split
  · split
    · exact .inr ⟨‹_›, zeroLike_toNat a⟩
    · exact .inl rfl
  · exact .inl rfl

theorem flushed_of_not_subnormal {a : F32} (h : isSubnormal a = false) : flushed a = a := by
  simp [flushed, h]

theorem isNaN_flushed (a : F32) : isNaN (flushed a) = isNaN a := by
  rcases flushed_cases a with h | ⟨h, h0⟩
  · rw [h]
  · have := isSubnormal_iff.mp h
    have e1 : (expField (flushed a) == 255) = false := by simp only [expField, beq_eq_false_iff_ne]; omega
    have e2 : (expField a == 255) = false := by simp only [expField, beq_eq_false_iff_ne]; omega
    simp [isNaN, e1, e2]

theorem isFinite_flushed (a : F32) : isFinite (flushed a) = isFinite a := by
  rcases flushed_cases a with h | ⟨h, h0⟩
  · rw [h]
  · have := isSubnormal_iff.mp h
    have e1 : (expField (flushed a) == 255) = false := by simp only [expField, beq_eq_false_iff_ne]; omega
    have e2 : (expField a == 255) = false := by simp only [expField, beq_eq_false_iff_ne]; omega
    simp [isFinite, bne, e1, e2]

/-- Flushing respects a bound that is not subnormal, on either side. -/
theorem orderKey_flushed {a b : F32} (hb : isSubnormal b = false) :
    (orderKey b ≤ orderKey a → orderKey b ≤ orderKey (flushed a))
      ∧ (orderKey a ≤ orderKey b → orderKey (flushed a) ≤ orderKey b) := by
  rcases flushed_cases a with h | ⟨h, h0⟩
  · rw [h]
    exact ⟨id, id⟩
  · have ha := isSubnormal_iff.mp h
    have hb' : ¬(0 < b.toNat % 2 ^ 31 ∧ b.toNat % 2 ^ 31 < 2 ^ 23) := fun hc => by
      rw [isSubnormal_iff.mpr hc] at hb
      cases hb
    have hk : orderKey (flushed a) = 0 := by
      simp only [orderKey, h0]
      split <;> rfl
    rw [hk]
    simp only [orderKey]
    constructor <;> intro hle <;> split at hle <;> split at hle <;> omega

/-! ### Minimum, maximum, clamp -/

/-- The minimum of two numbers is one of them, and not above either. -/
theorem pickMin_spec {a b : F32} (ha : isNaN a = false) (hb : isNaN b = false) :
    (pickMin a b = a ∨ pickMin a b = b) ∧ orderKey (pickMin a b) ≤ orderKey a
      ∧ orderKey (pickMin a b) ≤ orderKey b := by
  unfold pickMin
  simp only [ha, hb, Bool.or_self, Bool.false_eq_true, if_false]
  split
  · next h =>
    obtain ⟨h1, h2⟩ := orderKey_of_mixedZeros h
    split <;> simp [h1, h2]
  · split
    · next h => have := (flt_iff.mp h).2.2; simp; omega
    · next h =>
      have : ¬orderKey b < orderKey a := fun hlt => h (flt_iff.mpr ⟨hb, ha, hlt⟩)
      simp; omega

/-- The maximum of two numbers is one of them, and not below either. -/
theorem pickMax_spec {a b : F32} (ha : isNaN a = false) (hb : isNaN b = false) :
    (pickMax a b = a ∨ pickMax a b = b) ∧ orderKey a ≤ orderKey (pickMax a b)
      ∧ orderKey b ≤ orderKey (pickMax a b) := by
  unfold pickMax
  simp only [ha, hb, Bool.or_self, Bool.false_eq_true, if_false]
  split
  · next h =>
    obtain ⟨h1, h2⟩ := orderKey_of_mixedZeros h
    split <;> simp [h1, h2]
  · split
    · next h => have := (flt_iff.mp h).2.2; simp; omega
    · next h =>
      have : ¬orderKey a < orderKey b := fun hlt => h (flt_iff.mpr ⟨ha, hb, hlt⟩)
      simp; omega

/-- The minimum is a flushed operand, and not above a bound that is not subnormal. -/
theorem fmin_spec {a b : F32} (ha : isNaN a = false) (hb : isNaN b = false) :
    (fmin a b = flushed a ∨ fmin a b = flushed b)
      ∧ (isSubnormal b = false → orderKey (fmin a b) ≤ orderKey b) := by
  obtain ⟨h1, -, h3⟩ := pickMin_spec ha hb
  exact ⟨h1.imp (congrArg flushed) (congrArg flushed), fun hs => (orderKey_flushed hs).2 h3⟩

/-- A NaN operand gives a NaN. -/
theorem fmin_nan {a b : F32} (h : isNaN a = true ∨ isNaN b = true) : isNaN (fmin a b) = true := by
  have : (isNaN a || isNaN b) = true := by simpa using h
  simp [fmin, pickMin, this, isNaN_flushed, isNaN_openNaN]

theorem fmax_nan {a b : F32} (h : isNaN a = true ∨ isNaN b = true) : isNaN (fmax a b) = true := by
  have : (isNaN a || isNaN b) = true := by simpa using h
  simp [fmax, pickMax, this, isNaN_flushed, isNaN_openNaN]

/-- A clamp of a number has every property of the three operands that flushing keeps, and lies between
the lower and the larger bound. -/
theorem fclamp_spec {v lo hi : F32} (hv : isNaN v = false) (hlo : isNaN lo = false)
    (hhi : isNaN hi = false) (slo : isSubnormal lo = false) (shi : isSubnormal hi = false) :
    (∀ P : F32 → Prop, (∀ a, P a → P (flushed a)) → P v → P lo → P hi → P (fclamp v lo hi))
      ∧ orderKey lo ≤ orderKey (fclamp v lo hi)
      ∧ orderKey (fclamp v lo hi) ≤ max (orderKey lo) (orderKey hi) := by
  obtain ⟨h1, h2⟩ := fmin_spec hv hhi
  have hm : isNaN (fmin v hi) = false := by rcases h1 with h | h <;> rw [h, isNaN_flushed] <;> assumption
  obtain ⟨g1, g2, -⟩ := pickMax_spec hlo hm
  have hmax : orderKey (pickMax lo (fmin v hi)) ≤ max (orderKey lo) (orderKey hi) := by
    have := h2 shi
    rcases g1 with g | g <;> rw [g] <;> omega
  refine ⟨fun P hP pv plo phi => ?_, (orderKey_flushed slo).1 g2, ?_⟩
  · refine hP _ ?_
    rcases g1 with g | g <;> rw [g]
    · exact plo
    · rcases h1 with h | h <;> rw [h]
      · exact hP _ pv
      · exact hP _ phi
  · show orderKey (flushed _) ≤ _
    rcases Int.le_total (orderKey lo) (orderKey hi) with hle | hle
    · rw [Int.max_eq_right hle] at hmax ⊢
      exact (orderKey_flushed shi).2 hmax
    · rw [Int.max_eq_left hle] at hmax ⊢
      exact (orderKey_flushed slo).2 hmax

theorem isNaN_fclamp_of_nan {v lo hi : F32} (h : isNaN v = true) : isNaN (fclamp v lo hi) = true :=
  fmax_nan (.inr (fmin_nan (.inl h)))

theorem magnitude_toNat (v : F32) : (magnitude v).toNat = v.toNat % 2 ^ 31 := by
  simp only [magnitude, BitVec.toNat_and]
  exact Nat.and_two_pow_sub_one_eq_mod _ 31

/-- The magnitude of a value is what its order key measures. -/
theorem orderKey_magnitude (v : F32) : orderKey (magnitude v) = (orderKey v).natAbs := by
  have hlt : v.toNat % 2 ^ 31 < 2 ^ 31 := Nat.mod_lt _ (by decide)
  simp only [orderKey, magnitude_toNat, Nat.mod_mod]
  rw [if_neg (by rw [Nat.div_eq_of_lt hlt]; decide)]
  split <;> omega

theorem isNaN_magnitude (v : F32) : isNaN (magnitude v) = isNaN v := by
  have h1 : v.toNat % 2 ^ 31 / 2 ^ 23 % 2 ^ 8 = v.toNat / 2 ^ 23 % 2 ^ 8 := by omega
  have h2 : v.toNat % 2 ^ 31 % 2 ^ 23 = v.toNat % 2 ^ 23 := by omega
  simp only [isNaN, expField, magnitude_toNat, h1, h2]

/-- Being within a bound, in terms of the order keys. -/
theorem within_iff {b v : F32} :
    within b v = true ↔ isNaN v = false ∧ isNaN b = false ∧ ((orderKey v).natAbs : Int) ≤ orderKey b := by
  simp only [within, fle_iff, isNaN_magnitude, orderKey_magnitude]

/-- A clamp between a bound and its negation is within the bound. -/
theorem within_fclamp {v lo hi : F32} (hv : isNaN v = false) (hlo : isNaN lo = false)
    (hhi : isNaN hi = false) (slo : isSubnormal lo = false) (shi : isSubnormal hi = false)
    (hk : orderKey lo = -orderKey hi) (hp : 0 ≤ orderKey hi) :
    within hi (fclamp v lo hi) = true := by
  obtain ⟨h1, h2, h3⟩ := fclamp_spec hv hlo hhi slo shi
  refine within_iff.mpr ⟨?_, hhi, by omega⟩
  exact h1 (fun a => isNaN a = false) (fun a h => (isNaN_flushed a).trans h) hv hlo hhi

/-! ## The integral part -/

/-- The magnitude of a finite value in units of `2^-149`. -/
def scaled (mag : Nat) : Nat :=
  if mag / 2 ^ 23 = 0 then mag % 2 ^ 23 else (2 ^ 23 + mag % 2 ^ 23) * 2 ^ (mag / 2 ^ 23 - 1)

theorem scaled_mono {a b : Nat} (h : a ≤ b) : scaled a ≤ scaled b := by
  have hq : a / 2 ^ 23 ≤ b / 2 ^ 23 := Nat.div_le_div_right h
  have ha := Nat.div_add_mod a (2 ^ 23)
  have hb := Nat.div_add_mod b (2 ^ 23)
  have la : a % 2 ^ 23 < 2 ^ 23 := Nat.mod_lt _ (by decide)
  have lb : b % 2 ^ 23 < 2 ^ 23 := Nat.mod_lt _ (by decide)
  unfold scaled
  by_cases h1 : b / 2 ^ 23 = 0
  · have h2 : a / 2 ^ 23 = 0 := by omega
    rw [if_pos h1, if_pos h2]
    rw [h1] at hb
    rw [h2] at ha
    omega
  · rw [if_neg h1]
    by_cases h2 : a / 2 ^ 23 = 0
    · rw [if_pos h2]
      calc a % 2 ^ 23 ≤ (2 ^ 23 + b % 2 ^ 23) * 1 := by omega
        _ ≤ _ := Nat.mul_le_mul_left _ (Nat.one_le_two_pow)
    · rw [if_neg h2]
      by_cases h3 : a / 2 ^ 23 = b / 2 ^ 23
      · rw [h3]
        refine Nat.mul_le_mul_right _ ?_
        rw [h3] at ha
        omega
      · have h4 : b / 2 ^ 23 - 1 = (a / 2 ^ 23 - 1) + 1 + (b / 2 ^ 23 - a / 2 ^ 23 - 1) := by omega
        calc (2 ^ 23 + a % 2 ^ 23) * 2 ^ (a / 2 ^ 23 - 1)
            ≤ 2 ^ 24 * 2 ^ (a / 2 ^ 23 - 1) := Nat.mul_le_mul_right _ (by omega)
          _ = 2 ^ 23 * 2 ^ (a / 2 ^ 23 - 1 + 1) := by rw [Nat.pow_succ]; omega
          _ ≤ (2 ^ 23 + b % 2 ^ 23) * 2 ^ (b / 2 ^ 23 - 1) := by
            rw [h4, Nat.pow_add _ (a / 2 ^ 23 - 1 + 1), ← Nat.mul_assoc]
            refine Nat.le_trans ?_ (Nat.le_mul_of_pos_right _ (Nat.two_pow_pos _))
            exact Nat.mul_le_mul_right _ (by omega)

/-- The signed value of a finite F32 in units of `2^-149`. -/
def scaledOf (a : F32) : Int :=
  if a.toNat / 2 ^ 31 = 1 then -(scaled (a.toNat % 2 ^ 31) : Int) else scaled (a.toNat % 2 ^ 31)

theorem scaled_pos {a : Nat} (h : a ≠ 0) : 0 < scaled a := by
  have ha := Nat.div_add_mod a (2 ^ 23)
  unfold scaled
  split
  · next h0 => rw [h0] at ha; omega
  · exact Nat.mul_pos (by omega) (Nat.two_pow_pos _)

theorem scaled_zero : scaled 0 = 0 := by decide

/-- The order of F32 values is the order of the numbers they stand for. -/
theorem scaledOf_mono {a b : F32} (h : orderKey a ≤ orderKey b) : scaledOf a ≤ scaledOf b := by
  simp only [orderKey, scaledOf] at h ⊢
  have m1 : ∀ x y : Nat, x ≤ y → (scaled x : Int) ≤ scaled y := fun x y hxy => by
    exact_mod_cast scaled_mono hxy
  split at h <;> split at h
  · rw [if_pos ‹_›, if_pos ‹_›]
    have := m1 (b.toNat % 2 ^ 31) (a.toNat % 2 ^ 31) (by omega)
    omega
  · rw [if_pos ‹_›, if_neg ‹_›]
    omega
  · rw [if_neg ‹_›, if_pos ‹_›]
    have ha : a.toNat % 2 ^ 31 = 0 := by omega
    have hb : b.toNat % 2 ^ 31 = 0 := by omega
    rw [ha, hb, scaled_zero]
    decide
  · rw [if_neg ‹_›, if_neg ‹_›]
    exact m1 _ _ (by omega)

/-- What a finite F32 stands for. -/
theorem val32_finite {a : F32} (h : isFinite a = true) :
    val32 a = .fin (decide (a.toNat / 2 ^ 31 = 1))
      (if a.toNat / 2 ^ 23 % 2 ^ 8 = 0 then a.toNat % 2 ^ 23 else 2 ^ 23 + a.toNat % 2 ^ 23)
      (-149 + ((a.toNat / 2 ^ 23 % 2 ^ 8 - 1 : Nat) : Int)) := by
  have hlt : a.toNat < 2 ^ 32 := a.isLt
  have hf : a.toNat / 2 ^ 23 % 2 ^ 8 ≠ 255 := by simpa [isFinite, expField] using h
  have hs : (a.toNat / 2 ^ 31 % 2 == 1) = decide (a.toNat / 2 ^ 31 = 1) := by
    have : a.toNat / 2 ^ 31 < 2 := by omega
    rw [Nat.mod_eq_of_lt this]
    rfl
  have e1 : b32.frac = 23 := rfl
  have e2 : b32.expo = 8 := rfl
  have e3 : expTop b32 = 255 := rfl
  have e4 : expMin b32 = -149 := by decide
  simp only [val32, unpack, e1, e2, e3, e4]
  rw [if_neg hf, hs]
  split
  · next h0 => rw [h0]; rfl
  · rfl

/-- The integral part of a finite value is its scaled value divided, rounding down. -/
theorem floorInt_eq {a : F32} (h : isFinite a = true) : floorInt a = scaledOf a / (2 ^ 149 : Nat) := by
  have hlt : a.toNat < 2 ^ 32 := a.isLt
  have hf : a.toNat / 2 ^ 23 % 2 ^ 8 ≠ 255 := by simpa [isFinite, expField] using h
  have hd : a.toNat % 2 ^ 31 / 2 ^ 23 = a.toNat / 2 ^ 23 % 2 ^ 8 := by omega
  have hm : a.toNat % 2 ^ 31 % 2 ^ 23 = a.toNat % 2 ^ 23 := by omega
  have key : ∀ (neg : Bool) (m k : Nat),
      (if 0 ≤ (-149 : Int) + k then (if neg then -(m : Int) else m) * ((2 ^ ((-149 : Int) + k).toNat : Nat) : Int)
        else (if neg then -(m : Int) else m) / ((2 ^ (-((-149 : Int) + k)).toNat : Nat) : Int))
      = (if neg then -((m * 2 ^ k : Nat) : Int) else ((m * 2 ^ k : Nat) : Int)) / (2 ^ 149 : Nat) := by
    intro neg m k
    have hn : (if neg then -((m * 2 ^ k : Nat) : Int) else ((m * 2 ^ k : Nat) : Int))
        = (if neg then -(m : Int) else m) * (2 ^ k : Nat) := by
      cases neg <;> push_cast <;> simp
    rw [hn]
    generalize (if neg then -(m : Int) else (m : Int)) = v
    split
    · next h0 =>
      obtain ⟨j, rfl⟩ : ∃ j, k = 149 + j := ⟨k - 149, by omega⟩
      have e1 : ((-149 : Int) + ((149 + j : Nat) : Int)).toNat = j := by omega
      rw [e1, Nat.pow_add, Nat.mul_comm (2 ^ 149), Nat.cast_mul, ← Int.mul_assoc]
      exact (Int.mul_ediv_cancel _ (by positivity)).symm
    · next h0 =>
      obtain ⟨j, hj⟩ : ∃ j, 149 = k + j := ⟨149 - k, by omega⟩
      have e1 : (-((-149 : Int) + (k : Int))).toNat = j := by omega
      rw [e1, hj, Nat.pow_add, Nat.mul_comm (2 ^ k), Nat.cast_mul]
      exact (Int.mul_ediv_mul_of_pos_left _ _ (by positivity)).symm
  have hsc : scaled (a.toNat % 2 ^ 31)
      = (if a.toNat / 2 ^ 23 % 2 ^ 8 = 0 then a.toNat % 2 ^ 23 else 2 ^ 23 + a.toNat % 2 ^ 23)
        * 2 ^ (a.toNat / 2 ^ 23 % 2 ^ 8 - 1) := by
    unfold scaled
    rw [hd, hm]
    split
    · next h0 => rw [h0]; simp
    · rfl
  rw [floorInt, val32_finite h]
  simp only
  rw [key, scaledOf, hsc]
  simp only [decide_eq_true_eq]

theorem floorInt_mono {a b : F32} (ha : isFinite a = true) (hb : isFinite b = true)
    (h : orderKey a ≤ orderKey b) : floorInt a ≤ floorInt b := by
  rw [floorInt_eq ha, floorInt_eq hb]
  exact Int.ediv_le_ediv (by positivity) (scaledOf_mono h)

/-- A natural number below `2^24` shifted so that its leading bit is bit 23. -/
theorem log2_scale {n : Nat} (h0 : n ≠ 0) (h : n < 2 ^ 24) :
    Nat.log2 n < 24 ∧ 2 ^ 23 ≤ n * 2 ^ (23 - Nat.log2 n) ∧ n * 2 ^ (23 - Nat.log2 n) < 2 ^ 24 := by
  have hl : Nat.log2 n < 24 := (Nat.log2_lt h0).mpr h
  have hp : 2 ^ Nat.log2 n * 2 ^ (23 - Nat.log2 n) = 2 ^ 23 := by
    rw [← Nat.pow_add]
    congr 1
    omega
  refine ⟨hl, ?_, ?_⟩
  · rw [← hp]
    exact Nat.mul_le_mul_right _ (Nat.log2_self_le h0)
  · have h2 : 2 ^ (Nat.log2 n + 1) * 2 ^ (23 - Nat.log2 n) = 2 ^ 24 := by
      rw [Nat.pow_succ, Nat.mul_right_comm, hp]
      decide
    rw [← h2]
    exact Nat.mul_lt_mul_of_pos_right Nat.lt_log2_self (Nat.two_pow_pos _)

/-- The bits of a natural number below `2^24` as an F32. -/
theorem ofInt_bits {n : Nat} (h0 : n ≠ 0) (h : n < 2 ^ 24) :
    (ofInt n).toNat = (Nat.log2 n + 126) * 2 ^ 23 + n * 2 ^ (23 - Nat.log2 n) := by
  obtain ⟨hl, hge, hlt⟩ := log2_scale h0 h
  have e1 : b32.frac = 23 := rfl
  have e3 : expTop b32 = 255 := rfl
  have e4 : expMin b32 = -149 := by decide
  have hq : max ((0 : Int) + (Nat.log2 n : Int) - 23) (-149) = (Nat.log2 n : Int) - 23 := by omega
  have hr : roundPack b32 false n 0 false = (Nat.log2 n + 126) * 2 ^ 23 + n * 2 ^ (23 - Nat.log2 n) := by
    simp only [roundPack, if_neg h0, e1, e3, e4]
    have hq' : max ((0 : Int) + (Nat.log2 n : Int) - ((23 : Nat) : Int)) (-149) = (Nat.log2 n : Int) - 23 := hq
    rw [hq', if_pos (show (Nat.log2 n : Int) - 23 ≤ 0 by omega)]
    have t1 : ((0 : Int) - ((Nat.log2 n : Int) - 23)).toNat = 23 - Nat.log2 n := by omega
    have t2 : ((Nat.log2 n : Int) - 23 - -149).toNat = Nat.log2 n + 126 := by omega
    rw [t1, t2, if_neg (by omega)]
    simp [signBits]
  have hneg : decide ((n : Int) < 0) = false := by simp
  rw [ofInt, hneg, Int.natAbs_natCast, hr, BitVec.toNat_ofNat]
  exact Nat.mod_eq_of_lt (by omega)

/-- A natural number below `2^24` is a finite, non-negative F32 of exactly that value. -/
theorem ofInt_spec {n : Nat} (h : n < 2 ^ 24) :
    isFinite (ofInt n) = true ∧ floorInt (ofInt n) = n ∧ 0 ≤ orderKey (ofInt n) := by
  by_cases h0 : n = 0
  · subst h0
    decide
  · have hb := ofInt_bits h0 h
    obtain ⟨hl, hge, hlt⟩ := log2_scale h0 h
    have hfin : isFinite (ofInt n) = true := by
      simp only [isFinite, expField, hb, bne_iff_ne]
      omega
    have hsgn : ¬(ofInt n).toNat / 2 ^ 31 = 1 := by rw [hb]; omega
    refine ⟨hfin, ?_, ?_⟩
    · rw [floorInt_eq hfin, scaledOf, if_neg hsgn]
      have hsc : scaled ((ofInt n).toNat % 2 ^ 31) = n * 2 ^ 149 := by
        have d1 : (ofInt n).toNat % 2 ^ 31 / 2 ^ 23 = Nat.log2 n + 127 := by rw [hb]; omega
        have d2 : 2 ^ 23 + (ofInt n).toNat % 2 ^ 31 % 2 ^ 23 = n * 2 ^ (23 - Nat.log2 n) := by
          rw [hb]; omega
        unfold scaled
        rw [d1, if_neg (by omega), d2, Nat.mul_assoc, ← Nat.pow_add]
        congr 2
        omega
      rw [hsc, Nat.cast_mul]
      exact Int.mul_ediv_cancel _ (by positivity)
    · rw [orderKey, if_neg hsgn]
      omega

/-- A natural number below `2^24` is no subnormal F32. -/
theorem isSubnormal_ofInt {n : Nat} (h : n < 2 ^ 24) : isSubnormal (ofInt n) = false := by
  by_cases h0 : n = 0
  · subst h0
    decide
  · have hb := ofInt_bits h0 h
    obtain ⟨hl, hge, hlt⟩ := log2_scale h0 h
    refine Bool.eq_false_iff.mpr fun hs => ?_
    have := isSubnormal_iff.mp hs
    omega

theorem not_nan_of_finite {a : F32} (h : isFinite a = true) : isNaN a = false := by
  have : expField a ≠ 255 := by simpa [isFinite] using h
  simp [isNaN, this]

theorem isFinite_indexable (v : F32) : isFinite (indexable v) = true := by
  unfold indexable
  split
  · assumption
  · decide

/-- A clamped delay lies between its bounds (40_ring_buffer.md R125): `lo` is 0 or 1, and an upper bound
below it counts as `lo`. -/
theorem clampedDelay_mem (d : F32) {lo hi : Int} (h1 : 0 ≤ lo) (h2 : lo ≤ 1) (h3 : -3 ≤ hi)
    (h4 : hi < 2 ^ 24) : lo ≤ (clampedDelay d lo hi).1 ∧ (clampedDelay d lo hi).1 ≤ max lo hi := by
  have hlo : isFinite (ofInt lo) = true ∧ floorInt (ofInt lo) = lo ∧ isSubnormal (ofInt lo) = false := by
    obtain rfl | rfl : lo = 0 ∨ lo = 1 := by omega
    · decide
    · decide
  have hhi : isFinite (ofInt hi) = true ∧ floorInt (ofInt hi) = hi ∧ isSubnormal (ofInt hi) = false := by
    by_cases h0 : 0 ≤ hi
    · obtain ⟨n, rfl⟩ := Int.eq_ofNat_of_zero_le h0
      have := ofInt_spec (n := n) (by omega)
      exact ⟨this.1, this.2.1, isSubnormal_ofInt (by omega)⟩
    · obtain rfl | rfl | rfl : hi = -1 ∨ hi = -2 ∨ hi = -3 := by omega
      all_goals decide
  have hd := isFinite_indexable d
  obtain ⟨c1, c2, c3⟩ := fclamp_spec (not_nan_of_finite hd) (not_nan_of_finite hlo.1)
    (not_nan_of_finite hhi.1) hlo.2.2 hhi.2.2
  have hc : isFinite (fclamp (indexable d) (ofInt lo) (ofInt hi)) = true :=
    c1 (fun a => isFinite a = true) (fun a h => (isFinite_flushed a).trans h) hd hlo.1 hhi.1
  simp only [clampedDelay]
  refine ⟨?_, ?_⟩
  · have := floorInt_mono hlo.1 hc c2
    omega
  · rcases Int.le_total (orderKey (ofInt lo)) (orderKey (ofInt hi)) with hle | hle
    · have := floorInt_mono hc hhi.1 (by omega)
      omega
    · have := floorInt_mono hc hlo.1 (by omega)
      omega

end Sys2Proof.Machine
end

