-- ==== Sys2Proof/Laws/PerInstr.lean ====
section
/-! SUPPORT. A fact about every command, one lemma per constructor of `Instr`: the fields its encoder
writes are the fields its decoder reads (30_encoding.md R91, R96). -/

namespace Sys2Proof.Laws.FieldsRoundTrip

/-- The decoder reads back the command from the fields the encoder wrote. -/
def Statement (i : Instr) : Prop :=
  i.wellFormed = true → decodeFields (encodeFields i) = .ok i

theorem nop : Statement .nop := by
  intro _
  simp [encodeFields, decodeFields, formed, Format.unusedZero]

theorem ldv (rd : Reg) (imm : Word32) : Statement (.ldv rd imm) := by
  intro _
  simp [encodeFields, decodeFields, formed, Format.unusedZero, regOf_field]

theorem rdv (rs : Reg) : Statement (.rdv rs) := by
  intro _
  simp [encodeFields, decodeFields, formed, Format.unusedZero, regOf_field]

theorem mov (rd rs : Reg) : Statement (.mov rd rs) := by
  intro _
  simp [encodeFields, decodeFields, formed, Format.unusedZero, regOf_field]

theorem csrw (csr : Csr) (imm : Word32) : Statement (.csrw csr imm) := by
  intro _
  simp [encodeFields, decodeFields, formed, Format.unusedZero, csrOf_field, Except.map]

theorem csrr (csr : Csr) : Statement (.csrr csr) := by
  intro _
  simp [encodeFields, decodeFields, formed, Format.unusedZero, csrOf_field, Except.map]

theorem prepare (e : Engine) (maxBlock : Word32) : Statement (.prepare e maxBlock) := by
  intro _
  simp [encodeFields, decodeFields, formed, Format.unusedZero, engineOf_field, Except.map]

theorem block (e : Engine) : Statement (.block e) := by
  intro _
  simp [encodeFields, decodeFields, formed, Format.unusedZero, engineOf_field, Except.map]

theorem rbInit (u : RbUnit) (cap : Word32) : Statement (.rbInit u cap) := by
  intro _
  simp [encodeFields, decodeFields, formed, Format.unusedZero, unitOf_field, Except.map]

theorem rbInit2 (u : RbUnit) (cap : Word32) : Statement (.rbInit2 u cap) := by
  intro _
  simp [encodeFields, decodeFields, formed, Format.unusedZero, unitOf_field, Except.map]

theorem rbPush (u : RbUnit) (rs : Reg) : Statement (.rbPush u rs) := by
  intro _
  simp [encodeFields, decodeFields, formed, Format.unusedZero, unitOf_field, Except.map, regOf_field]

theorem rbRdn (rd : Reg) (u : RbUnit) (k : Word32) : Statement (.rbRdn rd u k) := by
  intro _
  simp [encodeFields, decodeFields, formed, Format.unusedZero, unitOf_field, Except.map, regOf_field]

theorem rbRdi (rd : Reg) (u : RbUnit) (rs : Reg) : Statement (.rbRdi rd u rs) := by
  intro _
  simp [encodeFields, decodeFields, formed, Format.unusedZero, unitOf_field, Except.map, regOf_field]

theorem rbRdl (rd : Reg) (u : RbUnit) (rs : Reg) : Statement (.rbRdl rd u rs) := by
  intro _
  simp [encodeFields, decodeFields, formed, Format.unusedZero, unitOf_field, Except.map, regOf_field]

theorem rbRdc (rd : Reg) (u : RbUnit) (rs : Reg) : Statement (.rbRdc rd u rs) := by
  intro _
  simp [encodeFields, decodeFields, formed, Format.unusedZero, unitOf_field, Except.map, regOf_field]

theorem rbRdp (rd : Reg) (u : RbUnit) (rs : Reg) : Statement (.rbRdp rd u rs) := by
  intro _
  simp [encodeFields, decodeFields, formed, Format.unusedZero, unitOf_field, Except.map, regOf_field]

theorem rbCap (u : RbUnit) : Statement (.rbCap u) := by
  intro _
  simp [encodeFields, decodeFields, formed, Format.unusedZero, unitOf_field, Except.map]

theorem rbCur (u : RbUnit) : Statement (.rbCur u) := by
  intro _
  simp [encodeFields, decodeFields, formed, Format.unusedZero, unitOf_field, Except.map]

theorem apProc (rd : Reg) (u : RbUnit) (rs rg : Reg) : Statement (.apProc rd u rs rg) := by
  intro _
  simp [encodeFields, decodeFields, formed, Format.unusedZero, unitOf_field, Except.map, regOf_field]

theorem fClr (f : FsUnit) : Statement (.fClr f) := by
  intro _
  simp [encodeFields, decodeFields, formed, Format.unusedZero, unitOf_field, Except.map]

theorem fLp (rd : Reg) (f : FsUnit) (rs ra : Reg) : Statement (.fLp rd f rs ra) := by
  intro _
  simp [encodeFields, decodeFields, formed, Format.unusedZero, unitOf_field, Except.map, regOf_field]

theorem fHp (rd : Reg) (f : FsUnit) (rs ra : Reg) : Statement (.fHp rd f rs ra) := by
  intro _
  simp [encodeFields, decodeFields, formed, Format.unusedZero, unitOf_field, Except.map, regOf_field]

theorem fDcb (rd : Reg) (f : FsUnit) (rs rr : Reg) : Statement (.fDcb rd f rs rr) := by
  intro _
  simp [encodeFields, decodeFields, formed, Format.unusedZero, unitOf_field, Except.map, regOf_field]

theorem slim (rd rs : Reg) : Statement (.slim rd rs) := by
  intro _
  simp [encodeFields, decodeFields, formed, Format.unusedZero, regOf_field]

theorem clamp (rd rs lo hi : Reg) : Statement (.clamp rd rs lo hi) := by
  intro _
  simp [encodeFields, decodeFields, formed, Format.unusedZero, regOf_field]

theorem fCoef (rd rs : Reg) : Statement (.fCoef rd rs) := by
  intro _
  simp [encodeFields, decodeFields, formed, Format.unusedZero, regOf_field]

theorem tiltRev (rd : Reg) (ch : Channel) (rs : Reg) : Statement (.tiltRev rd ch rs) := by
  intro _
  simp [encodeFields, decodeFields, formed, Format.unusedZero, channelOf_field, Except.map, regOf_field]

theorem tiltDly (rd : Reg) (ch : Channel) (rs : Reg) : Statement (.tiltDly rd ch rs) := by
  intro _
  simp [encodeFields, decodeFields, formed, Format.unusedZero, channelOf_field, Except.map, regOf_field]

theorem tiltSat (rd : Reg) (ch : Channel) (rs : Reg) : Statement (.tiltSat rd ch rs) := by
  intro _
  simp [encodeFields, decodeFields, formed, Format.unusedZero, channelOf_field, Except.map, regOf_field]

theorem shimWin (rd rs : Reg) : Statement (.shimWin rd rs) := by
  intro _
  simp [encodeFields, decodeFields, formed, Format.unusedZero, regOf_field]

theorem shimStep (rd rs : Reg) : Statement (.shimStep rd rs) := by
  intro _
  simp [encodeFields, decodeFields, formed, Format.unusedZero, regOf_field]

theorem dlyTime (rd rs : Reg) : Statement (.dlyTime rd rs) := by
  intro _
  simp [encodeFields, decodeFields, formed, Format.unusedZero, regOf_field]

theorem dlyRatio (rd rs : Reg) : Statement (.dlyRatio rd rs) := by
  intro _
  simp [encodeFields, decodeFields, formed, Format.unusedZero, regOf_field]

theorem dlySample (l r : Reg) : Statement (.dlySample l r) := by
  intro h
  have hne := regField_ne (by simpa [Instr.wellFormed] using h)
  simp [encodeFields, decodeFields, formedLr, formed, Format.unusedZero, regOf_field, hne]

theorem satTape (rd rs drive grit : Reg) : Statement (.satTape rd rs drive grit) := by
  intro _
  simp [encodeFields, decodeFields, formed, Format.unusedZero, regOf_field]

theorem satTube (rd rs drive grit : Reg) : Statement (.satTube rd rs drive grit) := by
  intro _
  simp [encodeFields, decodeFields, formed, Format.unusedZero, regOf_field]

theorem satClip (rd rs drive grit : Reg) : Statement (.satClip rd rs drive grit) := by
  intro _
  simp [encodeFields, decodeFields, formed, Format.unusedZero, regOf_field]

theorem satFold (rd rs drive grit : Reg) : Statement (.satFold rd rs drive grit) := by
  intro _
  simp [encodeFields, decodeFields, formed, Format.unusedZero, regOf_field]

theorem satXf (rd rs drive grit : Reg) : Statement (.satXf rd rs drive grit) := by
  intro _
  simp [encodeFields, decodeFields, formed, Format.unusedZero, regOf_field]

theorem satOutg (rd rs : Reg) : Statement (.satOutg rd rs) := by
  intro _
  simp [encodeFields, decodeFields, formed, Format.unusedZero, regOf_field]

theorem satSample (l r : Reg) : Statement (.satSample l r) := by
  intro h
  have hne := regField_ne (by simpa [Instr.wellFormed] using h)
  simp [encodeFields, decodeFields, formedLr, formed, Format.unusedZero, regOf_field, hne]

theorem revDecay (rd rs : Reg) : Statement (.revDecay rd rs) := by
  intro _
  simp [encodeFields, decodeFields, formed, Format.unusedZero, regOf_field]

theorem revDamp (rd rs : Reg) : Statement (.revDamp rd rs) := by
  intro _
  simp [encodeFields, decodeFields, formed, Format.unusedZero, regOf_field]

theorem revSample (l r : Reg) : Statement (.revSample l r) := by
  intro h
  have hne := regField_ne (by simpa [Instr.wellFormed] using h)
  simp [encodeFields, decodeFields, formedLr, formed, Format.unusedZero, regOf_field, hne]

end Sys2Proof.Laws.FieldsRoundTrip
end

