-- ==== Sys2Proof/Laws/Phase.lean ====
section
/-! SUPPORT. A phase plus an increment, wrapped once, is a phase (43_shimmer.md R196, 44_delay.md R214):
the sum of two numbers in [0, 1) is exact enough to stay below 2, and the subtraction of 1 is exact. -/

namespace Sys2Proof.Machine

theorem one_key : orderKey one = 127 * 2 ^ 23 := by decide

/-- A phase is a zero, or a number with bits below those of 1.0. -/
theorem inPhase_iff {v : F32} : inPhase v = true ↔ v.toNat < 127 * 2 ^ 23 ∨ v.toNat = 2 ^ 31 := by
  have hlt : v.toNat < 2 ^ 32 := v.isLt
  have h0 : orderKey (0 : F32) = 0 := by decide
  have hn : isNaN (0 : F32) = false ∧ isNaN one = false := by decide
  simp only [inPhase, Bool.and_eq_true, fle_iff, flt_iff, h0, one_key, hn.1, hn.2, true_and]
  constructor
  · rintro ⟨⟨-, h1⟩, -, h2⟩
    simp only [orderKey] at h1 h2
    split at h1 <;> split at h2 <;> omega
  · intro h
    have hN : isNaN v = false := by
      have : (expField v == 255) = false := by
        simp only [expField, beq_eq_false_iff_ne]
        omega
      simp [isNaN, this]
    have hk : 0 ≤ orderKey v ∧ orderKey v < 127 * 2 ^ 23 := by
      simp only [orderKey]
      split <;> omega
    exact ⟨⟨hN, hk.1⟩, hN, hk.2⟩

theorem inPhase_flushed {v : F32} (h : inPhase v = true) : inPhase (flushed v) = true := by
  unfold flushed
  split
  · split
    · have hz : zeroLike v = 0 ∨ zeroLike v = 0x80000000 := by
        have h0 := zeroLike_toNat v
        have hlt : (zeroLike v).toNat < 2 ^ 32 := (zeroLike v).isLt
        rcases Nat.lt_or_ge (zeroLike v).toNat (2 ^ 31) with h2 | h2
        · exact .inl (BitVec.eq_of_toNat_eq (show _ = 0 by omega))
        · exact .inr (BitVec.eq_of_toNat_eq (show _ = 2 ^ 31 by omega))
      rcases hz with h2 | h2 <;> rw [h2] <;> decide
    · exact h
  · exact h

/-- What a phase stands for: `m × 2^(k - 149)` with `m` of 24 bits and the value below 1. -/
theorem phase_val {v : F32} (h : inPhase v = true) :
    ∃ neg m, ∃ k : Nat, val32 v = .fin neg m (-149 + (k : Int)) ∧ k ≤ 125 ∧ m < 2 ^ 24
      ∧ (neg = true → m = 0) := by
  have hv := inPhase_iff.mp h
  have hf : isFinite v = true := by
    simp only [isFinite, expField, bne_iff_ne]
    omega
  refine ⟨_, _, _, val32_finite hf, ?_, ?_, ?_⟩
  · omega
  · split <;> omega
  · intro hneg
    have hneg := of_decide_eq_true hneg
    rw [if_pos (by omega)]
    omega

/-- Rounding a number below `2 - 2^-23`, in units of `2^(k - 149)`: the bits stay below those of 2.0. -/
theorem roundPack_lt_two {m k : Nat} (h0 : m ≠ 0) (hk : k ≤ 125)
    (hm : m * 2 ^ k ≤ (2 ^ 24 - 1) * 2 ^ 126) :
    roundPack b32 false m (-149 + (k : Int)) false < 2 ^ 30 := by
  have e1 : b32.frac = 23 := rfl
  have e3 : expTop b32 = 255 := rfl
  have e4 : expMin b32 = -149 := by decide
  have hlo := Nat.log2_self_le h0
  have hhi : m < 2 ^ (Nat.log2 m + 1) := Nat.lt_log2_self
  have hL : Nat.log2 m + k < 150 := by
    refine (Nat.pow_lt_pow_iff_right (by decide : 1 < 2)).mp ?_
    calc 2 ^ (Nat.log2 m + k) = 2 ^ Nat.log2 m * 2 ^ k := Nat.pow_add ..
      _ ≤ m * 2 ^ k := Nat.mul_le_mul_right _ hlo
      _ ≤ (2 ^ 24 - 1) * 2 ^ 126 := hm
      _ < 2 ^ 150 := by decide
  simp only [roundPack, if_neg h0, e1, e3, e4]
  generalize hl : Nat.log2 m = l at *
  obtain ⟨j, hj⟩ : ∃ j : Nat, max (-149 + (k : Int) + (l : Int) - ((23 : Nat) : Int)) (-149)
      = -149 + (j : Int) := ⟨(k + l) - 23, by omega⟩
  have hj' : j = (k + l) - 23 := by omega
  rw [hj]
  have t1 : (-149 + (j : Int) - -149).toNat = j := by omega
  have t2 : (-149 + (k : Int) - (-149 + (j : Int))).toNat = k - j := by omega
  have t3 : (-149 + (j : Int) - (-149 + (k : Int))).toNat = j - k := by omega
  rw [t1, t2, t3]
  have key : j * 2 ^ 23 + (if -149 + (j : Int) ≤ -149 + (k : Int) then m * 2 ^ (k - j)
      else shiftRoundEven m (j - k) false) < 2 ^ 30 := by
    split
    · next hle =>
      have hjk : j ≤ k := by omega
      have hr : m * 2 ^ (k - j) < 2 ^ 24 := by
        calc m * 2 ^ (k - j) < 2 ^ (l + 1) * 2 ^ (k - j) :=
              Nat.mul_lt_mul_of_pos_right hhi (Nat.two_pow_pos _)
          _ = 2 ^ (l + 1 + (k - j)) := (Nat.pow_add ..).symm
          _ ≤ 2 ^ 24 := Nat.pow_le_pow_right (by decide) (by omega)
      omega
    · next hlt =>
      have hjk : j - k = l - 23 := by omega
      have hs : j - k ≠ 0 := by omega
      have hpow : 2 ^ (l + 1) = 2 ^ 24 * 2 ^ (l - 23) := by
        rw [← Nat.pow_add]
        congr 1
        omega
      have hq : m / 2 ^ (l - 23) < 2 ^ 24 := by
        rw [Nat.div_lt_iff_lt_mul (Nat.two_pow_pos _), ← hpow]
        exact hhi
      rw [hjk] at hs
      simp only [shiftRoundEven, hjk, if_neg hs]
      by_cases hj126 : j = 126
      · have hm' : m ≤ (2 ^ 24 - 1) * 2 ^ (l - 23) := by
          refine Nat.le_of_mul_le_mul_right ?_ (Nat.two_pow_pos k)
          refine Nat.le_trans hm (Nat.le_of_eq ?_)
          rw [Nat.mul_assoc, ← Nat.pow_add]
          congr 2
          omega
        have hdm := Nat.div_add_mod m (2 ^ (l - 23))
        have hhalf : 1 ≤ 2 ^ (l - 23 - 1) := Nat.one_le_two_pow
        generalize 2 ^ (l - 23) = p at *
        by_cases hq' : m / p = 2 ^ 24 - 1
        · have hz : m % p = 0 := by
            rw [hq', Nat.mul_comm] at hdm
            omega
          rw [hz, hq', if_neg (by simp; omega)]
          omega
        · split <;> omega
      · split <;> omega
  rw [if_neg (by omega)]
  simpa [signBits] using key

/-- The sum of two phases is a number below 2, or a zero. -/
theorem fadd_phase {a b : F32} (ha : inPhase a = true) (hb : inPhase b = true) :
    (fadd a b).toNat < 2 ^ 30 ∨ inPhase (fadd a b) = true := by
  obtain ⟨na, ma, ka, va, hka, hma, za⟩ := phase_val ha
  obtain ⟨nb, mb, kb, vb, hkb, hmb, zb⟩ := phase_val hb
  simp only [fadd, result32, va, vb, addVal]
  obtain ⟨k, hk, h1, h2⟩ : ∃ k : Nat, min (-149 + (ka : Int)) (-149 + (kb : Int)) = -149 + (k : Int)
      ∧ k ≤ ka ∧ k ≤ kb := ⟨min ka kb, by omega, by omega, by omega⟩
  rw [hk]
  have al : ∀ (n : Bool) (m j : Nat), k ≤ j → (n = true → m = 0) →
      alignTo n m (-149 + (j : Int)) (-149 + (k : Int)) = ((m * 2 ^ (j - k) : Nat) : Int) := by
    intro n m j hj hz
    have : (-149 + (j : Int) - (-149 + (k : Int))).toNat = j - k := by omega
    simp only [alignTo, this]
    split
    · next hn => simp [hz hn]
    · rfl
  rw [al na ma ka h1 za, al nb mb kb h2 zb, ← Nat.cast_add]
  split
  · refine .inr (inPhase_flushed ?_)
    cases (na && nb) <;> decide
  · next h0 =>
    have hneg : decide (((ma * 2 ^ (ka - k) + mb * 2 ^ (kb - k) : Nat) : Int) < 0) = false :=
      decide_eq_false (by omega)
    rw [hneg, Int.natAbs_natCast]
    have hm : (ma * 2 ^ (ka - k) + mb * 2 ^ (kb - k)) * 2 ^ k ≤ (2 ^ 24 - 1) * 2 ^ 126 := by
      have p : ∀ m j : Nat, k ≤ j → j ≤ 125 → m < 2 ^ 24 → m * 2 ^ (j - k) * 2 ^ k ≤ (2 ^ 24 - 1) * 2 ^ 125 := by
        intro m j h3 h4 h5
        rw [Nat.mul_assoc, ← Nat.pow_add, Nat.sub_add_cancel h3]
        exact Nat.mul_le_mul (by omega) (Nat.pow_le_pow_right (by decide) h4)
      have := p ma ka h1 hka hma
      have := p mb kb h2 hkb hmb
      rw [Nat.add_mul]
      omega
    have hr := roundPack_lt_two (by omega) (by omega : k ≤ 125) hm
    generalize hv : (BitVec.ofNat 32 (roundPack b32 false (ma * 2 ^ (ka - k) + mb * 2 ^ (kb - k))
      (-149 + (k : Int)) false)) = v
    have hvn : v.toNat < 2 ^ 30 := by
      rw [← hv, BitVec.toNat_ofNat, Nat.mod_eq_of_lt (by omega)]
      exact hr
    by_cases hs : isSubnormal v = true
    · refine .inr (inPhase_flushed (inPhase_iff.mpr (.inl ?_)))
      have := isSubnormal_iff.mp hs
      omega
    · rw [flushed_of_not_subnormal (by simpa using hs)]
      exact .inl hvn

/-- A number in [1, 2) less 1 is in [0, 1). -/
theorem fsub_one_phase {v : F32} (h1 : 127 * 2 ^ 23 ≤ v.toNat) (h2 : v.toNat < 2 ^ 30) :
    inPhase (fsub v one) = true := by
  have hf : isFinite v = true := by
    simp only [isFinite, expField, bne_iff_ne]
    omega
  have hv : val32 v = .fin false (2 ^ 23 + v.toNat % 2 ^ 23) (-149 + (126 : Int)) := by
    have e : v.toNat / 2 ^ 23 % 2 ^ 8 = 127 := by omega
    have e' : ¬v.toNat / 2 ^ 31 = 1 := by omega
    rw [val32_finite hf, e, if_neg (by decide), decide_eq_false e']
    rfl
  have ho : val32 (fneg one) = .fin true (2 ^ 23) (-149 + (126 : Int)) := by decide
  simp only [fsub, fadd, result32, hv, ho, addVal]
  refine inPhase_flushed ?_
  have hs : alignTo false (2 ^ 23 + v.toNat % 2 ^ 23) (-149 + 126) (min (-149 + 126) (-149 + 126))
      + alignTo true (2 ^ 23) (-149 + 126) (min (-149 + 126) (-149 + 126))
      = ((v.toNat % 2 ^ 23 : Nat) : Int) := by
    simp [alignTo]
  rw [hs]
  split
  · decide
  · next h0 =>
    generalize hn : v.toNat % 2 ^ 23 = n at *
    have hn23 : n < 2 ^ 23 := by omega
    have hneg : decide ((n : Int) < 0) = false := decide_eq_false (by omega)
    have e1 : b32.frac = 23 := rfl
    have e3 : expTop b32 = 255 := rfl
    have e4 : expMin b32 = -149 := by decide
    have n0 : n ≠ 0 := by omega
    have hl : Nat.log2 n < 23 := (Nat.log2_lt n0).mpr hn23
    obtain ⟨-, -, hhi⟩ := log2_scale n0 (by omega : n < 2 ^ 24)
    rw [hneg, Int.natAbs_natCast]
    simp only [roundPack, if_neg n0, e1, e3, e4]
    generalize Nat.log2 n = l at *
    have hq : max (min (-149 + 126 : Int) (-149 + 126) + (l : Int) - ((23 : Nat) : Int)) (-149)
        = -149 + ((l + 103 : Nat) : Int) := by omega
    have hle : (-149 : Int) + ((l + 103 : Nat) : Int) ≤ min (-149 + 126 : Int) (-149 + 126) := by omega
    rw [hq, if_pos hle]
    have t1 : (-149 + ((l + 103 : Nat) : Int) - -149).toNat = l + 103 := by omega
    have t2 : (min (-149 + 126 : Int) (-149 + 126) - (-149 + ((l + 103 : Nat) : Int))).toNat
        = 23 - l := by omega
    rw [t1, t2, if_neg (by omega)]
    refine inPhase_iff.mpr (.inl ?_)
    simp only [signBits, Bool.false_eq_true, if_false, Nat.zero_add]
    rw [BitVec.toNat_ofNat, Nat.mod_eq_of_lt (by omega)]
    omega

/-- A phase plus an increment, wrapped once, is a phase. -/
theorem inPhase_wrapPhase {a b : F32} (ha : inPhase a = true) (hb : inPhase b = true) :
    inPhase (wrapPhase (fadd a b)) = true := by
  have one_toNat : one.toNat = 127 * 2 ^ 23 := by decide
  unfold wrapPhase
  rcases fadd_phase ha hb with h | h
  · by_cases hle : 127 * 2 ^ 23 ≤ (fadd a b).toNat
    · split
      · exact fsub_one_phase hle h
      · next hc =>
        refine absurd (fle_iff.mpr ⟨by decide, ?_, ?_⟩) hc
        · have : (expField (fadd a b) == 255) = false := by
            simp only [expField, beq_eq_false_iff_ne]
            omega
          simp [isNaN, this]
        · rw [one_key, orderKey, if_neg (by omega)]
          omega
    · rw [if_neg]
      · exact inPhase_iff.mpr (.inl (by omega))
      · intro hc
        have := (fle_iff.mp hc).2.2
        rw [one_key, orderKey, if_neg (by omega)] at this
        omega
  · rw [if_neg]
    · exact h
    · intro hc
      have h2 := inPhase_iff.mp h
      have := (fle_iff.mp hc).2.2
      rw [one_key, orderKey] at this
      split at this <;> omega

end Sys2Proof.Machine
end

