-- ==== Sys2Proof/Tests/Slice0.lean ====
section
/-! SUPPORT. Small tests: words written out from 30_encoding.md, one-step vectors of
95_test_vectors.md, and a witness for the hypotheses of every statement that has any. -/

namespace Sys2Proof.Machine.Tests

open Config (Cfg)

set_option Elab.async false

/-! ## Well-formedness: the one check, and what it refuses (30_encoding.md R93) -/

theorem test_wellFormed_refuses_dly : (Instr.dlySample 3 3).wellFormed = false := by decide
theorem test_wellFormed_refuses_sat : (Instr.satSample 0 0).wellFormed = false := by decide
theorem test_wellFormed_refuses_rev : (Instr.revSample 15 15).wellFormed = false := by decide
theorem test_wellFormed_accepts : (Instr.revSample 0 1).wellFormed = true := by decide

/-! ## Words of every command, written out from the opcode map (30_encoding.md R90, R91, R96) -/

theorem test_decode_nop : decode 0x0000000000000000 = .ok .nop := by decide
theorem test_decode_ldv : decode 0x7FC0000000000F01 = .ok (.ldv 15 0x7FC00000) := by decide
theorem test_decode_rdv : decode 0x000000000000E002 = .ok (.rdv 14) := by decide
theorem test_decode_mov : decode 0x000000000000F003 = .ok (.mov 0 15) := by decide
theorem test_decode_csrw : decode 0x40E5888003000004 = .ok (.csrw .srateHi 0x40E58880) := by decide
theorem test_decode_csrr : decode 0x0000000037000005 = .ok (.csrr (.param .satType)) := by decide
theorem test_decode_prepare : decode 0x0000020002000006 = .ok (.prepare .sat 512) := by decide
theorem test_decode_block : decode 0x0000000001000007 = .ok (.block .dly) := by decide
theorem test_decode_rbInit : decode 0x0000000411000010 = .ok (.rbInit 17 4) := by decide
theorem test_decode_rbInit2 : decode 0x000000081F000011 = .ok (.rbInit2 31 8) := by decide
theorem test_decode_rbPush : decode 0x0000000011001012 = .ok (.rbPush 17 1) := by decide
theorem test_decode_rbRdn : decode 0xFFFFFFFF11000413 = .ok (.rbRdn 4 17 0xFFFFFFFF) := by decide
theorem test_decode_rbRdi : decode 0x0000000012003214 = .ok (.rbRdi 2 18 3) := by decide
theorem test_decode_rbRdl : decode 0x0000000011003215 = .ok (.rbRdl 2 17 3) := by decide
theorem test_decode_rbRdc : decode 0x0000000013005416 = .ok (.rbRdc 4 19 5) := by decide
theorem test_decode_rbRdp : decode 0x0000000014007617 = .ok (.rbRdp 6 20 7) := by decide
theorem test_decode_rbCap : decode 0x000000000D000018 = .ok (.rbCap 13) := by decide
theorem test_decode_rbCur : decode 0x0000000011000019 = .ok (.rbCur 17) := by decide
theorem test_decode_apProc : decode 0x0000000011041220 = .ok (.apProc 2 17 1 4) := by decide
theorem test_decode_fClr : decode 0x0000000016000030 = .ok (.fClr 22) := by decide
theorem test_decode_fLp : decode 0x0000000016031231 = .ok (.fLp 2 22 1 3) := by decide
theorem test_decode_fHp : decode 0x0000000017065432 = .ok (.fHp 4 23 5 6) := by decide
theorem test_decode_fDcb : decode 0x0000000018098733 = .ok (.fDcb 7 24 8 9) := by decide
theorem test_decode_slim : decode 0x0000000000001234 = .ok (.slim 2 1) := by decide
theorem test_decode_clamp : decode 0x0000000000432135 = .ok (.clamp 1 2 3 4) := by decide
theorem test_decode_fCoef : decode 0x0000000000001236 = .ok (.fCoef 2 1) := by decide
theorem test_decode_tiltRev : decode 0x0000000001001238 = .ok (.tiltRev 2 .right 1) := by decide
theorem test_decode_tiltDly : decode 0x0000000000001239 = .ok (.tiltDly 2 .left 1) := by decide
theorem test_decode_tiltSat : decode 0x000000000100123A = .ok (.tiltSat 2 .right 1) := by decide
theorem test_decode_shimWin : decode 0x0000000000001240 = .ok (.shimWin 2 1) := by decide
theorem test_decode_shimStep : decode 0x0000000000001241 = .ok (.shimStep 2 1) := by decide
theorem test_decode_dlyTime : decode 0x0000000000001250 = .ok (.dlyTime 2 1) := by decide
theorem test_decode_dlyRatio : decode 0x0000000000001251 = .ok (.dlyRatio 2 1) := by decide
theorem test_decode_dlySample : decode 0x0000000000001052 = .ok (.dlySample 0 1) := by decide
theorem test_decode_satTape : decode 0x0000000000432160 = .ok (.satTape 1 2 3 4) := by decide
theorem test_decode_satTube : decode 0x0000000000432161 = .ok (.satTube 1 2 3 4) := by decide
theorem test_decode_satClip : decode 0x0000000000432162 = .ok (.satClip 1 2 3 4) := by decide
theorem test_decode_satFold : decode 0x0000000000321463 = .ok (.satFold 4 1 2 3) := by decide
theorem test_decode_satXf : decode 0x0000000000432164 = .ok (.satXf 1 2 3 4) := by decide
theorem test_decode_satOutg : decode 0x0000000000001265 = .ok (.satOutg 2 1) := by decide
theorem test_decode_satSample : decode 0x0000000000001066 = .ok (.satSample 0 1) := by decide
theorem test_decode_revDecay : decode 0x0000000000001270 = .ok (.revDecay 2 1) := by decide
theorem test_decode_revDamp : decode 0x0000000000001271 = .ok (.revDamp 2 1) := by decide
theorem test_decode_revSample : decode 0x0000000000001072 = .ok (.revSample 0 1) := by decide

/-! ## Words that are no command, each refused by name (60_exceptions.md R341) -/

theorem test_decode_opcode : decode 0x00000000000000FF = .error .unknownOpcode := by decide
theorem test_decode_unused : decode 0x0000000000000100 = .error .unusedFieldNonzero := by decide
theorem test_decode_unused_imm : decode 0x8000000000001066 = .error .unusedFieldNonzero := by decide
theorem test_decode_same : decode 0x0000000000000052 = .error .sameRegister := by decide
theorem test_decode_unit : decode 0x0000000020001012 = .error .unitOutOfRange := by decide
theorem test_decode_engine : decode 0x0000020003000006 = .error .engineOutOfRange := by decide
theorem test_decode_channel : decode 0x0000000002001238 = .error .channelOutOfRange := by decide
theorem test_decode_csr : decode 0x0000000040000005 = .error .csrUnimplemented := by decide

/-- A word through its byte form, least significant byte first (30_encoding.md R100). -/
theorem test_decode_bytes :
    decodeBytes [0x13, 0x04, 0x00, 0x11, 0xFF, 0x00, 0x00, 0x80, 0x55]
      = some (.ok (.rbRdn 4 17 0x800000FF), [0x55]) := by decide

/-- An F32 through its byte form (20_memory.md R63). -/
theorem test_word32_bytes : bytesOfWord32 0x3F733334 = [0x34, 0x33, 0x73, 0x3F] ∧
    word32OfBytes [0x34, 0x33, 0x73, 0x3F, 0x55] = 0x3F733334 := by decide

/-! ## Small states -/

/-- The state of a result; reset where there is none. -/
def resultState : Result → State
  | .next t => t
  | _ => State.reset

/-- One command on a state. -/
def run (i : Instr) (s : State) : State := resultState (exec i s)

/-- The reset state with `x1`, `x3` and `x4` set. -/
def withRegs (a b c : F32) : State := writeX (writeX (writeX State.reset 1 a) 3 b) 4 c

/-- `RB[17]` of capacity 4 holding 5, 2, 3, 4 with cursor 1 (95_test_vectors.md section 2.1), and a
delay in `x3`. -/
def four (d : F32) : State :=
  setRing (withRegs 0x40A00000 d 0) 17
    { cap := 4, wr := 1, mem := [(0, 0x40A00000), (1, 0x40000000), (2, 0x40400000), (3, 0x40800000)] }

/-- `RB[17]` of capacity 8 holding the squares 0 to 49 with cursor 0 (95_test_vectors.md section
2.1), and a delay or position in `x3`. -/
def squares (d : F32) : State :=
  setRing (withRegs 0 d 0) 17
    { cap := 8, wr := 0, mem := [(1, 0x3F800000), (2, 0x40800000), (3, 0x41100000), (4, 0x41800000),
      (5, 0x41C80000), (6, 0x42100000), (7, 0x42440000)] }

/-- The reset state with a rate of 1000 Hz. -/
def rated : State := { State.reset with srateHi := 0x408F4000 }

/-- The reset state with all engines prepared and all units of capacity 8, their caches zero. -/
def ready : State :=
  { rated with
    status := 7, rateRev := 0x408F400000000000, rateDly := 0x408F400000000000
    rateSat := 0x408F400000000000
    rb := Vector.replicate Config.nrb (freshRing 8), x := Vector.replicate Config.nx 0x3F000000 }

/-- The halted state after `RB.INIT rb17, 0` (95_test_vectors.md Program 6). -/
def stopped : State := run (.rbInit 17 0) State.reset

/-! ## One step of every command -/

theorem test_nop : run .nop (four 0) = four 0 := by decide +kernel
theorem test_ldv : (run (.ldv 15 0x7FC00000) State.reset).x[15] = 0x7FC00000 := by decide +kernel
theorem test_rdv : (run (.rdv 1) (four 0)).resp = 0x40A00000 := by decide +kernel
theorem test_mov_nan :
    (run (.mov 0 1) (withRegs 0x7FC00001 0 0)).x[0] = 0x7FC00001 := by decide +kernel
theorem test_csrw_above : (run (.csrw (.param .revMix) 0x3FC00000) State.reset).params.revMix
    = 0x3F800000 := by decide +kernel
theorem test_csrw_negative_zero : (run (.csrw (.param .revMix) 0x80000000) State.reset).params.revMix
    = 0x00000000 := by decide +kernel
theorem test_csrr : (run (.csrr (.param .revMix)) State.reset).resp = 0x3ECCCCCD := by decide +kernel
theorem test_csrr_status : (run (.csrr .status) stopped).resp = 0x00000280 := by decide +kernel
theorem test_prepare_bad_rate :
    (run (.prepare .rev 512) State.reset).status = 0x00000780 := by decide +kernel
theorem test_block_unprepared :
    (run (.block .sat) State.reset).finfo = 0x02000007 := by decide +kernel
theorem test_rbInit_range : (run (.rbInit 17 0x00100001) State.reset).status = 0x00000380 := by
  decide +kernel
theorem test_rbInit_max : (ring (run (.rbInit 17 0x00100000) State.reset) 17).cap = 0x00100000 := by
  decide +kernel
theorem test_rbInit2_six : (run (.rbInit2 18 6) State.reset).status = 0x00000480 := by decide +kernel
theorem test_rbInit2_order : (run (.rbInit2 18 0x00180000) State.reset).status = 0x00000380 := by
  decide +kernel
theorem test_rbPush : ring (run (.rbPush 17 3) (four 0x41100000)) 17
    = { cap := 4, wr := 2, mem := [(0, 0x40A00000), (1, 0x41100000), (2, 0x40400000), (3, 0x40800000)] }
    := by decide +kernel
theorem test_rbPush_zero : (ring (run (.rbPush 17 3) (four 0)) 17).mem
    = [(0, 0x40A00000), (2, 0x40400000), (3, 0x40800000)] := by decide +kernel
theorem test_rbRdn_newest : (run (.rbRdn 2 17 0) (four 0)).x[2] = 0x40A00000 := by decide +kernel
theorem test_rbRdn_clamped : (run (.rbRdn 2 17 0xFFFFFFFF) (four 0)).x[2] = 0x40000000 := by
  decide +kernel
theorem test_rbRdi : (run (.rbRdi 2 17 3) (four 0x3FF33333)).x[2] = 0x40800000 := by decide +kernel
theorem test_rbRdi_above : (run (.rbRdi 2 17 3) (four 0x42C80000)).x[2] = 0x40000000 := by
  decide +kernel
theorem test_rbRdl : (run (.rbRdl 2 17 3) (four 0x3FA00000)).x[2] = 0x40700000 := by decide +kernel
theorem test_rbRdl_clamped : (run (.rbRdl 2 17 3) (four 0x40300000)).x[2] = 0x40400000 := by
  decide +kernel
theorem test_rbRdc : (run (.rbRdc 2 17 3) (squares 0x40500000)).x[2] = 0x41610000 := by decide +kernel
theorem test_rbRdc_rounded : (run (.rbRdc 2 17 3) (squares 0x407FEF9E)).x[2] = 0x41101894 := by
  decide +kernel
theorem test_rbRdp_seam : (run (.rbRdp 2 17 3) (squares 0xBF000000)).x[2] = 0x41C40000 := by
  decide +kernel
theorem test_rbRdp_guard : (run (.rbRdp 2 17 3) (squares 0xB3D6BF95)).x[2] = 0x00000000 := by
  decide +kernel
theorem test_rbCap : (run (.rbCap 17) (four 0)).resp = 4 := by decide +kernel
theorem test_rbCur : (run (.rbCur 17) (four 0)).resp = 1 := by decide +kernel
/-- 41_allpass.md R154: capacity 2, gain 0.5, input 1. -/
theorem test_apProc : (run (.apProc 2 17 1 4)
    (setRing (withRegs 0x3F800000 0 0x3F000000) 17 (freshRing 2))).x[2] = 0xBF000000 := by decide +kernel
theorem test_apProc_stored : ring (run (.apProc 2 17 1 4)
    (setRing (withRegs 0x3F800000 0 0x3F000000) 17 (freshRing 2))) 17
      = { cap := 2, wr := 1, mem := [(0, 0x3F800000)] } := by decide +kernel
theorem test_fClr : filter (run (.fClr 22) (setFilter State.reset 22 { x1 := 1, y1 := 2 })) 22
    = { x1 := 0, y1 := 0 } := by decide +kernel
theorem test_fLp : (run (.fLp 2 22 1 3) (setFilter (withRegs 0x3F800000 0x3E99999A 0) 22
    { x1 := 0x3F800000, y1 := 0x3F028F5C })).x[2] = 0x3F283127 := by decide +kernel
theorem test_fHp : (run (.fHp 2 22 1 3) (setFilter (withRegs 0x3F800000 0x3E99999A 0) 22
    { x1 := 0x3F800000, y1 := 0x3F028F5C })).x[2] = 0x3EAF9DB2 := by decide +kernel
theorem test_fDcb : (run (.fDcb 2 22 1 3) (setFilter (withRegs 0 0x3F7EB852 0) 22
    { x1 := 0x3F800000, y1 := 0x3F7EB852 })).x[2] = 0xBC236E40 := by decide +kernel
theorem test_slim_below : (run (.slim 2 1) (withRegs 0x3F733333 0 0)).x[2] = 0x3F733333 := by
  decide +kernel
theorem test_slim_above : (run (.slim 2 1) (withRegs 0xBFF9999A 0 0)).x[2] = 0xBF853C82 := by
  decide +kernel
theorem test_clamp : (run (.clamp 2 1 3 4) (withRegs 0x3FD9999A 0xBF800000 0x3F800000)).x[2]
    = 0x3F800000 := by decide +kernel
theorem test_clamp_reversed : (run (.clamp 2 1 3 4) (withRegs 0xC0A00000 0x3F800000 0xBF800000)).x[2]
    = 0x3F800000 := by decide +kernel
theorem test_fCoef_zero :
    (run (.fCoef 2 1) { withRegs 0 0 0 with srateHi := 0x408F4000 }).x[2] = 0 := by decide +kernel
theorem test_fCoef_bad_rate : (run (.fCoef 2 1) State.reset).status = 0x00000780 := by decide +kernel
/-- 95_test_vectors.md section 2.3: at tone 0.5 the three tone filters pass their input. -/
theorem test_tiltRev : (run (.tiltRev 2 .left 1) ready).x[2] = 0x3F000000 := by decide +kernel
theorem test_tiltDly : (run (.tiltDly 2 .right 1) ready).x[2] = 0x3F000000 := by decide +kernel
theorem test_tiltSat : (run (.tiltSat 2 .left 1) ready).x[2] = 0x3F000000 := by decide +kernel
theorem test_shimWin_zero : (run (.shimWin 2 1) (withRegs 0 0 0)).x[2] = 0 := by decide +kernel
theorem test_dlyTime_zero : (run (.dlyTime 2 1) (withRegs 0 0 0)).x[2] = 0x3CA3D70A := by decide +kernel
theorem test_dlyRatio_edge : (run (.dlyRatio 2 1) (withRegs 0x3E4CCCCC 0 0)).x[2] = 0x3F2AC083 := by
  decide +kernel
theorem test_dlyRatio_threshold : (run (.dlyRatio 2 1) (withRegs 0x3E4CCCCD 0 0)).x[2] = 0x3F000000 := by
  decide +kernel
theorem test_satOutg_half : (run (.satOutg 2 1) (withRegs 0x3F000000 0 0)).x[2] = 0x3F800000 := by
  decide +kernel
theorem test_revDecay : (run (.revDecay 2 1) (withRegs 0x3F19999A 0 0)).x[2] = 0x3F420C4A := by
  decide +kernel
theorem test_revDecay_ceiling : (run (.revDecay 2 1) (withRegs 0x40000000 0 0)).x[2] = 0x3F6E147B := by
  decide +kernel
theorem test_revDamp : (run (.revDamp 2 1) (withRegs 0x3E99999A 0 0)).x[2] = 0x3EA3C8A0 := by
  decide +kernel

/-! ## Commands that use the OPEN parameters, on the stand-in of 92_eei_decisions.md section 3

The functions of `NUM` are placeholders; every expected value below is one that the spec says no `NUM`
function reaches, or that property P2 of 20_memory.md R75 fixes. -/

/-- The stand-in constants. -/
def standIn : Cfg where
  refRate := 0x408F400000000000
  rbBase := #v[0x4000000000000000, 0x4008000000000000, 0x4014000000000000, 0x401C000000000000,
    0x4008000000000000, 0x4026000000000000, 0x4014000000000000, 0x402A000000000000,
    0x4010000000000000, 0x4028000000000000, 0x4018000000000000, 0x402C000000000000,
    0x4020000000000000, 0x4050000000000000, 0x4050000000000000, 0x4050000000000000,
    0x4050000000000000]
  gT1 := 0x3F333333
  gT2 := 0x3F000000
  revTapL := #v[⟨.rb5, 0x40000000⟩, ⟨.rb7, 0x40600000⟩, ⟨.rb9, 0x3F800000⟩, ⟨.rb11, 0x40800000⟩]
  revTapR := #v[⟨.rb9, 0x40000000⟩, ⟨.rb11, 0x40600000⟩, ⟨.rb5, 0x3F800000⟩, ⟨.rb7, 0x40800000⟩]
  revWtB := #v[0x3ECCCCCD, 0x3E4CCCCD, 0xBDCCCCCD, 0xBDCCCCCD]
  dcbR := 0x3F7EB852
  revTiltK := 0x3F800000
  satTiltK := 0x3F800000
  shimFbGain := 0x3F000000
  shimOffset := 0x3F800000
  dlyLfoHz := 0x3F000000
  dlyLfoPhi := 0x3E800000
  dlyModMax := 0x40800000
  satGTape := 0x40800000
  satGTube := 0x40800000
  satTubeC2 := 0x3E4CCCCD
  satTubeC3 := 0xBDCCCCCD
  satEnvAtt := 0x3F000000
  satCompAtt := 0x3F000000
  satClip := fun _ _ _ => 0x3F000000
  foldGain := fun drive grit => fadd (fadd one (fmul two drive)) grit
  satRelease := fun attack _ => fadd 0x3C23D70A (fmul 0x3DB851EC attack)
  satPunch := fun attack => fsub one attack
  compTarget := fun _ _ => one
  compRelease := fun _ _ => 0x3D4CCCCD
  exp := fun _ => 0x32000000
  tanh := fun _ => 0x3F000000
  cos := fun _ => 0x3F000000
  sin := fun _ => 0x3F000000
  pow := fun _ _ => 0x3F000000

/-- An engine prepared on the stand-in at 1000 Hz, with the parameters of Programs 3 and 4 part B. -/
def standReady (e : Engine) : State :=
  resultState (prepareWith Config.sizes standIn e 16 { rated with params := { Params.defaults with
    revMix := one, dlyMix := one, dlyTime := 0, dlyFeedback := half, dlyMod := 0, satComp := 0
    satType := one, satMix := one, satOutput := half, satWarmth := 0 } })

/-- 95_test_vectors.md Program 5, step 3: the sizes. -/
theorem test_prepare_sizes : (ownedRings .rev).map (fun u => (ring (standReady .rev) (ownedUnit u)).cap)
    = [2, 3, 5, 7, 3, 11, 5, 13, 4, 12, 6, 14, 8] := by decide +kernel
/-- 95_test_vectors.md Program 3, step 7: the cache, but for the coefficient. -/
theorem test_block_dly : (resultState (blockWith standIn .dly (standReady .dly))).dlyc
    = { d1 := 0x41A00000, d2 := 0x41700000, hp := true, aTone := 0, lfoInc := 0x3A03126F } := by
  decide +kernel
/-- 95_test_vectors.md section 2.4, the trace's step 3: the output is 2.0 exactly. -/
theorem test_shimStep :
    (resultState (shimStepWith standIn 2 1 (setFilter (setRing (writeX (standReady .rev) 1 0x40800000) 12
      { cap := 8, wr := 3, mem := [(0, 0x3F800000), (1, 0x40000000), (2, 0x40400000)] }) 9
      { x1 := 0, y1 := 0x3FC00000 }))).x[2] = 0x40000000 := by decide +kernel
/-- 95_test_vectors.md Program 3, sample 20: the impulse leaves Delay-1. -/
theorem test_dlySample : (resultState (dlySampleWith standIn 0 1 (setRing (standReady .dly) 13
    { cap := 64, wr := 20, mem := [(0, 0x3F800000)] }))).x[0] = 0x3F800000 := by decide +kernel
/-- 95_test_vectors.md Program 4 part B, sample 0. -/
theorem test_satSample : (resultState (satSampleWith standIn 0 1
    (writeX (writeX (standReady .sat) 0 half) 1 0xBF000000))).x[0] = 0x3F72AC08 := by decide +kernel
/-- The state after sample 0 of 95_test_vectors.md Program 5, with the next input 0. -/
def reverbOne : State :=
  writeX (resultState (revSampleWith standIn 0 1 (writeX (standReady .rev) 0 one))) 0 0
/-- 95_test_vectors.md Program 5, sample 1. -/
theorem test_revSample : (resultState (revSampleWith standIn 0 1 reverbOne)).x[0] = 0x3C6D14E2 := by
  decide +kernel
/-- The closed gate leaves the shimmer's cursor alone (95_test_vectors.md Program 5, end state). -/
theorem test_revSample_gate : (ring (resultState (revSampleWith standIn 0 1 reverbOne)) 12).wr = 0 := by
  decide +kernel
/-- 95_test_vectors.md section 2.6: tape and tube give 0 for 0. -/
theorem test_satTape_zero : (resultState (satTapeWith standIn 2 1 3 4 (withRegs 0 0 0))).x[2] = 0 := by
  decide +kernel
theorem test_satTube_zero : (resultState (satTubeWith standIn 2 1 3 4 (withRegs 0 0 0))).x[2] = 0 := by
  decide +kernel
/-- 92_eei_decisions.md section 2: `sat_clip` is an OPEN function, used as it is. -/
theorem test_satClip : (resultState (satClipWith standIn 2 1 3 4 (withRegs one 0 0))).x[2] = half := by
  decide +kernel
/-- 95_test_vectors.md section 2.6: fold of 3.5 is -0.5, of 9.5 is 1.5. -/
theorem test_satFold : (resultState (satFoldWith standIn 2 1 3 4 (withRegs 0x40600000 0 0))).x[2]
    = 0xBF000000 := by decide +kernel
theorem test_satFold_once_more :
    (resultState (satFoldWith standIn 2 1 3 4 (withRegs 0x41180000 0 0))).x[2] = 0x3FC00000 := by
  decide +kernel
/-- 95_test_vectors.md section 2.6: type 1 is fold alone. -/
theorem test_satXf : (resultState (satXfWith standIn 2 1 3 4 { withRegs 0x40600000 0 0 with
    params := { Params.defaults with satType := one } })).x[2] = 0xBF000000 := by decide +kernel
/-- No engine sample above used a free value. -/
theorem test_no_free_values :
    (resultState (dlySampleWith standIn 0 1 (standReady .dly))).free = 0 ∧
    (resultState (satSampleWith standIn 0 1 (standReady .sat))).free = 0 ∧
    (resultState (revSampleWith standIn 0 1 reverbOne)).free = 0 ∧
    (resultState (shimStepWith standIn 2 1 (standReady .rev))).free = 0 ∧
    (resultState (prepareWith Config.sizes standIn .sat 16 rated)).free = 0 := by decide +kernel

/-! ## Witnesses: a concrete state and operands that meet the hypotheses of each statement -/

/-- A state that meets the invariant, with an initialised unit and `RB.PUSH rb17, x1` waiting. -/
def poised : State :=
  { setRing State.reset 17 (freshRing 4) with inbox := [.command 0x0000000011001012] }

theorem witness_Inv : Inv poised where
  memory := by decide +kernel
  params := by intro p; cases p <;> decide
  variant := by decide
  status := by decide
  finfo := fun _ => rfl
  rate := by intro e h; cases e <;> revert h <;> decide
  slots := by intro e h; cases e <;> revert h <;> decide

theorem witness_DecodeEncode : (Instr.satSample 15 0).wellFormed = true ∧
    (Instr.rbRdn 15 31 0xFFFFFFFF).wellFormed = true := by decide
theorem witness_EncodeDecode : decode 0x0000000011041220 = .ok (.apProc 2 17 1 4) := by decide
theorem witness_UnusedFieldsZero :
    decode 0x0000000000001066 = .ok (.satSample 0 1) ∧ halted State.reset = false ∧
    ((splitWord 0x0000000100000000).op = (encodeFields .nop).op ∧
      (0x0000000100000000 : Command) &&& Instr.nop.format.mask ≠ Instr.nop.opMatch) ∧
    ((splitWord 0x0000000000003366).op ∈ ([0x52, 0x66, 0x72] : List (BitVec 8)) ∧
      (splitWord 0x0000000000003366).rd = (splitWord 0x0000000000003366).rs1) := by decide
theorem witness_opcode_unknown : ∀ i : Instr, (encodeFields i).op ≠ (splitWord 0xFF).op := by
  intro i
  have h : (splitWord 0xFF).op = 0xFF := by decide
  rw [h]
  cases i <;> simp [encodeFields]
/-- A word for each clause after the first, at the edge of its range. -/
theorem witness_IllegalWordsRaise : halted State.reset = false ∧
    ((encodeFields (.slim 0 0)).op = (splitWord 0x0001000000000034).op ∧
      (0x0001000000000034 : Command) &&& (Instr.slim 0 0).format.mask ≠ (Instr.slim 0 0).opMatch) ∧
    ((splitWord 0x52).op ∈ ([0x52, 0x66, 0x72] : List (BitVec 8)) ∧
      (splitWord 0x52).rd = (splitWord 0x52).rs1) ∧
    ((splitWord 0x20000010).op = 0x10 ∧ (splitWord 0x20000010).sel.toNat = 32 ∧
      (splitWord 0x20000033).op = 0x33 ∧ (splitWord 0x20000033).sel.toNat = 32) ∧
    ((splitWord 0x03000006).op = 0x06 ∧ (splitWord 0x03000006).sel.toNat = 3) ∧
    ((splitWord 0x0200003A).op = 0x3A ∧ (splitWord 0x0200003A).sel.toNat = 2) ∧
    ((splitWord 0x08000005).op = 0x05 ∧ Csr.ofNumber (splitWord 0x08000005).sel.toNat = none) ∧
    ((splitWord 0x06000004).op = 0x04 ∧ (splitWord 0x06000004).sel = 0x06) := by decide
theorem witness_StepRunsDecoded : poised.inbox = [.command 0x0000000011001012] ∧
    halted poised = false ∧
    decode 0x0000000011001012 = .ok (.rbPush 17 1) := by decide
theorem witness_StepRejectsIllegal :
    halted { poised with inbox := [.command 0xFF] } = false ∧ decode 0xFF = .error .unknownOpcode := by decide
/-- A halted block with a `CSRR rev.size`, a `LDV` or a `CSRR` of CSR 0x40 waiting. -/
theorem witness_HaltedIgnoresCommands :
    halted { stopped with inbox := [.command 0x0000000011000005] } = true ∧
    ((0x0000000011000005 : Command) &&& 0xFFFFFFFF00FFFFFF = 0x05 ∧
      Csr.ofNumber ((0x0000000011000005 : Command).extractLsb' 24 8).toNat
        = some (.param .revSize)) ∧
    (0x3F80000000000101 : Command) &&& 0xFFFFFFFF00FFFFFF ≠ 0x05 ∧
    Csr.ofNumber ((0x0000000040000005 : Command).extractLsb' 24 8).toNat = none := by decide +kernel
theorem witness_StepIdleAndReset : State.reset.inbox = [] ∧
    ({ stopped with inbox := [.reset] } : State).inbox = .reset :: [] := by decide
theorem witness_StepKeepsInv : Inv poised ∧
    ∃ t, step poised = .next t :=
  ⟨witness_Inv, _, rfl⟩
theorem witness_EveryWordCompletes : Inv poised := witness_Inv
theorem witness_FaultsArePrecise : halted State.reset = false ∧
    exec (.rbInit 17 0) State.reset = .next stopped ∧ halted stopped = true :=
  ⟨by decide, rfl, by decide +kernel⟩
theorem witness_HaltIsSticky :
    halted { stopped with inbox := [.command 0x3F80000000000101] } = true ∧
    (∀ rest, ({ stopped with inbox := [.command 0x3F80000000000101] } : State).inbox ≠ .reset :: rest) ∧
    ∃ t, step { stopped with inbox := [.command 0x3F80000000000101] } = .next t :=
  ⟨by decide +kernel, fun rest => by simp, _, rfl⟩
/-- A write to a read-only register halts the block; a reset is the other event of the statement. -/
theorem witness_HaltIsSticky_halts :
    halted { State.reset with inbox := [.command 0x0000000000000004] } = false ∧
    (∃ t, step { State.reset with inbox := [.command 0x0000000000000004] } = .next t ∧
      halted t = true) ∧
    ({ stopped with inbox := [.reset] } : State).inbox = .reset :: [] ∧
    ∃ t, step { stopped with inbox := [.reset] } = .next t :=
  ⟨by decide +kernel, ⟨_, rfl, by decide +kernel⟩, rfl, _, rfl⟩
/-- `NOP` is none of the commands of any clause. -/
theorem witness_ControlStateWriters : exec .nop State.reset = .next State.reset ∧
    (∀ e m, Instr.nop ≠ .prepare e m) ∧ (∀ e, Instr.nop ≠ .block e) ∧
    (∀ n v, Instr.nop ≠ .csrw n v) ∧ (∀ u c, Instr.nop ≠ .rbInit u c ∧ Instr.nop ≠ .rbInit2 u c) := by
  refine ⟨rfl, ?_, ?_, ?_, ?_⟩ <;> intros <;> simp
theorem witness_prepared : (∀ e, prepared e ready = true) ∧ (∀ e, engineHasSlots e ready = true) := by
  refine ⟨?_, ?_⟩ <;> intro e <;> cases e <;> decide +kernel
theorem witness_Inv_ready : Inv ready where
  memory := by decide +kernel
  params := by intro p; cases p <;> decide
  variant := by decide
  status := by decide
  finfo := fun _ => rfl
  rate := by intro e h; cases e <;> decide
  slots := fun e _ => witness_prepared.2 e
theorem slotsOk_zeros {b : RingUnit} (h : b.mem = []) (slots : List Nat) : slotsOk b slots = true := by
  simp [slotsOk, memRead, h, samplesRead, isFinite, expField]
/-- `ready` with the reverb never prepared: `RB[12]` has no slots. -/
def delayOnly : State := { setRing ready 12 (freshRing 0) with status := 6 }
theorem witness_Inv_delayOnly : Inv delayOnly where
  memory := by decide +kernel
  params := by intro p; cases p <;> decide
  variant := by decide
  status := by decide
  finfo := fun _ => rfl
  rate := by intro e h; cases e <;> revert h <;> decide
  slots := by intro e h; cases e <;> revert h <;> decide +kernel
/-- A delay sample of a block without a reverb, of finite values whatever the configuration is: its own
increment is 0, and it advances no shimmer phase. -/
theorem witness_PhasesStayInRange : Inv delayOnly ∧ (Instr.dlySample 0 1).wellFormed = true ∧
    (advancesDelay (.dlySample 0 1) = true ∧ phaseInputsOk Config.cfg (.dlySample 0 1) delayOnly = true ∧
      inPhase delayOnly.dlyc.lfoInc = true) ∧
    (inPhase delayOnly.dlyPh1 = true ∧ inPhase delayOnly.dlyPh2 = true) ∧
    advancesShimmer (.dlySample 0 1) delayOnly = false ∧ inPhase delayOnly.shimPhase = true ∧
    ∃ t, exec (.dlySample 0 1) delayOnly = .next t := by
  refine ⟨witness_Inv_delayOnly, by decide, ⟨rfl, ?_, by decide⟩, by decide, rfl, by decide, ?_⟩
  · have h : ∀ u : RbUnit, (ring delayOnly u).mem = [] := by decide +kernel
    simp only [phaseInputsOk, dlyOk, slotsOk_zeros (h _)]
    decide +kernel
  · show ∃ t, dlySampleWith Config.cfg 0 1 delayOnly = .next t
    rw [dlySampleWith, onPrepared, if_pos (by decide), if_pos (by decide +kernel)]
    exact ⟨_, rfl⟩
/-- A shimmer step of finite values, with the increment 1/3. -/
theorem witness_PhasesStayInRange_shimmer : Inv ready ∧ (Instr.shimStep 2 1).wellFormed = true ∧
    (advancesShimmer (.shimStep 2 1) ready = true ∧ phaseInputsOk Config.cfg (.shimStep 2 1) ready = true ∧
      inPhase (shimIncrement (ring ready 12)) = true) ∧ inPhase ready.shimPhase = true ∧
    ∃ t, exec (.shimStep 2 1) ready = .next t := by
  refine ⟨witness_Inv_ready, by decide, ⟨rfl, ?_, by decide +kernel⟩, by decide, ?_⟩
  · have h : (pushRing (ring ready 12) (lpOut (filter ready 8) (readX ready 1) ready.revc.aPre)).mem = [] := by
      decide +kernel
    simp only [phaseInputsOk, shimOk, slotsOk_zeros h]
    decide +kernel
  · show ∃ t, shimStepWith Config.cfg 2 1 ready = .next t
    rw [shimStepWith, onPrepared, if_pos (witness_prepared.1 _), if_pos (witness_prepared.2 _)]
    exact ⟨_, rfl⟩
/-- A first command after reset advances no phase. -/
theorem witness_PhasesStayInRange_reset : advancesShimmer .nop State.reset = false ∧
    advancesDelay .nop = false ∧ exec .nop State.reset = .next State.reset := ⟨rfl, rfl, rfl⟩
/-- `RB.INIT2 rb12, 4` for the first and the third clause; for the second the stand-in's shimmer buffer. -/
theorem witness_ShimmerCapacityIsPowerOfTwo : halted State.reset = false ∧
    (∃ t, exec (.rbInit2 12 4) State.reset = .next t ∧ halted t = false) ∧
    (ring State.reset 12).cap = 0 ∧ (∀ c, Instr.rbInit2 12 4 ≠ .rbInit 12 c) ∧
    halted (standReady .rev) = false ∧ (ring (standReady .rev) 12).cap = 2 ^ 3 :=
  ⟨by decide, ⟨_, rfl, by decide +kernel⟩, by decide, by simp, by decide +kernel, by decide +kernel⟩
theorem witness_CapacityNeverReturnsToZero : (ring (four 0) 17).cap ≠ 0 ∧
    ∃ t, exec (.rbPush 17 1) (four 0) = .next t := ⟨by decide, _, rfl⟩
theorem witness_NopDoesNothing : halted State.reset = false ∧ (splitWord 0x100).op = 0 ∧
    (0x100 : Command) ≠ 0 := by decide
theorem witness_CsrrReads : halted State.reset = false ∧
    (splitWord 0x0000000040000005).op = 0x05 ∧
    Csr.ofNumber (splitWord 0x0000000040000005).sel.toNat = none ∧ halted stopped = true ∧
    ∀ n, (0x0000000000001002 : Command) ≠ encode (.csrr n) := by
  refine ⟨by decide +kernel, by decide +kernel, by decide +kernel, by decide +kernel, fun n => ?_⟩
  cases n with
  | param p => cases p <;> decide +kernel
  | maxblk e => cases e <;> decide +kernel
  | _ => decide +kernel
/-- A NaN, minus zero, 1.0 and the smallest number above zero for a parameter. -/
theorem witness_CsrwWrites : isNaN 0x7FC00000 = true ∧ fle 0x80000000 0 = true ∧
    fle 0x3F800000 0x3F800000 = true ∧
    (flt 0 0x00000001 = true ∧ flt 0x00000001 0x3F800000 = true) ∧
    (flt 0 0x3F7FFFFF = true ∧ flt 0x3F7FFFFF 0x3F800000 = true) := by decide
theorem witness_ParameterStaysInUnit :
    ∃ t u, exec (.csrw (.param .satComp) 0x7FC00000) State.reset = .next t ∧
      exec (.csrr (.param .satComp)) t = .next u := ⟨_, _, rfl, rfl⟩
/-- For `PREPARE sat` no size is computed, whatever the configuration is. -/
theorem witness_PrepareCompletes : isPosFinite64 (srate rated) = true ∧
    ∀ u ∈ ownedRings .sat, ∃ n, preparedSize Config.cfg (srate rated) u = some n ∧ 1 ≤ n
      ∧ n ≤ Config.rbCapMax := ⟨by decide, by simp [ownedRings]⟩
/-- The sizes of the two other engines are in range on the stand-in. -/
theorem witness_PrepareCompletes_sizes : (ownedRings .rev ++ ownedRings .dly).all (fun u =>
    (preparedSize standIn (srate rated) u).any fun n => 1 ≤ n && n ≤ Config.rbCapMax) = true := by
  decide +kernel
/-- Rates of 0, of 1 Hz (a size of 0) and of 2^1000 Hz (a size above the bound). -/
theorem witness_PrepareFaults : isPosFinite64 (srate State.reset) = false ∧
    (isPosFinite64 (srate { State.reset with srateHi := 0x3FF00000 }) = true ∧
      (13 : Fin 17) ∈ ownedRings .dly ∧ preparedSize standIn 0x3FF0000000000000 13 = some 0) ∧
    (isPosFinite64 0x7E70000000000000 = true ∧
      (ownedRings .dly).all (fun u => preparedSize standIn 0x7E70000000000000 u != some 0) = true ∧
      (preparedSize standIn 0x7E70000000000000 13).all (· > Config.rbCapMax) = true) := by
  decide +kernel
theorem witness_PrepareIsIdempotent : ∃ t, exec (.prepare .sat 512) rated = .next t :=
  ⟨prepareEffects Config.cfg .sat 512 rated, rfl⟩
theorem witness_BlockLatchesCache : prepared .rev ready = true ∧ prepared .dly ready = true ∧
    prepared .sat ready = true := by decide
/-- Capacities 0, 2^20 + 1, 1, 2^20 and 6. -/
theorem witness_RingInit : (0x00000000 : Word32).toNat = 0 ∧
    Config.rbCapMax < (0x00100001 : Word32).toNat ∧
    ((0x00000001 : Word32).toNat = 2 ^ 0 ∧ (0x00000001 : Word32).toNat ≤ Config.rbCapMax) ∧
    ((0x00100000 : Word32).toNat = 2 ^ 20 ∧ (0x00100000 : Word32).toNat ≤ Config.rbCapMax) := by decide
theorem witness_RingInit_notPow2 : ∀ k, (6 : Word32).toNat ≠ 2 ^ k := by
  intro k h
  have h6 : (6 : Word32).toNat = 6 := by decide
  rw [h6] at h
  match k with
  | 0 => cases h
  | 1 => cases h
  | 2 => cases h
  | k + 3 => rw [Nat.pow_add] at h; omega
theorem witness_PushWritesAtCursor : (ring poised 17).cap ≠ 0 ∧ Inv poised :=
  ⟨by decide, witness_Inv⟩
theorem witness_PushReadRoundTrip : Inv poised ∧ (ring poised 17).cap ≠ 0 ∧
    (∃ t, exec (.rbPush 17 1) poised = .next t) ∧ 2 + 1 < (ring poised 17).cap :=
  ⟨witness_Inv, by decide, ⟨_, rfl⟩, by decide⟩
theorem witness_RdnCopiesSlot : (ring (four 0) 17).cap ≠ 0 := by decide
theorem witness_InterpolatedReads : (ring (squares 0) 17).cap ≠ 0 := by decide
theorem witness_ReadsStayInside : 1 ≤ (freshRing 1).cap ∧ (freshRing 1).cap ≤ Config.rbCapMax ∧
    1 ≤ (freshRing 0x100000).cap ∧ (freshRing 0x100000).cap ≤ Config.rbCapMax := by decide
theorem witness_UninitialisedUnitFaults : (ring State.reset 31).cap = 0 := by decide
theorem witness_CapacityAndCursorResponses : Inv poised := witness_Inv
theorem witness_AllpassStep : Inv poised ∧ (ring poised 17).cap ≠ 0 :=
  ⟨witness_Inv, by decide⟩
theorem witness_CoefficientCommand : isPosFinite64 (srate rated) = true ∧
    isPosFinite64 (srate State.reset) = false := by decide
theorem witness_TiltCommands : prepared .rev ready = true ∧ prepared .dly ready = true ∧
    prepared .sat ready = true := by decide
theorem witness_TiltIsFlatAtCentre : isFinite (readX ready 1) = true ∧
    (prepared .rev ready = true ∧ ready.params.revTone = 0x3F000000 ∧
      isFinite ready.revc.aLo = true ∧ isFinite ready.revc.aHi = true ∧
      isFinite (filter ready (chUnit .right 4 5)).y1 = true ∧
      isFinite (filter ready (chUnit .right 6 7)).y1 = true) ∧
    (prepared .sat ready = true ∧ ready.params.satTone = 0x3F000000 ∧
      isFinite ready.satc.aTone = true ∧
      isFinite (filter ready (chUnit .right 16 17)).y1 = true) := by decide +kernel
theorem witness_UnpreparedEngineFaults : prepared .rev State.reset = false ∧
    prepared .dly State.reset = false ∧ prepared .sat State.reset = false := by decide
theorem witness_SoftLimiterShape : isNaN 0x3F733334 = false ∧
    fle (fabs 0xBF733333) 0x3F733333 = true := by decide
/-- The first and the last control of each band, and a NaN. -/
theorem witness_RatioBands : (flt 0xFF800000 0x3E4CCCCD = true ∧ flt 0x3E4CCCCC 0x3E4CCCCD = true) ∧
    (fle 0x3E4CCCCD 0x3E4CCCCD = true ∧ flt 0x3E4CCCCD 0x3ECCCCCD = true) ∧
    (fle 0x3E4CCCCD 0x3ECCCCCC = true ∧ flt 0x3ECCCCCC 0x3ECCCCCD = true) ∧
    (fle 0x3ECCCCCD 0x3ECCCCCD = true ∧ flt 0x3ECCCCCD 0x3F19999A = true) ∧
    (fle 0x3ECCCCCD 0x3F199999 = true ∧ flt 0x3F199999 0x3F19999A = true) ∧
    (fle 0x3F19999A 0x3F19999A = true ∧ flt 0x3F19999A 0x3F4CCCCD = true) ∧
    (fle 0x3F19999A 0x3F4CCCCC = true ∧ flt 0x3F4CCCCC 0x3F4CCCCD = true) ∧
    (fle 0x3F4CCCCD 0x3F4CCCCD = true ∧ fle 0x3F4CCCCD 0x7F800000 = true) ∧
    isNaN 0x7FC00000 = true := by decide
theorem witness_FeedbackCeilings : isNaN 0x3F800000 = false := by decide
theorem witness_ShimmerStep : prepared .rev ready = true ∧ engineHasSlots .rev ready = true ∧ Inv ready :=
  ⟨witness_prepared.1 _, witness_prepared.2 _, witness_Inv_ready⟩
theorem witness_DelaySample : (0 : Reg) ≠ 1 ∧ prepared .dly ready = true ∧
    engineHasSlots .dly ready = true ∧ Inv ready :=
  ⟨by decide, witness_prepared.1 _, witness_prepared.2 _, witness_Inv_ready⟩
theorem witness_SaturationSample : (0 : Reg) ≠ 1 ∧ prepared .sat ready = true ∧ Inv ready ∧
    satOk 0 1 ready = true :=
  ⟨by decide, witness_prepared.1 _, witness_Inv_ready, by decide +kernel⟩
theorem witness_ReverbSample : (0 : Reg) ≠ 1 ∧ prepared .rev ready = true ∧
    engineHasSlots .rev ready = true ∧ Inv ready :=
  ⟨by decide, witness_prepared.1 _, witness_prepared.2 _, witness_Inv_ready⟩
theorem witness_ClosedGateFreezesShimmer : (0 : Reg) ≠ 1 ∧ flt 0x3A83126F ready.params.revShimmer = false ∧
    ∃ t, exec (.revSample 0 1) ready = .next t := by
  refine ⟨by decide, by decide, respond (finishWork (revSampleWork Config.cfg (startWork ready) 0 1)) 0, ?_⟩
  show revSampleWith Config.cfg 0 1 ready = _
  rw [revSampleWith, onPrepared, if_pos (witness_prepared.1 _), if_pos (witness_prepared.2 _)]
  rfl
theorem witness_OutputsAreClamped : (0 : Reg) ≠ 1 ∧ prepared .dly ready = true ∧
    engineHasSlots .dly ready = true ∧ prepared .sat ready = true :=
  ⟨by decide, witness_prepared.1 _, witness_prepared.2 _, witness_prepared.1 _⟩
theorem witness_NonFiniteInputIsFree : (0 : Reg) ≠ 1 ∧
    isFinite (readX (writeX ready 0 0x7F800000) 0) = false ∧
    (prepared .dly (writeX ready 0 0x7F800000) = true ∧
      engineHasSlots .dly (writeX ready 0 0x7F800000) = true) ∧
    prepared .sat (writeX ready 0 0x7F800000) = true ∧
    (prepared .rev (writeX ready 0 0x7F800000) = true ∧
      engineHasSlots .rev (writeX ready 0 0x7F800000) = true) :=
  ⟨by decide, by decide +kernel, ⟨witness_prepared.1 _, witness_prepared.2 .dly⟩,
    witness_prepared.1 _, ⟨witness_prepared.1 _, witness_prepared.2 .rev⟩⟩

end Sys2Proof.Machine.Tests
end

