-- ==== Sys2Proof/Proofs/PrepareFaults.lean ====
section
/-! Settles O29 (`PREPARE`'s checks in their order). The two checks on the sizes run over a list of
computed sizes; each is first read as a statement about the units the engine owns. -/

namespace Sys2Proof.Machine

section Checks
variable {z : Config.Sizes} {c : Config.Cfg} {e : Engine} {m : Word32} {s : State}

/-- The `CapZero` check of `prepareWith`, unit by unit. -/
theorem anySizeZero_iff {size : Fin 17 → Option Nat} {us : List (Fin 17)} :
    (us.map size).any (· == some 0) = true ↔ ∃ u ∈ us, size u = some 0 := by
  simp only [List.any_map, List.any_eq_true, Function.comp_apply, beq_iff_eq]

/-- A single computed size is above the bound if it is infinite or a greater number (log 14). -/
theorem sizeAbove_iff {bound : Nat} {n : Option Nat} :
    n.all (· > bound) = true ↔ n = none ∨ ∃ k, n = some k ∧ bound < k := by
  cases n with
  | none => simp
  | some k => simp

/-- The `CapRange` check of `prepareWith`, unit by unit. -/
theorem anySizeAbove_iff {bound : Nat} {size : Fin 17 → Option Nat} {us : List (Fin 17)} :
    (us.map size).any (fun n => n.all (· > bound)) = true ↔
      ∃ u ∈ us, size u = none ∨ ∃ n, size u = some n ∧ bound < n := by
  simp only [List.any_map, List.any_eq_true, Function.comp_apply, sizeAbove_iff]

/-- An illegal rate is reported before any size is looked at (60_exceptions.md R342). -/
theorem prepareWith_of_badRate (hrate : isPosFinite64 (srate s) = false) :
    prepareWith z c e m s = .next (raised .badRate (encode (.prepare e m)) s) := by
  rw [prepareWith, if_pos (by simp [hrate])]
  rfl

/-- At a legal rate a size of 0 is reported, whatever the other sizes are. -/
theorem prepareWith_of_sizeZero (hrate : isPosFinite64 (srate s) = true)
    (hzero : ∃ u ∈ ownedRings e, preparedSize c (srate s) u = some 0) :
    prepareWith z c e m s = .next (raised .capZero (encode (.prepare e m)) s) := by
  rw [prepareWith, if_neg (by simp [hrate]), if_pos (anySizeZero_iff.mpr hzero)]
  rfl

/-- At a legal rate and with no size of 0, a size above the bound is reported. -/
theorem prepareWith_of_sizeAbove (hrate : isPosFinite64 (srate s) = true)
    (hpos : ∀ u ∈ ownedRings e, preparedSize c (srate s) u ≠ some 0)
    (habove : ∃ u ∈ ownedRings e, preparedSize c (srate s) u = none
      ∨ ∃ n, preparedSize c (srate s) u = some n ∧ z.rbCapMax < n) :
    prepareWith z c e m s = .next (raised .capRange (encode (.prepare e m)) s) := by
  have hnoZero : ¬ ((ownedRings e).map (preparedSize c (srate s))).any (· == some 0) = true :=
    fun h => let ⟨u, hu, hsize⟩ := anySizeZero_iff.mp h; hpos u hu hsize
  rw [prepareWith, if_neg (by simp [hrate]), if_neg hnoZero, if_pos (anySizeAbove_iff.mpr habove)]
  rfl

end Checks

/-- Settles O29: `exec` of `PREPARE` is `prepareWith` by definition, and each check has its lemma. -/
theorem prepareFaults : Obligations.PrepareFaults :=
  ⟨fun _ _ _ => rfl, fun _ _ _ _ _ =>
    ⟨prepareWith_of_badRate, prepareWith_of_sizeZero, prepareWith_of_sizeAbove⟩⟩

end Sys2Proof.Machine
end

