-- ==== Sys2Proof/Proofs/Registers.lean ====
section
/-! Settles O5 (the CSR map), O12 (the values after reset) and O27 (what a parameter reads after a write),
from what the register map and a parameter write do, said once each. -/

namespace Sys2Proof

/-! ## The CSR map (10_state.md R28) -/

/-- The word of a `CSRR` in numbers: the opcode and the register's number in `sel` (30_encoding.md R91). -/
theorem encode_csrr (n : Csr) : encode (.csrr n) = BitVec.ofNat 64 (0x05 + n.number * 2 ^ 24) := by
  cases n with
  | maxblk e => cases e <;> decide
  | param p => cases p <;> decide
  | _ => decide

/-- The word of a `CSRW` of 0 in numbers. -/
theorem encode_csrw_zero (n : Csr) :
    encode (.csrw n 0) = BitVec.ofNat 64 (0x04 + n.number * 2 ^ 24) := by
  cases n with
  | maxblk e => cases e <;> decide
  | param p => cases p <;> decide
  | _ => decide

/-- The words of `CSRR` and `CSRW` with a register's number in `sel` decode to the command on that
register. -/
theorem decode_csr_word (n : Csr) :
    decode (BitVec.ofNat 64 (0x05 + n.number * 2 ^ 24)) = .ok (.csrr n) ∧
      decode (BitVec.ofNat 64 (0x04 + n.number * 2 ^ 24)) = .ok (.csrw n 0) := by
  rw [← encode_csrr, ← encode_csrw_zero]
  simp only [decode, encode, splitWord_joinWord]
  exact ⟨Laws.FieldsRoundTrip.csrr n rfl, Laws.FieldsRoundTrip.csrw n 0 rfl⟩

/-- A number that names a register is that register's number. -/
theorem number_of_ofNumber {k : Nat} {n : Csr} (h : Csr.ofNumber k = some n) : n.number = k := by
  unfold Csr.ofNumber at h
  split at h <;> cases h <;> rfl

/-- Settles O5: the map lists each register under its own number, whose words `decode_csr_word` decodes, and
it lists every register, so a number outside it names none. -/
theorem csrMap : Obligations.CsrMap := by
  unfold Obligations.CsrMap
  intro map
  have hnumber : ∀ q ∈ map, q.1 = q.2.number := by decide
  have hlisted : ∀ n : Csr, n.number ∈ map.map Prod.fst := by
    intro n
    cases n with
    | maxblk e => cases e <;> decide
    | param p => cases p <;> decide
    | _ => decide
  refine ⟨fun q hq => ?_, fun k hk => Option.eq_none_iff_forall_ne_some.mpr fun n hn => ?_⟩
  · rw [hnumber q hq]
    exact decode_csr_word q.2
  · exact hk (number_of_ofNumber hn ▸ hlisted n)

namespace Machine

/-! ## Parameter registers (10_state.md R26, 47_system.md R314) -/

@[simp] theorem Params.get_put_same (q : Params) (p : Param) (v : F32) : (q.put p v).get p = v := by
  cases p <;> rfl

theorem Params.get_put_ne (q : Params) {p p' : Param} (v : F32) (h : p' ≠ p) :
    (q.put p v).get p' = q.get p' := by
  cases p <;> cases p' <;> first | rfl | exact absurd rfl h

/-- What a write stores is a number in [0, 1]: `+0.0`, 1.0, or the word itself, which then lies strictly
between them. -/
theorem inUnit_paramValue (w : Word32) : inUnit (paramValue w) = true := by
  unfold paramValue
  split
  · decide
  · next hpos =>
    split
    · decide
    · next hlt =>
      simp only [Bool.or_eq_true, not_or, Bool.not_eq_true] at hpos
      obtain ⟨hnan, hpos⟩ := hpos
      have hzero : isNaN (0 : F32) = false := by decide
      have hone : isNaN one = false := by decide
      rw [inUnit, Bool.and_eq_true, fle_iff, fle_iff]
      refine ⟨⟨hzero, hnan, ?_⟩, hnan, hone, ?_⟩
      · by_contra hk
        rw [fle_iff.mpr ⟨hnan, hzero, by omega⟩] at hpos
        cases hpos
      · by_contra hk
        exact hlt (fle_iff.mpr ⟨hone, hnan, by simp only [one] at hk; omega⟩)

/-- Settles O27: the register holds what the write stored, which `inUnit_paramValue` bounds. -/
theorem parameterStaysInUnit : Obligations.ParameterStaysInUnit := by
  intro p w s t u hwrite hread
  cases hwrite
  cases hread
  show inUnit ((s.params.put p (paramValue w)).get p) = true
  rw [Params.get_put_same]
  exact inUnit_paramValue w

/-! ## The state after reset (10_state.md R36) -/

@[simp] theorem readX_reset (r : Reg) : readX State.reset r = 0 := by
  simp [readX, State.reset]

@[simp] theorem ring_reset (u : RbUnit) : ring State.reset u = freshRing 0 := by
  simp [ring, State.reset, freshRing]

@[simp] theorem filter_reset (f : FsUnit) : filter State.reset f = { x1 := 0, y1 := 0 } := by
  simp [filter, State.reset]

/-- Every field of every cache is 0 after reset. -/
theorem getPlace_cache_reset {e : Engine} {p : Place} (h : p ∈ cachePlaces e) :
    getPlace State.reset p = 0 := by
  revert p
  cases e <;> decide

/-- Settles O12: the units and caches by the lemmas above, every other register by evaluation. -/
theorem resetValues : Obligations.ResetValues := by
  refine ⟨readX_reset, rfl, rfl, by decide, rfl, rfl, rfl, rfl, ?units, filter_reset, rfl, rfl, rfl, rfl,
    ?rates, fun _ _ => getPlace_cache_reset, rfl, ?params⟩
  case units => simp [freshRing]
  case rates => intro e; cases e <;> rfl
  case params => intro p; cases p <;> rfl

end Machine

end Sys2Proof
end

