-- ==== Sys2Proof/Proofs/Invariant.lean ====
section
/-! Settles O13 (the reset state meets the invariant) and O14 (every step keeps it). `Inv` speaks of control
registers, latched rates, capacities and the form of the storage; a step that leaves the first three alone
keeps it by one lemma, and what is left are the fault entry and the writers of control state. -/

namespace Sys2Proof.Machine

open Config (Cfg)

/-! ## Steps that leave the control registers alone -/

/-- Units that keep their slots keep the engine's. -/
theorem engineHasSlots_mono {s t : State} (hcap : ∀ u, (ring s u).cap ≠ 0 → (ring t u).cap ≠ 0)
    {e : Engine} (h : engineHasSlots e s = true) : engineHasSlots e t = true := by
  simp only [engineHasSlots, List.all_eq_true, bne_iff_ne] at h ⊢
  exact fun u hu => hcap _ (h u hu)

/-- The invariant carries over to a state with the same registers and rates, canonical storage, and slots
wherever there were slots. -/
theorem Inv.of_registers {s t : State} (h : Inv s) (hreg : ∀ n, readCsr t n = readCsr s n)
    (hrate : ∀ e, rateOf e t = rateOf e s) (hcap : ∀ u, (ring s u).cap ≠ 0 → (ring t u).cap ≠ 0)
    (hwf : Memory.wf t = true) : Inv t := by
  have hstatus : t.status = s.status := hreg .status
  have hhalted : halted t = halted s := by simp only [halted, hstatus]
  have hprep : ∀ e, prepared e t = prepared e s := fun e => by simp only [prepared, hstatus]
  refine ⟨hwf, fun p => ?_, ?_, ?_, fun ht => ?_, fun e he => ?_, fun e he => ?_⟩
  · rw [show t.params.get p = s.params.get p from hreg (.param p)]
    exact h.params p
  · rw [show t.variant = s.variant from hreg .variant]
    exact h.variant
  · simp only [statusLegal, faultCode, hhalted, hstatus]
    exact h.status
  · exact (hreg .finfo).trans (h.finfo (hhalted ▸ ht))
  · rw [hrate]
    exact h.rate e (hprep e ▸ he)
  · exact engineHasSlots_mono hcap (h.slots e (hprep e ▸ he))

/-- The host's next events are no part of the invariant. -/
theorem Inv.of_inbox {s : State} (h : Inv s) (rest : List HostEvent) : Inv { s with inbox := rest } :=
  ⟨h.memory, h.params, h.variant, h.status, h.finfo, h.rate, h.slots⟩

/-- Nor is the response. -/
theorem Inv.respond {s : State} (h : Inv s) (v : Word32) : Inv (respond s v) :=
  ⟨h.memory, h.params, h.variant, h.status, h.finfo, h.rate, h.slots⟩

/-- A quiet step keeps the invariant. -/
theorem Inv.of_quiet {s t : State} (h : Inv s) (hq : Quiet s t) : Inv t := by
  obtain ⟨hrate, -, -, hreg, -⟩ := hq.registers
  exact h.of_registers hreg hrate (fun u hu => hq.cap u ▸ hu) (hq.wf h.memory)

/-- `BLOCK` latches a cache, and the invariant speaks of no cache. -/
theorem Inv.of_latch {s : State} (h : Inv s) (c : Cfg) (e : Engine) :
    Inv (finishWork (latchCache c e (startWork s))) := by
  have keep {α : Type} (f : State → α)
      (hf : ∀ s a b d n, f { s with revc := a, dlyc := b, satc := d, free := n } = f s) :
      f (finishWork (latchCache c e (startWork s))) = f s := finish_latch_inv f hf c e s
  refine h.of_registers (fun n => ?_) (fun e' => ?_) (fun u hu => ?_) ?_
  · exact keep (readCsr · n) fun _ _ _ _ _ => by cases n <;> rfl
  · exact keep (rateOf e') fun _ _ _ _ _ => rfl
  · rwa [keep (ring · u) fun _ _ _ _ _ => rfl]
  · exact (keep Memory.wf fun _ _ _ _ _ => rfl).trans h.memory

/-- A fresh unit with slots keeps the invariant (40_ring_buffer.md R121). -/
theorem Inv.of_freshRing {s : State} (h : Inv s) (u : RbUnit) {n : Nat} (hpos : 1 ≤ n)
    (hmax : n ≤ Config.rbCapMax) : Inv (setRing s u (freshRing n)) := by
  refine h.of_registers (fun n => by cases n <;> rfl) (fun _ => rfl) (fun v hv => ?_)
    (setRing_memory_wf _ _ _ h.memory (freshRing_wf n hmax))
  rw [ring_setRing]
  split
  · exact Nat.one_le_iff_ne_zero.mp hpos
  · exact hv

/-! ## Fault entry -/

/-- The bits a fault entry writes into `STATUS`. -/
theorem statusFaulted_eq (k : FaultCode) (st : Word32) :
    statusFaulted k st = (st &&& 0xFFFF00FF#32) ||| (k.code.zeroExtend 32 <<< 8 ||| haltBit) :=
  BitVec.or_assoc ..

/-- `FCODE` after a fault entry is the fault's code (60_exceptions.md R344). -/
theorem faultCode_raised (k : FaultCode) (w : Command) (s : State) :
    faultCode (raised k w s) = k.code := by
  have hclear : (0xFFFF00FF#32).extractLsb' 8 8 = 0#8 := by decide
  have hwrite : (k.code.zeroExtend 32 <<< 8 ||| haltBit : Word32).extractLsb' 8 8 = k.code := by
    cases k <;> decide
  rw [faultCode, raised_status, statusFaulted_eq, BitVec.extractLsb'_or, BitVec.extractLsb'_and, hclear,
    hwrite, BitVec.and_zero, BitVec.zero_or]

/-- A fault entry leaves the reserved bits of `STATUS` as they are. -/
theorem raised_reserved (k : FaultCode) (w : Command) (s : State) :
    (raised k w s).status &&& ~~~statusMask = s.status &&& ~~~statusMask := by
  rw [raised_status, statusFaulted_eq]
  exact select_after_write _ _ _ _ (by decide) (by cases k <;> decide)

theorem statusLegal_iff {s : State} : statusLegal s = true ↔ s.status &&& ~~~statusMask = 0 ∧
    (faultCode s).toNat ≤ 7 ∧ halted s = (faultCode s != 0) := by
  simp only [statusLegal, Bool.and_eq_true, beq_iff_eq, decide_eq_true_eq, and_assoc]

/-- A fault entry keeps the invariant (60_exceptions.md R344). -/
theorem Inv.of_raised {s : State} (h : Inv s) (k : FaultCode) (w : Command) : Inv (raised k w s) := by
  refine ⟨h.memory, h.params, h.variant, ?_, fun hrun => ?_, fun e he => ?_, fun e he => ?_⟩
  · obtain ⟨hreserved, -, -⟩ := statusLegal_iff.mp h.status
    rw [statusLegal_iff, raised_reserved, faultCode_raised, raised_halted]
    exact ⟨hreserved, by cases k <;> decide, by cases k <;> decide⟩
  · rw [raised_halted] at hrun
    cases hrun
  · exact h.rate e (raised_prepared k w s e ▸ he)
  · exact h.slots e (raised_prepared k w s e ▸ he)

/-! ## Writers of control state -/

/-- A register write keeps the invariant: `VARIANT` keeps bit 0, a parameter is clamped (47_system.md
R314). -/
theorem Inv.of_writeCsr {s t : State} (h : Inv s) {n : Csr} {v : Word32}
    (hw : writeCsr s n v = some t) : Inv t := by
  obtain rfl | rfl | rfl | ⟨p, -, rfl⟩ := writeCsr_cases hw
  · exact ⟨h.memory, h.params, h.variant, h.status, h.finfo, h.rate, h.slots⟩
  · exact ⟨h.memory, h.params, h.variant, h.status, h.finfo, h.rate, h.slots⟩
  · refine ⟨h.memory, h.params, ?_, h.status, h.finfo, h.rate, h.slots⟩
    show v &&& 1 &&& ~~~1 = 0
    rw [BitVec.and_assoc, show (1 : Word32) &&& ~~~1 = 0#32 by decide]
    exact BitVec.and_zero
  · refine ⟨h.memory, fun p' => ?_, h.variant, h.status, h.finfo, h.rate, h.slots⟩
    by_cases hp : p' = p
    · rw [hp, Params.get_put_same]
      exact inUnit_paramValue v
    · rw [Params.get_put_ne _ _ hp]
      exact h.params p'

/-! ## PREPARE -/

section Prepare
variable {c : Cfg} {e : Engine} {m : Word32} {s : State}

/-- The rate `PREPARE` latches is `SRATE` (47_system.md R316). -/
theorem prepareEffects_rate_same : rateOf e (prepareEffects c e m s) = srate s := by
  have hlatch : ∀ t, rateOf e (prepareRate e m (prepareScalars c e t)) = srate t := fun t => by
    cases e <;> rfl
  rw [prepareEffects_base (rateOf e) _ _ _ _ (fun _ _ _ _ _ => rfl) (fun _ _ _ => rfl), prepareBase,
    hlatch, prepareFilters_inv srate (fun _ _ _ => rfl), prepareRings_inv srate (fun _ _ _ => rfl)]

/-- The other engines keep their rates. -/
theorem prepareEffects_rate_ne {e' : Engine} (he : e' ≠ e) :
    rateOf e' (prepareEffects c e m s) = rateOf e' s := by
  refine prepareEffects_inv (rateOf e') _ _ _ _ (fun _ _ _ _ _ => rfl) (fun _ _ _ => rfl)
    (fun _ _ _ => rfl) (fun _ _ _ => rfl) (fun c t => ?_) fun m t => ?_
  · cases e <;> rfl
  · cases e <;> cases e' <;> first | rfl | exact absurd rfl he

/-- `PREPARE` writes neither `FINFO` nor a register that `CSRW` writes (10_state.md R24 to R26). -/
theorem prepareEffects_registers : (prepareEffects c e m s).finfo = s.finfo ∧
    srate (prepareEffects c e m s) = srate s ∧ (prepareEffects c e m s).variant = s.variant ∧
    (prepareEffects c e m s).params = s.params := by
  have h := prepareEffects_inv (fun t => (t.finfo, srate t, t.variant, t.params)) c e m s
    (fun _ _ _ _ _ => rfl) (fun _ _ _ => rfl) (fun _ _ _ => rfl) (fun _ _ _ => rfl)
    (fun _ _ => by cases e <;> rfl) fun _ _ => by cases e <;> rfl
  simpa only [Prod.mk.injEq] using h

/-- `PREPARE` sets a `PREP` bit, and so no reserved bit and no fault code. -/
theorem prepareEffects_statusLegal (h : statusLegal s = true) :
    statusLegal (prepareEffects c e m s) = true := by
  obtain ⟨hreserved, hcode, hhalted⟩ := statusLegal_iff.mp h
  have hstatus : (prepareEffects c e m s).status = s.status ||| prepBit e := prepareEffects_status c e m s
  have hkeep : faultCode (prepareEffects c e m s) = faultCode s := by
    have hbit : (prepBit e).extractLsb' 8 8 = 0#8 := by cases e <;> decide
    rw [faultCode, hstatus, BitVec.extractLsb'_or, hbit, BitVec.or_zero, faultCode]
  have hmask : (prepareEffects c e m s).status &&& ~~~statusMask = s.status &&& ~~~statusMask := by
    have hbits := select_after_write s.status (BitVec.allOnes 32) (prepBit e) (~~~statusMask)
      (by decide) (by cases e <;> decide)
    rwa [BitVec.and_allOnes, ← hstatus] at hbits
  obtain ⟨-, -, hrun⟩ := prepared_of_status (prepareEffects_status c e m s)
  rw [statusLegal_iff, hmask, hkeep, hrun]
  exact ⟨hreserved, hcode, hhalted⟩

/-- The sizes that `PREPARE` has found in order (60_exceptions.md R349). -/
def SizesOk (c : Cfg) (e : Engine) (s : State) : Prop :=
  ∀ u ∈ ownedRings e, ∃ n, preparedSize c (srate s) u = some n ∧ 1 ≤ n ∧ n ≤ Config.rbCapMax

/-- An owned unit after `PREPARE` is fresh, of the computed size. -/
theorem prepareEffects_ring_owned {u : Fin 17} (hu : u ∈ ownedRings e) {n : Nat}
    (hn : preparedSize c (srate s) u = some n) :
    ring (prepareEffects c e m s) (ownedUnit u) = freshRing n := by
  rw [prepareEffects_ring, prepareRings_owned _ _ _ hu, hn, Option.getD_some]

/-- A unit the engine does not own is as it was. -/
theorem prepareEffects_ring_other {v : RbUnit} (hv : ∀ u ∈ ownedRings e, ownedUnit u ≠ v) :
    ring (prepareEffects c e m s) v = ring s v := by
  rw [prepareEffects_ring, prepareRings_other _ _ _ hv]

/-- Every unit after `PREPARE` is fresh with a legal number of slots, or as it was. -/
theorem prepareEffects_ring_cases (hsizes : SizesOk c e s) (v : RbUnit) :
    (∃ n, 1 ≤ n ∧ n ≤ Config.rbCapMax ∧ ring (prepareEffects c e m s) v = freshRing n) ∨
      ring (prepareEffects c e m s) v = ring s v := by
  by_cases hv : ∃ u ∈ ownedRings e, ownedUnit u = v
  · obtain ⟨u, hu, rfl⟩ := hv
    obtain ⟨n, hn, hpos, hmax⟩ := hsizes u hu
    exact .inl ⟨n, hpos, hmax, prepareEffects_ring_owned hu hn⟩
  · exact .inr (prepareEffects_ring_other fun u hu hv' => hv ⟨u, hu, hv'⟩)

/-- The units of an engine `PREPARE` has sized have slots. -/
theorem prepareEffects_hasSlots (hsizes : SizesOk c e s) :
    engineHasSlots e (prepareEffects c e m s) = true := by
  rw [engineHasSlots, List.all_eq_true]
  intro u hu
  obtain ⟨n, hn, hpos, -⟩ := hsizes u hu
  rw [prepareEffects_ring_owned hu hn]
  exact bne_iff_ne.mpr (Nat.one_le_iff_ne_zero.mp hpos)

/-- `PREPARE` at a legal rate with sizes in range keeps the invariant (47_system.md R316). -/
theorem Inv.of_prepare (h : Inv s) (hrate : isPosFinite64 (srate s) = true) (hsizes : SizesOk c e s) :
    Inv (prepareEffects c e m s) := by
  obtain ⟨-, hother, hrun⟩ := prepared_of_status (prepareEffects_status c e m s)
  obtain ⟨hfinfo, -, hvariant, hparams⟩ := prepareEffects_registers (c := c) (e := e) (m := m) (s := s)
  have hcap : ∀ v, (ring s v).cap ≠ 0 → (ring (prepareEffects c e m s) v).cap ≠ 0 := by
    intro v hv
    obtain ⟨n, hpos, -, hr⟩ | hr := prepareEffects_ring_cases (m := m) hsizes v <;> rw [hr]
    · exact Nat.one_le_iff_ne_zero.mp hpos
    · exact hv
  refine ⟨(wf_iff _).mpr fun v => ?_, hparams ▸ h.params, hvariant ▸ h.variant,
    prepareEffects_statusLegal h.status, fun ht => hfinfo.trans (h.finfo (hrun ▸ ht)),
    fun e' he' => ?_, fun e' he' => ?_⟩
  · obtain ⟨n, -, hmax, hr⟩ | hr := prepareEffects_ring_cases (m := m) hsizes v <;> rw [hr]
    · exact freshRing_wf n hmax
    · exact (wf_iff s).mp h.memory v
  · by_cases hee : e' = e
    · subst hee
      rwa [prepareEffects_rate_same]
    · rw [prepareEffects_rate_ne hee]
      exact h.rate e' (hother e' hee ▸ he')
  · by_cases hee : e' = e
    · subst hee
      exact prepareEffects_hasSlots hsizes
    · exact engineHasSlots_mono hcap (h.slots e' (hother e' hee ▸ he'))

end Prepare

/-! ## Every step -/

/-- Every command keeps the invariant. -/
theorem Inv.of_exec {i : Instr} {s t : State} (h : Inv s) (hexec : exec i s = .next t) : Inv t := by
  rcases exec_cases hexec with ⟨k, rfl⟩ | hquiet | ⟨n, v, t', -, hw, rfl⟩ |
    ⟨e, m, -, hrate, hsizes, rfl⟩ | ⟨e, -, rfl⟩ | ⟨u, cap, -, hpos, hmax, rfl⟩
  · exact h.of_raised k _
  · exact h.of_quiet hquiet
  · exact (h.of_writeCsr hw).respond 0
  · exact h.of_prepare hrate hsizes
  · exact (h.of_latch Config.cfg e).respond 0
  · exact (h.of_freshRing u hpos hmax).respond 0

/-- While the block is halted a word changes the response alone (60_exceptions.md R346). -/
theorem haltedCommand_eq (w : Command) (s : State) : ∃ v, haltedCommand w s = respond s v := by
  unfold haltedCommand
  split
  · split <;> exact ⟨_, rfl⟩
  · exact ⟨_, rfl⟩

/-- Every presented word keeps the invariant: ignored, illegal, or a command. -/
theorem Inv.of_runCommand {w : Command} {s t : State} (h : Inv s) (hrun : runCommand w s = .next t) :
    Inv t := by
  unfold runCommand at hrun
  split at hrun
  · cases hrun
    obtain ⟨v, hv⟩ := haltedCommand_eq w s
    exact hv ▸ h.respond v
  · split at hrun
    · exact h.of_exec hrun
    · cases hrun
      exact h.of_raised _ w

/-- Settles O13. No engine is prepared after reset. -/
theorem resetMeetsInv : Obligations.ResetMeetsInv := by
  have hprep : ∀ e, prepared e State.reset = false := by intro e; cases e <;> decide
  exact ⟨reset_memory_wf, fun p => by cases p <;> decide, by decide, by decide, fun _ => rfl,
    fun e he => absurd (hprep e ▸ he) Bool.false_ne_true,
    fun e he => absurd (hprep e ▸ he) Bool.false_ne_true⟩

/-- The reset input leaves what hardware reset leaves (70_reset_and_hazards.md R370). -/
theorem Inv.of_hardwareReset (s : State) : Inv (hardwareReset s) :=
  ⟨resetMeetsInv.memory, resetMeetsInv.params, resetMeetsInv.variant, resetMeetsInv.status,
    resetMeetsInv.finfo, resetMeetsInv.rate, resetMeetsInv.slots⟩

/-- What the next event is handled in differs in the host's events alone (log 1). -/
theorem nextEvent_eq_some {s t : State} {ev : HostEvent} (h : nextEvent s = some (ev, t)) :
    ∃ rest, s.inbox = ev :: rest ∧ t = { s with inbox := rest } := by
  unfold nextEvent at h
  split at h
  · cases h
  · next ev' rest hinbox =>
    cases h
    exact ⟨rest, hinbox, rfl⟩

/-- Settles O14: a step is idle, a reset or a presented word, and each keeps the invariant. -/
theorem stepKeepsInv : Obligations.StepKeepsInv := by
  intro s t h hstep
  unfold step at hstep
  split at hstep
  · cases hstep
    exact h
  · cases hstep
    exact Inv.of_hardwareReset _
  · next w s' hev =>
    obtain ⟨rest, -, rfl⟩ := nextEvent_eq_some hev
    exact (h.of_inbox rest).of_runCommand hstep

end Sys2Proof.Machine
end

