-- ==== Sys2Proof/Proofs/ControlState.lean ====
section
/-! Settles O19 (which commands write the control state) and O21 (the shimmer buffer's capacity is a power of
two), each by the six possible outcomes of a command (`exec_cases`). -/

namespace Sys2Proof.Machine

/-! ## What each outcome leaves alone -/

/-- What `PREPARE` alone writes is the same: the latched rates, the `PREP` bits and `MAXBLK` (10_state.md R23, R25,
R32). -/
def SamePrepared (s t : State) : Prop :=
  (∀ e, rateOf e t = rateOf e s ∧ prepared e t = prepared e s) ∧
    t.maxblkRev = s.maxblkRev ∧ t.maxblkDly = s.maxblkDly ∧ t.maxblkSat = s.maxblkSat

/-- The block caches are the same (10_state.md R33). -/
def SameCaches (s t : State) : Prop := t.revc = s.revc ∧ t.dlyc = s.dlyc ∧ t.satc = s.satc

/-- The registers that `CSRW` writes are the same (47_system.md R314). -/
def SameCsrs (s t : State) : Prop := srate t = srate s ∧ t.variant = s.variant ∧ t.params = s.params

/-- Every unit has the same capacity. -/
def SameCaps (s t : State) : Prop := ∀ u, (ring t u).cap = (ring s u).cap

theorem raised_same (k : FaultCode) (w : Command) (s : State) :
    SamePrepared s (raised k w s) ∧ SameCaches s (raised k w s) ∧ SameCsrs s (raised k w s) ∧
      SameCaps s (raised k w s) :=
  ⟨⟨fun e => ⟨by cases e <;> rfl, raised_prepared k w s e⟩, rfl, rfl, rfl⟩, ⟨rfl, rfl, rfl⟩,
    ⟨rfl, rfl, rfl⟩, fun _ => rfl⟩

theorem Quiet.same {s t : State} (h : Quiet s t) :
    SamePrepared s t ∧ SameCaches s t ∧ SameCsrs s t ∧ SameCaps s t := by
  obtain ⟨hrate, hprep, -, hreg, hsrate, hparams, -⟩ := h.registers
  exact ⟨⟨fun e => ⟨hrate e, hprep e⟩, hreg (.maxblk .rev), hreg (.maxblk .dly), hreg (.maxblk .sat)⟩,
    ⟨h.revc, h.dlyc, h.satc⟩, ⟨hsrate, hreg .variant, hparams⟩, h.cap⟩

/-- A register write leaves everything but the registers alone. -/
theorem writeCsr_same {s t : State} {n : Csr} {v : Word32} (h : writeCsr s n v = some t) (r : Word32) :
    SamePrepared s (respond t r) ∧ SameCaches s (respond t r) ∧ SameCaps s (respond t r) := by
  obtain rfl | rfl | rfl | ⟨p, -, rfl⟩ := writeCsr_cases h <;>
    exact ⟨⟨fun e => ⟨by cases e <;> rfl, rfl⟩, rfl, rfl, rfl⟩, ⟨rfl, rfl, rfl⟩, fun _ => rfl⟩

/-- Latching a cache leaves everything but the caches alone. -/
theorem latch_same (c : Config.Cfg) (e : Engine) (s : State) (r : Word32) :
    let t := respond (finishWork (latchCache c e (startWork s))) r
    SamePrepared s t ∧ SameCsrs s t ∧ SameCaps s t := by
  intro t
  have keep {α : Type} (f : State → α)
      (hf : ∀ s a b d n, f { s with revc := a, dlyc := b, satc := d, free := n } = f s) :
      f (finishWork (latchCache c e (startWork s))) = f s := finish_latch_inv f hf c e s
  exact ⟨⟨fun e' => ⟨keep (rateOf e') fun _ _ _ _ _ => rfl, keep (prepared e') fun _ _ _ _ _ => rfl⟩,
      keep State.maxblkRev fun _ _ _ _ _ => rfl, keep State.maxblkDly fun _ _ _ _ _ => rfl,
      keep State.maxblkSat fun _ _ _ _ _ => rfl⟩,
    ⟨keep srate fun _ _ _ _ _ => rfl, keep State.variant fun _ _ _ _ _ => rfl,
      keep State.params fun _ _ _ _ _ => rfl⟩,
    fun u => keep (fun s => (ring s u).cap) fun _ _ _ _ _ => rfl⟩

/-- A fresh unit leaves everything but the units alone. -/
theorem freshRing_same (u : RbUnit) (n : Nat) (s : State) (r : Word32) :
    let t := respond (setRing s u (freshRing n)) r
    SamePrepared s t ∧ SameCaches s t ∧ SameCsrs s t :=
  ⟨⟨fun e => ⟨by cases e <;> rfl, rfl⟩, rfl, rfl, rfl⟩, ⟨rfl, rfl, rfl⟩, ⟨rfl, rfl, rfl⟩⟩

/-- Settles O19: of the six outcomes of a command, each leaves alone what the command does not own. -/
theorem controlStateWriters : Obligations.ControlStateWriters := by
  intro i s t hexec
  show (_ → SamePrepared s t) ∧ (_ → SameCaches s t) ∧ (_ → SameCsrs s t) ∧ (_ → SameCaps s t)
  rcases exec_cases hexec with ⟨k, rfl⟩ | hquiet | ⟨n, v, t', rfl, hw, rfl⟩ |
    ⟨e, m, rfl, -, -, rfl⟩ | ⟨e, rfl, rfl⟩ | ⟨u, cap, hi, -, -, rfl⟩
  · obtain ⟨hprep, hcache, hcsr, hcap⟩ := raised_same k (encode i) s
    exact ⟨fun _ => hprep, fun _ => hcache, fun _ => hcsr, fun _ => hcap⟩
  · obtain ⟨hprep, hcache, hcsr, hcap⟩ := hquiet.same
    exact ⟨fun _ => hprep, fun _ => hcache, fun _ => hcsr, fun _ => hcap⟩
  · obtain ⟨hprep, hcache, hcap⟩ := writeCsr_same hw 0
    exact ⟨fun _ => hprep, fun _ => hcache, fun hno => absurd rfl (hno n v), fun _ => hcap⟩
  · obtain ⟨-, hcsr⟩ := prepareEffects_registers (c := Config.cfg) (e := e) (m := m) (s := s)
    exact ⟨fun hno => absurd rfl (hno e m), fun hno => absurd rfl (hno e m).1, fun _ => hcsr,
      fun hno => absurd rfl (hno e m 0 0).1⟩
  · obtain ⟨hprep, hcsr, hcap⟩ := latch_same Config.cfg e s 0
    exact ⟨fun _ => hprep, fun hno => absurd rfl (hno e 0).2, fun _ => hcsr, fun _ => hcap⟩
  · obtain ⟨hprep, hcache, hcsr⟩ := freshRing_same u cap.toNat s 0
    refine ⟨fun _ => hprep, fun _ => hcache, fun _ => hcsr, fun hno => ?_⟩
    obtain ⟨-, h1, h2⟩ := hno .rev 0 u cap
    exact absurd hi (not_or.mpr ⟨h1, h2⟩)

/-! ## Capacities that are powers of two -/

theorem exists_of_isPow2 {n : Nat} (h : isPow2 n = true) : ∃ k, n = 2 ^ k := by
  simp only [isPow2, Bool.and_eq_true, beq_iff_eq] at h
  exact ⟨_, h.2.symm⟩

theorem exists_pow2ceil_eq (n : Nat) : ∃ k, pow2ceil n = 2 ^ k := by
  unfold pow2ceil
  split
  · exact ⟨0, rfl⟩
  · exact ⟨_, rfl⟩

/-- The shimmer buffer's size, where `PREPARE` finds it in order, has been rounded up to a power of two
(47_system.md R316). -/
theorem preparedSize_shimmer {c : Config.Cfg} {rate : F64} {n : Nat}
    (h : preparedSize c rate 12 = some n) (hpos : 1 ≤ n) : ∃ k, n = 2 ^ k := by
  simp only [preparedSize, if_true, Option.map_eq_some_iff] at h
  obtain ⟨a, -, rfl⟩ := h
  split at hpos
  · next ha =>
    rw [if_pos ha]
    exact exists_pow2ceil_eq a
  · next ha => exact absurd hpos ha

/-- `RB.INIT2` ends in a fault entry or sets a power of two (40_ring_buffer.md R122). -/
theorem exec_rbInit2_cap {u : RbUnit} {cap : Word32} {s t : State}
    (h : exec (.rbInit2 u cap) s = .next t) :
    (∃ k, t = raised k (encode (.rbInit2 u cap)) s) ∨
      t = respond (setRing s u (freshRing cap.toNat)) 0 ∧ ∃ k, cap.toNat = 2 ^ k := by
  change rbInit2With Config.sizes u cap s = _ at h
  unfold rbInit2With at h
  split at h
  · cases h
    exact .inl ⟨_, rfl⟩
  · split at h
    · cases h
      exact .inl ⟨_, rfl⟩
    · split at h
      · cases h
        exact .inl ⟨_, rfl⟩
      · next hpow =>
        cases h
        exact .inr ⟨rfl, exists_of_isPow2 (by simpa using hpow)⟩

/-- The shimmer buffer after `PREPARE rev` (47_system.md R316). -/
theorem prepareEffects_shimmer_cap {c : Config.Cfg} {m : Word32} {s : State} (h : SizesOk c .rev s) :
    ∃ k, (ring (prepareEffects c .rev m s) 12).cap = 2 ^ k := by
  have hmem : (12 : Fin 17) ∈ ownedRings .rev := by decide
  obtain ⟨n, hn, hpos, -⟩ := h 12 hmem
  rw [show (12 : RbUnit) = ownedUnit 12 from rfl, prepareEffects_ring_owned hmem hn]
  exact preparedSize_shimmer hn hpos

/-- No other engine owns the shimmer buffer (10_state.md R31). -/
theorem ownedUnit_ne_shimmer {e : Engine} (he : e ≠ .rev) : ∀ u ∈ ownedRings e, ownedUnit u ≠ 12 := by
  cases e with
  | rev => exact absurd rfl he
  | dly => decide
  | sat => decide

/-- A capacity that is zero or a power of two (10_state.md R35). -/
def CapPow2OrZero (s : State) (u : RbUnit) : Prop := (ring s u).cap = 0 ∨ ∃ k, (ring s u).cap = 2 ^ k

/-- Every command but an `RB.INIT` of the shimmer buffer leaves it with no slots or a power of two. -/
theorem exec_keeps_shimmer_pow2 {i : Instr} {s t : State} (hi : ∀ c, i ≠ .rbInit 12 c)
    (hexec : exec i s = .next t) (h : CapPow2OrZero s 12) : CapPow2OrZero t 12 := by
  have of_cap : (ring t 12).cap = (ring s 12).cap → CapPow2OrZero t 12 := fun hcap => by
    rwa [CapPow2OrZero, hcap]
  rcases exec_cases hexec with ⟨k, rfl⟩ | hquiet | ⟨n, v, t', -, hw, rfl⟩ |
    ⟨e, m, -, -, hsizes, rfl⟩ | ⟨e, -, rfl⟩ | ⟨u, cap, hinit, -, -, rfl⟩
  · exact h
  · exact of_cap (hquiet.cap 12)
  · obtain ⟨-, -, hcap⟩ := writeCsr_same hw 0
    exact of_cap (hcap 12)
  · by_cases he : e = .rev
    · subst he
      exact .inr (prepareEffects_shimmer_cap hsizes)
    · exact of_cap (congrArg RingUnit.cap (prepareEffects_ring_other (ownedUnit_ne_shimmer he)))
  · obtain ⟨-, -, hcap⟩ := latch_same Config.cfg e s 0
    exact of_cap (hcap 12)
  · by_cases hu : u = 12
    · subst hu
      obtain rfl := hinit.resolve_left (hi cap)
      obtain ⟨k, hk⟩ | ⟨-, hpow⟩ := exec_rbInit2_cap hexec
      · exact of_cap (hk ▸ rfl)
      · exact .inr (by simpa [freshRing] using hpow)
    · exact of_cap (by simp [ring_setRing, hu])

/-- A command that did not halt the block raised no fault. -/
theorem not_raised_of_running {t : State} (h : halted t = false) {w : Command} {s : State} :
    ¬∃ k, t = raised k w s := by
  rintro ⟨k, rfl⟩
  rw [raised_halted] at h
  cases h

/-- Settles O21. -/
theorem shimmerCapacityIsPowerOfTwo : Obligations.ShimmerCapacityIsPowerOfTwo := by
  refine ⟨fun u c s t _ hexec hrun => ?_, fun m s t _ hexec hrun => ?_,
    fun i s t hi hexec h => exec_keeps_shimmer_pow2 hi hexec h⟩
  · obtain ⟨rfl, hpow⟩ := (exec_rbInit2_cap hexec).resolve_left (not_raised_of_running hrun)
    simpa [freshRing] using hpow
  · obtain ⟨-, hsizes, rfl⟩ := (exec_prepare_cases hexec).resolve_left (not_raised_of_running hrun)
    exact prepareEffects_shimmer_cap hsizes

end Sys2Proof.Machine
end

