-- ==== Sys2Proof/Proofs/Phases.lean ====
section
/-! Settles O20 (the phases stay in [0, 1)). A command that does not advance a phase leaves it as it is, but for
`PREPARE`, which sets it; one that advances it with finite values writes the wrapped sum, which
`inPhase_wrapPhase` bounds. -/

namespace Sys2Proof.Machine

open Config (Cfg)

/-- The three phases of the block (10_state.md R32). -/
inductive Phase where
  | shim | dly1 | dly2

/-- What a phase stands at. -/
def Phase.value (h : Phase) (s : State) : F32 :=
  match h with
  | .shim => s.shimPhase
  | .dly1 => s.dlyPh1
  | .dly2 => s.dlyPh2

/-- The place of a phase. -/
def Phase.place : Phase → Place
  | .shim => .shimPhase
  | .dly1 => .dlyPh1
  | .dly2 => .dlyPh2

/-- Whether a command advances a phase (43_shimmer.md R196, 44_delay.md R214). -/
def Phase.advancedBy (h : Phase) (i : Instr) (s : State) : Bool :=
  match h with
  | .shim => advancesShimmer i s
  | .dly1 | .dly2 => advancesDelay i

@[simp] theorem getPlace_phase (h : Phase) (s : State) : getPlace s h.place = h.value s := by
  cases h <;> rfl

/-! ## Commands that leave a phase as it is -/

/-- If the command has a next state, the phase in it is as it was. -/
def LeavesPhase (h : Phase) (s : State) (r : Result) : Prop := ∀ t, r = .next t → h.value t = h.value s

section Leaves
variable {h : Phase} {s : State}

theorem leaves_next {t : State} (ht : h.value t = h.value s) : LeavesPhase h s (.next t) := by
  intro t' hnext
  cases hnext
  exact ht

theorem leaves_stop (f : Fault) : LeavesPhase h s (.fault f) := by
  intro t hnext
  cases hnext

theorem leaves_raise (k : FaultCode) (i : Instr) : LeavesPhase h s (raiseFault k i s) :=
  leaves_next rfl

theorem leaves_onRing {u : RbUnit} {i : Instr} {r : Result} (hr : LeavesPhase h s r) :
    LeavesPhase h s (onRing u i s r) := by
  unfold onRing
  split
  · exact leaves_raise _ _
  · exact hr

theorem leaves_onPrepared {e : Engine} {i : Instr} {r : Result} (hr : LeavesPhase h s r) :
    LeavesPhase h s (onPrepared e i s r) := by
  unfold onPrepared
  split
  · exact hr
  · exact leaves_raise _ _

/-- A command that has not written the phase leaves it. -/
theorem leaves_complete {w : Work} {ps : List Place} {us : List RbUnit}
    (hm : Moves (startWork s) w ps us) (hp : h.place ∉ ps) : LeavesPhase h s (complete w) := by
  intro t hnext
  obtain ⟨t', hcomplete, -, hframe, -⟩ := complete_moves hm
  rw [hcomplete] at hnext
  cases hnext
  simpa using hframe.place h.place hp

/-- A list of places that names no phase. -/
theorem phase_not_mem {ps : List Place} (hp : ∀ p ∈ ps, p ≠ .shimPhase ∧ p ≠ .dlyPh1 ∧ p ≠ .dlyPh2) :
    h.place ∉ ps := by
  intro hm
  obtain ⟨h1, h2, h3⟩ := hp _ hm
  cases h with
  | shim => exact h1 rfl
  | dly1 => exact h2 rfl
  | dly2 => exact h3 rfl

theorem leaves_unary (f : F32 → F32) (d r : Reg) : LeavesPhase h s (unaryOp f d r s) := by
  simp only [unaryOp]
  exact leaves_complete (((Moves.refl (startWork s)).read _).write _ _) (phase_not_mem (by simp))

theorem leaves_ternary (f : F32 → F32 → F32 → F32) (d a b c : Reg) :
    LeavesPhase h s (ternaryOp f d a b c s) := by
  simp only [ternaryOp]
  exact leaves_complete (((((Moves.refl (startWork s)).read _).read _).read _).write _ _)
    (phase_not_mem (by simp))

theorem leaves_read {read : Work → RbUnit → F32 → F32 × Work}
    (hread : ∀ w u d, Moves w (read w u d).2 [] []) (d : Reg) (u : RbUnit) (r : Reg) :
    LeavesPhase h s (readOp read d u r s) := by
  simp only [readOp]
  exact leaves_complete ((((Moves.refl (startWork s)).read _).trans (hread _ _ _)).write _ _)
    (phase_not_mem (by simp))

theorem leaves_filter {stepf : Work → FsUnit → F32 → F32 → F32 × Work}
    (hstep : ∀ w f x a, Moves w (stepf w f x a).2 [.fsX f, .fsY f] []) (d : Reg) (f : FsUnit)
    (r a : Reg) : LeavesPhase h s (filterOp stepf d f r a s) := by
  simp only [filterOp]
  exact leaves_complete (((((Moves.refl (startWork s)).read _).read _).trans (hstep _ _ _ _)).write _ _)
    (phase_not_mem (by simp))

theorem leaves_tilt {tilt : Work → Channel → F32 → F32 × Work} {d : Reg} {ch : Channel} {r : Reg}
    {ps : List Place} (htilt : ∀ w v, Moves w (tilt w ch v).2 ps []) (hp : h.place ∉ ps) :
    LeavesPhase h s (tiltOp tilt d ch r s) := by
  simp only [tiltOp]
  refine leaves_complete ((((Moves.refl (startWork s)).read _).trans (htilt _ _)).write _ _) ?_
  have hx : h.place ≠ .x d := by cases h <;> exact Place.noConfusion
  simpa using ⟨hp, hx⟩

end Leaves

/-- A command that does not advance a phase, and is no `PREPARE`, leaves the phase as it is. -/
theorem exec_leaves_phase (h : Phase) (i : Instr) (s : State) (hadv : h.advancedBy i s = false)
    (hprep : ∀ e m, i ≠ .prepare e m) : LeavesPhase h s (exec i s) := by
  cases i with
  | prepare e m => exact absurd rfl (hprep e m)
  | csrw n v =>
    intro t hexec
    obtain ⟨k, rfl⟩ | ⟨t', hw, rfl⟩ := exec_csrw_cases hexec
    · rfl
    · obtain rfl | rfl | rfl | ⟨p, -, rfl⟩ := writeCsr_cases hw <;> rfl
  | block e =>
    intro t hexec
    obtain ⟨k, rfl⟩ | rfl := exec_block_cases hexec
    · rfl
    · exact finish_latch_inv h.value (fun _ _ _ _ _ => rfl) Config.cfg e s
  | rbInit u c =>
    intro t hexec
    obtain ⟨k, rfl⟩ | ⟨-, -, rfl⟩ := exec_init_cases (.inl rfl) hexec <;> rfl
  | rbInit2 u c =>
    intro t hexec
    obtain ⟨k, rfl⟩ | ⟨-, -, rfl⟩ := exec_init_cases (.inr rfl) hexec <;> rfl
  | nop => exact leaves_next rfl
  | ldv d v => exact leaves_next rfl
  | rdv r => exact leaves_next rfl
  | mov d r => exact leaves_next rfl
  | csrr n => exact leaves_next rfl
  | rbPush u r => exact leaves_onRing (leaves_next rfl)
  | rbRdn d u k => exact leaves_onRing (leaves_next rfl)
  | rbRdi d u r => exact leaves_onRing (leaves_read rdiWork_moves _ _ _)
  | rbRdl d u r => exact leaves_onRing (leaves_read rdlWork_moves _ _ _)
  | rbRdc d u r => exact leaves_onRing (leaves_read rdcWork_moves _ _ _)
  | rbRdp d u r => exact leaves_onRing (leaves_read rdpWork_moves _ _ _)
  | rbCap u => exact leaves_next rfl
  | rbCur u => exact leaves_next rfl
  | apProc d u r g =>
    exact leaves_onRing (leaves_complete (((((Moves.refl (startWork s)).read _).read _).ap (by simp) _
      _).write _ _) (phase_not_mem (by simp)))
  | fClr f => exact leaves_next rfl
  | fLp d f r a => exact leaves_filter lpWork_moves _ _ _ _
  | fHp d f r a => exact leaves_filter hpWork_moves _ _ _ _
  | fDcb d f r a => exact leaves_filter dcbWork_moves _ _ _ _
  | slim d r => exact leaves_unary _ _ _
  | clamp d a b c => exact leaves_ternary _ _ _ _ _
  | fCoef d r =>
    show LeavesPhase h s (coefWith Config.cfg d r s)
    unfold coefWith
    split
    · exact leaves_unary _ _ _
    · exact leaves_raise _ _
  | tiltRev d ch r =>
    exact leaves_onPrepared (leaves_tilt (fun w => tiltRevWork_moves _ w ch) (phase_not_mem (by simp)))
  | tiltDly d ch r =>
    exact leaves_onPrepared (leaves_tilt (fun w => tiltDlyWork_moves w ch) (phase_not_mem (by simp)))
  | tiltSat d ch r =>
    exact leaves_onPrepared (leaves_tilt (fun w => tiltSatWork_moves _ w ch) (phase_not_mem (by simp)))
  | shimWin d r => exact leaves_unary _ _ _
  | shimStep d r =>
    refine leaves_onPrepared ?_
    split
    · refine leaves_complete ((((Moves.refl (startWork s)).read _).trans
        (shimStepWork_moves _ _ _)).write _ _) ?_
      cases h with
      | shim => cases hadv
      | dly1 => simp [shimPlaces, Phase.place]
      | dly2 => simp [shimPlaces, Phase.place]
    · exact leaves_stop _
  | dlyTime d r => exact leaves_unary _ _ _
  | dlyRatio d r =>
    show LeavesPhase h s (execDlyRatio d r s)
    simp only [execDlyRatio]
    refine leaves_complete (ps := [.x d]) (us := []) ?_ (phase_not_mem (by simp))
    split
    · exact (Moves.refl (startWork s)).write _ _
    · exact ((Moves.refl (startWork s)).see _).write _ _
  | dlySample l r =>
    refine leaves_onPrepared ?_
    split
    · refine leaves_complete (dlySampleWork_moves _ _ _ _) ?_
      cases h with
      | shim => simp [dlyPlaces, Phase.place]
      | dly1 => cases hadv
      | dly2 => cases hadv
    · exact leaves_stop _
  | satTape d a b c => exact leaves_ternary _ _ _ _ _
  | satTube d a b c => exact leaves_ternary _ _ _ _ _
  | satClip d a b c => exact leaves_ternary _ _ _ _ _
  | satFold d a b c => exact leaves_ternary _ _ _ _ _
  | satXf d a b c => exact leaves_ternary _ _ _ _ _
  | satOutg d r => exact leaves_unary _ _ _
  | satSample l r =>
    refine leaves_onPrepared (leaves_complete (satSampleWork_moves _ _ _ _) (phase_not_mem ?_))
    simp only [satPlaces, compPlaces]
    split <;> simp
  | revDecay d r => exact leaves_unary _ _ _
  | revDamp d r => exact leaves_unary _ _ _
  | revSample l r =>
    refine leaves_onPrepared ?_
    split
    · refine leaves_complete (revSampleWork_moves _ _ _ _) ?_
      cases h with
      | shim =>
        have hgate : gateOpen s = false := hadv
        simp [revPlaces, hgate, Phase.place]
      | dly1 => by_cases hgate : gateOpen s = true <;> simp [revPlaces, shimPlaces, hgate, Phase.place]
      | dly2 => by_cases hgate : gateOpen s = true <;> simp [revPlaces, shimPlaces, hgate, Phase.place]
    · exact leaves_stop _

/-! ## PREPARE -/

/-- What `PREPARE` leaves in a phase: its starting value, or what it was (47_system.md R316). -/
theorem prepareEffects_phase (c : Cfg) (e : Engine) (m : Word32) (s : State) (h : Phase) :
    h.value (prepareEffects c e m s) = h.value (prepareScalars c e s) := by
  have hrate : ∀ t, h.value (prepareRate e m t) = h.value t := fun t => by cases e <;> rfl
  have hscalars : ∀ t t', h.value t = h.value t' →
      h.value (prepareScalars c e t) = h.value (prepareScalars c e t') := by
    intro t t' ht
    cases e <;> cases h <;> first | rfl | exact ht
  rw [prepareEffects_base h.value _ _ _ _ (fun _ _ _ _ _ => rfl) (fun _ _ _ => rfl), prepareBase, hrate]
  refine hscalars _ _ ?_
  rw [prepareFilters_inv h.value (fun _ _ _ => rfl), prepareRings_inv h.value (fun _ _ _ => rfl)]

theorem inPhase_zero : inPhase 0 = true := by decide

/-- The starting value of the second delay phase is in [0, 1), whatever the configuration
(92_eei_decisions.md section 2). -/
theorem inPhase_cfgDlyLfoPhi (c : Cfg) : inPhase (cfgDlyLfoPhi c) = true := by
  unfold cfgDlyLfoPhi restrict
  split
  · assumption
  · decide

/-- The phases that `PREPARE` sets start in [0, 1). -/
theorem inPhase_prepareScalars (c : Cfg) (e : Engine) (s : State) (h : Phase)
    (hs : inPhase (h.value s) = true) : inPhase (h.value (prepareScalars c e s)) = true := by
  cases e with
  | rev =>
    cases h with
    | shim => exact inPhase_zero
    | dly1 => exact hs
    | dly2 => exact hs
  | dly =>
    cases h with
    | shim => exact hs
    | dly1 => exact inPhase_zero
    | dly2 => exact inPhase_cfgDlyLfoPhi c
  | sat => exact hs

/-! ## Commands that advance a phase -/

/-- Settling a command of finite values leaves a number as it is (20_memory.md R76). -/
theorem settle_all_number {p : Place} (ps : List Place) (s : State) (hp : isNaN (getPlace s p) = false) :
    getPlace (ps.foldl (settlePlace true) s) p = getPlace s p := by
  induction ps generalizing s with
  | nil => rfl
  | cons q ps ih =>
    have hq : getPlace (settlePlace true s q) p = getPlace s p := by
      by_cases hpq : p = q
      · subst hpq
        simp [settlePlace, hp]
      · exact (settlePlace_frame true s q).place p (by simpa using hpq)
    rw [List.foldl_cons, ih _ (hq ▸ hp), hq]

theorem isNaN_of_inPhase {v : F32} (h : inPhase v = true) : isNaN v = false := by
  rw [inPhase, Bool.and_eq_true, fle_iff] at h
  obtain ⟨⟨-, hnan, -⟩, -⟩ := h
  exact hnan

/-- If the command has a next state, the phase in it is in [0, 1). -/
def EndsInPhase (h : Phase) (r : Result) : Prop := ∀ t, r = .next t → inPhase (h.value t) = true

/-- A command of finite values that wrote a number in [0, 1) leaves it. -/
theorem endsInPhase_complete {h : Phase} {w : Work} (hdom : w.dom = true)
    (hw : inPhase (h.value w.st) = true) : EndsInPhase h (complete w) := by
  intro t hnext
  cases hnext
  have hkeep : h.value (finishWork w) = h.value w.st := by
    rw [← getPlace_phase, ← getPlace_phase, finishWork, hdom]
    exact settle_all_number _ _ (by simpa using isNaN_of_inPhase hw)
  show inPhase (h.value (finishWork w)) = true
  rwa [hkeep]

/-- The engine commands: a fault entry keeps the phase, the model's stop has no next state. -/
theorem endsInPhase_engine {h : Phase} {e : Engine} {i : Instr} {s : State} {r : Result}
    (hs : inPhase (h.value s) = true) (hr : EndsInPhase h r) :
    EndsInPhase h (onPrepared e i s (if engineHasSlots e s then r else .fault .noSlot)) := by
  unfold onPrepared
  split
  · split
    · exact hr
    · intro t hnext
      cases hnext
  · intro t hnext
    cases hnext
    exact hs

/-- The increment of the shimmer is that of its capacity. -/
theorem shimIncrement_congr {a b : RingUnit} (h : a.cap = b.cap) : shimIncrement a = shimIncrement b := by
  rw [shimIncrement, shimIncrement, h]

/-- The shimmer phase after a step (43_shimmer.md R196). -/
theorem shimState_shimPhase (c : Cfg) (v : F32) (s : State) :
    (shimState c v s).shimPhase = wrapPhase (fadd s.shimPhase (shimIncrement (ring s 12))) := by
  rw [← shimIncrement_congr (pushRing_cap (ring s 12) (lpOut (filter s 8) v s.revc.aPre))]
  rfl

/-- The shimmer phase after a reverb sample with the gate open (46_reverb.md R285). -/
theorem revState_shimPhase (c : Cfg) (l r : Reg) {s : State} (hgate : gateOpen s = true) :
    (revState c l r s).shimPhase = wrapPhase (fadd s.shimPhase (shimIncrement (ring s 12))) := by
  simp only [revState, hgate, if_true, writeX_shimPhase, shimState_shimPhase]
  simp [ring_setRing]

/-- A shimmer step keeps the shimmer phase in [0, 1) (43_shimmer.md R196). -/
theorem shimStep_endsInPhase {d r : Reg} {s : State}
    (hok : phaseInputsOk Config.cfg (.shimStep d r) s = true)
    (hinc : inPhase (shimIncrement (ring s 12)) = true) (hs : inPhase s.shimPhase = true) :
    EndsInPhase .shim (exec (.shimStep d r) s) := by
  refine endsInPhase_engine hs (endsInPhase_complete (w := writePlace (shimStepWork Config.cfg
    (readPlace (startWork s) (.x r)).2 (readX s r)).2 (.x d) _) ?_ ?_)
  · rw [writePlace_dom, shimStepWork_dom, readPlace_snd, seeValue_dom, seeValue_st, startWork_dom,
      Bool.true_and]
    exact hok
  · rw [Phase.value, writePlace_st, putPlace, writeX_shimPhase, shimStepWork_st, shimState_shimPhase]
    exact inPhase_wrapPhase hs hinc

/-- A reverb sample with the gate open keeps the shimmer phase in [0, 1). -/
theorem revSample_endsInPhase {l r : Reg} {s : State} (hgate : gateOpen s = true)
    (hok : phaseInputsOk Config.cfg (.revSample l r) s = true)
    (hinc : inPhase (shimIncrement (ring s 12)) = true) (hs : inPhase s.shimPhase = true) :
    EndsInPhase .shim (exec (.revSample l r) s) := by
  refine endsInPhase_engine hs (endsInPhase_complete ?_ ?_)
  · rw [revSampleWork_dom]
    exact hok
  · rw [Phase.value, revSampleWork_st, startWork_st, revState_shimPhase _ _ _ hgate]
    exact inPhase_wrapPhase hs hinc

/-- A delay sample keeps each of its phases in [0, 1) (44_delay.md R214). -/
theorem dlySample_endsInPhase {h : Phase} (hdly : h ≠ .shim) {l r : Reg} {s : State}
    (hok : phaseInputsOk Config.cfg (.dlySample l r) s = true) (hinc : inPhase s.dlyc.lfoInc = true)
    (hs : inPhase (h.value s) = true) : EndsInPhase h (exec (.dlySample l r) s) := by
  refine endsInPhase_engine hs (endsInPhase_complete ?_ ?_)
  · rw [dlySampleWork_dom]
    exact hok
  · rw [dlySampleWork_st, startWork_st]
    cases h with
    | shim => exact absurd rfl hdly
    | dly1 => exact inPhase_wrapPhase hs hinc
    | dly2 => exact inPhase_wrapPhase hs hinc

/-! ## Every command -/

/-- The commands that advance a phase: a shimmer step, a reverb sample with the gate open, a delay sample. -/
theorem Phase.advancedBy_cases (h : Phase) {i : Instr} {s : State} (hadv : h.advancedBy i s = true) :
    (∃ d r, i = .shimStep d r ∧ h = .shim) ∨
      (∃ l r, i = .revSample l r ∧ h = .shim ∧ gateOpen s = true) ∨
      ∃ l r, i = .dlySample l r ∧ h ≠ .shim := by
  have hdelay : advancesDelay i = true → ∃ l r, i = .dlySample l r := by
    intro hi
    unfold advancesDelay at hi
    split at hi
    · exact ⟨_, _, rfl⟩
    · cases hi
  cases h with
  | shim =>
    change advancesShimmer i s = true at hadv
    unfold advancesShimmer at hadv
    split at hadv
    · exact .inl ⟨_, _, rfl, rfl⟩
    · exact .inr (.inl ⟨_, _, rfl, rfl, hadv⟩)
    · cases hadv
  | dly1 =>
    obtain ⟨l, r, rfl⟩ := hdelay hadv
    exact .inr (.inr ⟨l, r, rfl, Phase.noConfusion⟩)
  | dly2 =>
    obtain ⟨l, r, rfl⟩ := hdelay hadv
    exact .inr (.inr ⟨l, r, rfl, Phase.noConfusion⟩)

/-- What a command that advances a phase adds to it (43_shimmer.md R196, 44_delay.md R214). -/
def Phase.increment (h : Phase) (s : State) : F32 :=
  match h with
  | .shim => shimIncrement (ring s 12)
  | .dly1 | .dly2 => s.dlyc.lfoInc

/-- Every command keeps each phase in [0, 1), given finite values and an increment in [0, 1) if it advances
that phase. -/
theorem exec_keeps_inPhase {h : Phase} {i : Instr} {s t : State} (hexec : exec i s = .next t)
    (hadv : h.advancedBy i s = true →
      phaseInputsOk Config.cfg i s = true ∧ inPhase (h.increment s) = true)
    (hs : inPhase (h.value s) = true) : inPhase (h.value t) = true := by
  cases hadvances : h.advancedBy i s with
  | false =>
    by_cases hprep : ∃ e m, i = .prepare e m
    · obtain ⟨e, m, rfl⟩ := hprep
      obtain ⟨k, rfl⟩ | ⟨-, -, rfl⟩ := exec_prepare_cases hexec
      · exact hs
      · rw [prepareEffects_phase]
        exact inPhase_prepareScalars _ _ _ _ hs
    · push Not at hprep
      rwa [exec_leaves_phase h i s hadvances hprep t hexec]
  | true =>
    obtain ⟨hok, hinc⟩ := hadv hadvances
    obtain ⟨d, r, rfl, rfl⟩ | ⟨l, r, rfl, rfl, hgate⟩ | ⟨l, r, rfl, hdly⟩ :=
      h.advancedBy_cases hadvances
    · exact shimStep_endsInPhase hok hinc hs t hexec
    · exact revSample_endsInPhase hgate hok hinc hs t hexec
    · have hinc : inPhase s.dlyc.lfoInc = true := by
        cases h with
        | shim => exact absurd rfl hdly
        | dly1 => exact hinc
        | dly2 => exact hinc
      exact dlySample_endsInPhase hdly hok hinc hs t hexec

/-- Settles O20. -/
theorem phasesStayInRange : Obligations.PhasesStayInRange :=
  ⟨by decide, fun _ _ _ _ _ hexec =>
    ⟨exec_keeps_inPhase (h := .shim) hexec, fun hadv =>
      ⟨exec_keeps_inPhase (h := .dly1) hexec hadv, exec_keeps_inPhase (h := .dly2) hexec hadv⟩⟩⟩

end Sys2Proof.Machine
end

