-- ==== Sys2Proof/Proofs/ByteForm.lean ====
section
/-! Settles O6 (the byte form). A word is the number its bytes spell, the high bytes of a word are the bytes
of its high part, and the decoder reads back what the encoder wrote. -/

namespace Sys2Proof

/-! ## The bytes of a word (20_memory.md R63) -/

@[simp] theorem length_bytesOf (n : Nat) {k : Nat} (w : BitVec k) : (bytesOf n w).length = n := by
  simp [bytesOf]

@[simp] theorem getElem_bytesOf {n k j : Nat} (w : BitVec k) (h : j < (bytesOf n w).length) :
    (bytesOf n w)[j] = w.extractLsb' (8 * j) 8 := by
  simp [bytesOf]

/-- Byte `j` holds bits `8 j + 7` to `8 j`. -/
theorem getElem?_bytesOf {n k j : Nat} (w : BitVec k) (h : j < n) :
    (bytesOf n w)[j]? = some (w.extractLsb' (8 * j) 8) := by
  simp [h]

/-- The first byte is the low one; the others are the bytes of the word shifted down by one byte. -/
theorem bytesOf_succ (n : Nat) {k : Nat} (w : BitVec k) :
    bytesOf (n + 1) w = w.extractLsb' 0 8 :: bytesOf n (w >>> 8) := by
  refine List.ext_getElem (by simp) fun j _ _ => ?_
  cases j with
  | zero => simp
  | succ j =>
    simp only [getElem_bytesOf, List.getElem_cons_succ]
    ext i hi
    simp only [BitVec.getElem_extractLsb', BitVec.getLsbD_ushiftRight]
    congr 1
    omega

/-- The bytes after the first `m` are the bytes of the bits from `8 m` on. -/
theorem drop_bytesOf (m n : Nat) {k : Nat} (w : BitVec k) :
    (bytesOf (m + n) w).drop m = bytesOf n (w.extractLsb' (8 * m) (8 * n)) := by
  refine List.ext_getElem (by simp) fun j hj _ => ?_
  have hjn : j < n := by simpa using hj
  ext i hi
  have hin : 8 * j + i < 8 * n := by omega
  simp [hin, Nat.mul_add, Nat.add_assoc]

/-- The bytes of a word, least significant first, spell its value. -/
theorem natOfBytes_bytesOf (n : Nat) {k : Nat} (w : BitVec k) :
    natOfBytes (bytesOf n w) = w.toNat % 2 ^ (8 * n) := by
  induction n generalizing w with
  | zero => simp [bytesOf, natOfBytes, Nat.mod_one]
  | succ n ih =>
    calc natOfBytes (bytesOf (n + 1) w)
        = w.toNat % 2 ^ 8 + 2 ^ 8 * (w.toNat / 2 ^ 8 % 2 ^ (8 * n)) := by
          simp [bytesOf_succ, natOfBytes, ih, Nat.shiftRight_eq_div_pow]
      _ = w.toNat % 2 ^ (8 * (n + 1)) := by
          rw [← Nat.mod_mul, ← Nat.pow_add, Nat.mul_succ, Nat.add_comm 8]

/-- A word is read back from its bytes, whatever bytes follow. -/
theorem ofNat_natOfBytes_take (n : Nat) (w : BitVec (8 * n)) (rest : List (BitVec 8)) :
    BitVec.ofNat (8 * n) (natOfBytes ((bytesOf n w ++ rest).take n)) = w := by
  rw [List.take_left' (length_bytesOf n w), natOfBytes_bytesOf, Nat.mod_eq_of_lt w.isLt,
    BitVec.ofNat_toNat, BitVec.setWidth_eq]

/-! ## Reading a command back (30_encoding.md R91, R96, R97) -/

open Laws.FieldsRoundTrip in
/-- Every well-formed command is what its word decodes to. -/
theorem decode_encode {i : Instr} (h : i.wellFormed = true) : decode (encode i) = .ok i := by
  rw [decode, encode, splitWord_joinWord]
  cases i with
  | nop => exact nop h
  | ldv rd imm => exact ldv rd imm h
  | rdv rs => exact rdv rs h
  | mov rd rs => exact mov rd rs h
  | csrw csr imm => exact csrw csr imm h
  | csrr csr => exact csrr csr h
  | prepare e maxBlock => exact prepare e maxBlock h
  | block e => exact block e h
  | rbInit u cap => exact rbInit u cap h
  | rbInit2 u cap => exact rbInit2 u cap h
  | rbPush u rs => exact rbPush u rs h
  | rbRdn rd u k => exact rbRdn rd u k h
  | rbRdi rd u rs => exact rbRdi rd u rs h
  | rbRdl rd u rs => exact rbRdl rd u rs h
  | rbRdc rd u rs => exact rbRdc rd u rs h
  | rbRdp rd u rs => exact rbRdp rd u rs h
  | rbCap u => exact rbCap u h
  | rbCur u => exact rbCur u h
  | apProc rd u rs rg => exact apProc rd u rs rg h
  | fClr f => exact fClr f h
  | fLp rd f rs ra => exact fLp rd f rs ra h
  | fHp rd f rs ra => exact fHp rd f rs ra h
  | fDcb rd f rs rr => exact fDcb rd f rs rr h
  | slim rd rs => exact slim rd rs h
  | clamp rd rs lo hi => exact clamp rd rs lo hi h
  | fCoef rd rs => exact fCoef rd rs h
  | tiltRev rd ch rs => exact tiltRev rd ch rs h
  | tiltDly rd ch rs => exact tiltDly rd ch rs h
  | tiltSat rd ch rs => exact tiltSat rd ch rs h
  | shimWin rd rs => exact shimWin rd rs h
  | shimStep rd rs => exact shimStep rd rs h
  | dlyTime rd rs => exact dlyTime rd rs h
  | dlyRatio rd rs => exact dlyRatio rd rs h
  | dlySample l r => exact dlySample l r h
  | satTape rd rs drive grit => exact satTape rd rs drive grit h
  | satTube rd rs drive grit => exact satTube rd rs drive grit h
  | satClip rd rs drive grit => exact satClip rd rs drive grit h
  | satFold rd rs drive grit => exact satFold rd rs drive grit h
  | satXf rd rs drive grit => exact satXf rd rs drive grit h
  | satOutg rd rs => exact satOutg rd rs h
  | satSample l r => exact satSample l r h
  | revDecay rd rs => exact revDecay rd rs h
  | revDamp rd rs => exact revDamp rd rs h
  | revSample l r => exact revSample l r h

/-- A command is read back from the bytes of its word, whatever bytes follow (30_encoding.md R100). -/
theorem decodeBytes_append (w : Command) (rest : List (BitVec 8)) :
    decodeBytes (bytesOfWord w ++ rest) = some (decode w, rest) := by
  have hlen : (bytesOfWord w).length = 8 := length_bytesOf 8 w
  have hword : BitVec.ofNat 64 (natOfBytes ((bytesOfWord w ++ rest).take 8)) = w :=
    ofNat_natOfBytes_take 8 w rest
  rw [decodeBytes, if_neg (by simp [hlen]), hword, List.drop_left' hlen]

/-- Settles O6: the bytes of a word one by one, `decodeBytes_append` with `decode_encode`, and
`ofNat_natOfBytes_take`. -/
theorem byteForm : Obligations.ByteForm := by
  refine ⟨fun w => ⟨length_bytesOf 8 w, getElem?_bytesOf w (by decide), getElem?_bytesOf w (by decide),
    drop_bytesOf 4 4 w⟩, fun i rest hi => ?_, fun w rest => ⟨length_bytesOf 4 w,
    fun k => getElem?_bytesOf w k.isLt, ofNat_natOfBytes_take 4 w rest⟩⟩
  rw [decodeBytes_append, decode_encode hi]

end Sys2Proof
end

