-- ==== Sys2Proof/Proofs/ReadBounds.lean ====
section
/-! Settles O37 (slots and delays inside their bounds). A slot is a residue of the capacity; the delay bounds
are those of `clampedDelay_mem`. -/

namespace Sys2Proof.Machine

/-- A residue of the capacity is a slot. -/
theorem toNat_emod_lt {cap : Nat} (h : 1 ≤ cap) (k : Int) : (k % (cap : Int)).toNat < cap := by
  have hnonneg := Int.emod_nonneg k (b := cap) (by omega)
  have hlt := Int.emod_lt_of_pos k (b := cap) (by omega)
  omega

/-- The slot of a delay lies inside the unit (20_memory.md R70). -/
theorem slotOf_lt {b : RingUnit} (h : 1 ≤ b.cap) (k : Int) : slotOf b k < b.cap := toNat_emod_lt h _

/-- The slot at a position lies inside the unit (40_ring_buffer.md R129). -/
theorem slotAt_lt {b : RingUnit} (h : 1 ≤ b.cap) (k : Int) : slotAt b k < b.cap := toNat_emod_lt h k

/-- Settles O37: a capacity of at most 2^20 is exact as an F32, so `clampedDelay_mem` gives the bounds. -/
theorem readsStayInside : Obligations.ReadsStayInside := by
  intro b d k hpos hcap
  have hcap : b.cap ≤ 2 ^ 20 := hcap
  have h0 : 0 ≤ (delay0 b d).1 ∧ (delay0 b d).1 ≤ max 0 ((b.cap : Int) - 1) :=
    clampedDelay_mem d (by omega) (by omega) (by omega) (by omega)
  have hmax : max 0 ((b.cap : Int) - 1) = b.cap - 1 := max_eq_right (by omega)
  exact ⟨slotOf_lt hpos k, slotAt_lt hpos k, hmax ▸ h0,
    clampedDelay_mem d (by omega) (by omega) (by omega) (by omega),
    clampedDelay_mem d (by omega) (by omega) (by omega) (by omega)⟩

end Sys2Proof.Machine
end

