-- ==== Sys2Proof/Proofs/NonFiniteInputs.lean ====
section
/-! Settles O58 (a NaN or infinite input makes both outputs free). Once a command has used a non-finite value,
every place it wrote gets the next free value in turn (`settle_all_open`), so two output
registers written in turn get two neighbouring numbers. -/

namespace Sys2Proof.Machine

open Config (Cfg)

/-- The command has a next state that differs in no place but `ps` and the cursors of `us`, and in which `l`
and `r` hold two different new free values (20_memory.md R76; log 9). -/
def FreesOutputs (l r : Reg) (ps : List Place) (us : List RbUnit) (s : State) (res : Result) : Prop :=
  ∃ t m n, res = .next t ∧ Frame ps us s t ∧ s.free ≤ m ∧ m < n ∧ n < t.free ∧
    readX t l = Config.freeF32 m ∧ readX t r = Config.freeF32 n

/-- Two registers written one after the other by a command that used a non-finite value. -/
theorem settle_all_open_two {l r : Reg} (ps qs : List Place) (s : State) (hlr : l ≠ r)
    (hl : .x l ∉ qs) (hr : .x r ∉ qs) :
    readX ((ps ++ .x l :: .x r :: qs).foldl (settlePlace false) s) l
        = Config.freeF32 (s.free + ps.length) ∧
      readX ((ps ++ .x l :: .x r :: qs).foldl (settlePlace false) s) r
        = Config.freeF32 (s.free + (ps.length + 1)) := by
  refine ⟨settle_all_open_reg ps (.x r :: qs) l s (by simpa [hlr] using hl), ?_⟩
  have hshift : ps ++ .x l :: .x r :: qs = (ps ++ [.x l]) ++ .x r :: qs := by simp
  rw [hshift, settle_all_open_reg _ _ _ _ hr, List.length_append, List.length_singleton]

/-- A command that used a non-finite value, and among its places wrote `l` and then `r`, frees both. -/
theorem freesOutputs_complete {l r : Reg} {s : State} {w : Work} {ps qs : List Place} {us : List RbUnit}
    (h : Moves (startWork s) w (ps ++ .x l :: .x r :: qs) us) (hdom : w.dom = false) (hlr : l ≠ r)
    (hl : .x l ∉ qs) (hr : .x r ∉ qs) :
    FreesOutputs l r (ps ++ .x l :: .x r :: qs) us s (complete w) := by
  have hwrote : w.wrote = ps ++ .x l :: .x r :: qs := by simpa using h.wrote
  have hfree : w.st.free = s.free := h.free
  have hfin : finishWork w = (ps ++ .x l :: .x r :: qs).foldl (settlePlace false) w.st := by
    rw [finishWork, hwrote, hdom]
  have hcount : (finishWork w).free = s.free + (ps.length + (qs.length + 2)) := by
    rw [hfin, settle_all_open, hfree]
    simp
  obtain ⟨hreadL, hreadR⟩ := settle_all_open_two ps qs w.st hlr hl hr
  rw [← hfin, hfree] at hreadL hreadR
  obtain ⟨t, hnext, -, hframe, -⟩ := complete_moves h
  cases hnext
  refine ⟨_, s.free + ps.length, s.free + (ps.length + 1), rfl, hframe, by omega, by omega, ?_, hreadL,
    hreadR⟩
  rw [respond_free, hcount]
  omega

section Engines
variable {c : Cfg} {l r : Reg} {s : State}

/-! ## A non-finite input is outside the domain of each engine -/

theorem dlyOk_of_not_finite (h : isFinite (readX s l) = false ∨ isFinite (readX s r) = false) :
    dlyOk c l r s = false := by
  rcases h with h | h <;> simp [dlyOk, h]

theorem satOk_of_not_finite (h : isFinite (readX s l) = false ∨ isFinite (readX s r) = false) :
    satOk l r s = false := by
  rcases h with h | h <;> simp [satOk, h]

theorem revOk_of_not_finite (h : isFinite (readX s l) = false ∨ isFinite (readX s r) = false) :
    revOk c l r s = false := by
  rcases h with h | h <;> simp [revOk, h]

/-! ## The three sample commands -/

theorem dlySample_freesOutputs (hlr : l ≠ r)
    (hin : isFinite (readX s l) = false ∨ isFinite (readX s r) = false)
    (hprep : prepared .dly s = true) (hslots : engineHasSlots .dly s = true) :
    FreesOutputs l r (dlyPlaces l r s) [13, 14, 15, 16] s (dlySampleWith c l r s) := by
  have hdom : (dlySampleWork c (startWork s) l r).dom = false := by
    simp [dlySampleWork_dom, dlyOk_of_not_finite hin]
  rw [dlySampleWith, onPrepared, if_pos hprep, if_pos hslots]
  exact freesOutputs_complete (ps := (dlyPlaces l r s).take 8)
    (dlySampleWork_moves c (startWork s) l r) hdom hlr (by simp) (by simp)

theorem satSample_freesOutputs (hlr : l ≠ r)
    (hin : isFinite (readX s l) = false ∨ isFinite (readX s r) = false)
    (hprep : prepared .sat s = true) :
    FreesOutputs l r (satPlaces l r s) [] s (satSampleWith c l r s) := by
  have hdom : (satSampleWork c (startWork s) l r).dom = false := by
    simp [satSampleWork_dom, satOk_of_not_finite hin]
  rw [satSampleWith, onPrepared, if_pos hprep]
  exact freesOutputs_complete (satSampleWork_moves c (startWork s) l r) hdom hlr (by simp) (by simp)

theorem revSample_freesOutputs (hlr : l ≠ r)
    (hin : isFinite (readX s l) = false ∨ isFinite (readX s r) = false)
    (hprep : prepared .rev s = true) (hslots : engineHasSlots .rev s = true) :
    FreesOutputs l r (revPlaces l r s) (revUnits s) s (revSampleWith c l r s) := by
  have hdom : (revSampleWork c (startWork s) l r).dom = false := by
    simp [revSampleWork_dom, revOk_of_not_finite hin]
  rw [revSampleWith, onPrepared, if_pos hprep, if_pos hslots]
  exact freesOutputs_complete (revSampleWork_moves c (startWork s) l r) hdom hlr (by simp) (by simp)

end Engines

/-- Settles O58: `exec` of each sample command is its engine under `Config.cfg` by definition. -/
theorem nonFiniteInputIsFree : Obligations.NonFiniteInputIsFree :=
  fun _ _ _ hlr hin => ⟨dlySample_freesOutputs hlr hin, satSample_freesOutputs hlr hin,
    revSample_freesOutputs hlr hin⟩

end Sys2Proof.Machine
end

/-! Settles O1 to O4 (the encoding), O8 and O9 (which command a step runs) and O15 (no word ends in a stop of the
model). Decoder and encoder are inverse to each other (`decode_eq_ok_iff`), an opcode fixes its format, and every
command has a next state once the prepared engines' units have slots. -/

namespace Sys2Proof

/-! ## The decoder and the encoder are inverse (30_encoding.md R91 to R97) -/

/-- A word decodes to a command exactly if it is the word of that command and the command is well formed. -/
theorem decode_eq_ok_iff {w : Command} {i : Instr} :
    decode w = .ok i ↔ encode i = w ∧ i.wellFormed = true := by
  constructor
  · intro h
    obtain ⟨hfields, hwf⟩ := encodeFields_of_decodeFields _ _ h
    exact ⟨by rw [encode, hfields, joinWord_splitWord], hwf⟩
  · rintro ⟨rfl, hwf⟩
    exact decode_encode hwf

/-- Settles O1: the command is read back from its fields, constructor by constructor (`decode_encode`). -/
theorem decodeEncode : Obligations.DecodeEncode := fun _ => decode_encode

/-- Settles O2: the other direction of `decode_eq_ok_iff`. -/
theorem encodeDecode : Obligations.EncodeDecode := fun _ _ => decode_eq_ok_iff.mp

/-- Settles O4: nine words are those of their commands field by field; of the two that are refused, one has a
register where `NOP` has none, the other names `x0` for both channels. -/
theorem decodeWords : Obligations.DecodeWords := by
  have reads {w : Command} {i : Instr} (hword : encode i = w) (hwf : i.wellFormed = true) :
      decode w = .ok i := decode_eq_ok_iff.mpr ⟨hword, hwf⟩
  exact ⟨reads (by decide) rfl, reads (by decide) rfl, reads (by decide) rfl, reads (by decide) rfl,
    reads (by decide) rfl, reads (by decide) rfl, reads (by decide) rfl, reads (by decide) rfl,
    reads (by decide) rfl, by decide, by decide⟩

/-! ## An opcode fixes its format (30_encoding.md R96) -/

/-- The format of each opcode of the map; an opcode outside the map is no command's. -/
def opFormat (op : BitVec 8) : Format :=
  match op.toNat with
  | 0x01 => .di
  | 0x02 => .s
  | 0x03 | 0x34 | 0x36 | 0x40 | 0x41 | 0x50 | 0x51 | 0x65 | 0x70 | 0x71 => .ds
  | 0x05 | 0x07 | 0x18 | 0x19 | 0x30 => .c
  | 0x04 | 0x06 | 0x10 | 0x11 => .ci
  | 0x12 => .us
  | 0x13 => .udi
  | 0x14 | 0x15 | 0x16 | 0x17 | 0x38 | 0x39 | 0x3A => .uds
  | 0x20 | 0x31 | 0x32 | 0x33 => .udss
  | 0x35 | 0x60 | 0x61 | 0x62 | 0x63 | 0x64 => .dsss
  | 0x52 | 0x66 | 0x72 => .lr
  | _ => .z

theorem format_eq_opFormat (i : Instr) : i.format = opFormat (encodeFields i).op := by
  cases i <;> rfl

/-- Two commands with one opcode have one mask and one match (30_encoding.md R93). -/
theorem mask_match_congr {i j : Instr} (h : (encodeFields i).op = (encodeFields j).op) :
    i.format.mask = j.format.mask ∧ i.opMatch = j.opMatch := by
  rw [format_eq_opFormat, format_eq_opFormat j, Instr.opMatch, Instr.opMatch, h]
  exact ⟨rfl, rfl⟩

/-! ## Words that are legal, and words that are not (30_encoding.md R93) -/

/-- A word that decodes is its opcode under the mask of its format. -/
theorem mask_of_decode {w : Command} {i : Instr} (h : decode w = .ok i) :
    w &&& i.format.mask = i.opMatch := by
  obtain ⟨rfl, -⟩ := decode_eq_ok_iff.mp h
  exact encode_mask i

/-- The fields of a word that decodes are those of its command. -/
theorem splitWord_of_decode {w : Command} {i : Instr} (h : decode w = .ok i) :
    splitWord w = encodeFields i := by
  obtain ⟨rfl, -⟩ := decode_eq_ok_iff.mp h
  exact splitWord_joinWord _

/-- A word with a command's opcode and a nonzero unused field is no command: it would have the same mask and
match. -/
theorem decode_ne_ok_of_mask {w : Command} {i : Instr} (hop : (splitWord w).op = (encodeFields i).op)
    (hmask : w &&& i.format.mask ≠ i.opMatch) (j : Instr) : decode w ≠ .ok j := by
  intro hj
  rw [splitWord_of_decode hj] at hop
  obtain ⟨hm, ho⟩ := mask_match_congr hop
  exact hmask (hm ▸ ho ▸ mask_of_decode hj)

/-- A well-formed LR command names two registers. -/
theorem rd_ne_rs1_of_lr {i : Instr} (hlr : i.format = .lr) (hwf : i.wellFormed = true) :
    (encodeFields i).rd ≠ (encodeFields i).rs1 := by
  cases i with
  | dlySample l r | satSample l r | revSample l r => exact regField_ne (of_decide_eq_true hwf)
  | _ => cases hlr

/-- A word with an LR opcode that names one register twice is no command. -/
theorem decode_ne_ok_of_sameRegister {w : Command} (hop : (splitWord w).op ∈ [0x52, 0x66, 0x72])
    (hreg : (splitWord w).rd = (splitWord w).rs1) (i : Instr) : decode w ≠ .ok i := by
  intro hi
  obtain ⟨-, hwf⟩ := decode_eq_ok_iff.mp hi
  rw [splitWord_of_decode hi] at hop hreg
  have hlr : ∀ op ∈ [(0x52 : BitVec 8), 0x66, 0x72], opFormat op = .lr := by decide
  exact rd_ne_rs1_of_lr ((format_eq_opFormat i).trans (hlr _ hop)) hwf hreg

end Sys2Proof

namespace Sys2Proof.Machine

/-! ## What a presented word does to a running block (30_encoding.md R97) -/

section Running
variable {w : Command} {s : State}

theorem runCommand_of_ok {i : Instr} (hrun : halted s = false) (h : decode w = .ok i) :
    runCommand w s = exec i s := by
  simp [runCommand, hrun, h]

theorem runCommand_of_error {e : DecodeError} (hrun : halted s = false) (h : decode w = .error e) :
    runCommand w s = .next (raised .illegalCommand w s) := by
  simp [runCommand, hrun, h]

/-- A word that stands for no command raises `IllegalCommand`. -/
theorem runCommand_of_ne_ok (hrun : halted s = false) (h : ∀ i, decode w ≠ .ok i) :
    runCommand w s = .next (raised .illegalCommand w s) := by
  cases hd : decode w with
  | ok i => exact absurd hd (h i)
  | error e => exact runCommand_of_error hrun hd

/-- A step presents the first word of the list to the state without it (log 1). -/
theorem step_of_command {rest : List HostEvent} (h : s.inbox = .command w :: rest) :
    step s = runCommand w { s with inbox := rest } := by
  simp [step, nextEvent, h]

end Running

/-- Settles O3: the mask and match of a word that decodes, and the two kinds of words that do not. -/
theorem unusedFieldsZero : Obligations.UnusedFieldsZero :=
  ⟨fun _ _ => mask_of_decode,
    fun _ _ _ hrun hop hmask => runCommand_of_ne_ok hrun (decode_ne_ok_of_mask hop hmask),
    fun _ _ hrun hop hreg => runCommand_of_ne_ok hrun (decode_ne_ok_of_sameRegister hop hreg)⟩

/-- Settles O8. `HALT` is no part of the list of events, so the block runs on without the word too. -/
theorem stepRunsDecoded : Obligations.StepRunsDecoded := fun _ _ _ _ hinbox hrun hdec =>
  (step_of_command hinbox).trans (runCommand_of_ok hrun hdec)

/-- Settles O9, as O8. -/
theorem stepRejectsIllegal : Obligations.StepRejectsIllegal := fun _ _ _ _ hinbox hrun hdec =>
  (step_of_command hinbox).trans (runCommand_of_error hrun hdec)

/-! ## Every command has a next state (40_ring_buffer.md R130; log 15) -/

/-- The result is a next state: no stop of the model. -/
def Completes (r : Result) : Prop := ∃ t, r = .next t

section Completes
variable {i : Instr} {s : State} {r : Result}

theorem completes_next (t : State) : Completes (.next t) := ⟨t, rfl⟩

theorem completes_raise (k : FaultCode) : Completes (raiseFault k i s) := completes_next _

/-- A command in flight always comes to its end. -/
theorem completes_complete (w : Work) : Completes (complete w) := completes_next _

theorem completes_ite {p : Prop} [Decidable p] {a b : Result} (ha : Completes a) (hb : Completes b) :
    Completes (if p then a else b) := by
  split
  · exact ha
  · exact hb

/-- An uninitialised unit ends in a fault entry (40_ring_buffer.md R130). -/
theorem completes_onRing {u : RbUnit} (hr : Completes r) : Completes (onRing u i s r) :=
  completes_ite (completes_raise _) hr

/-- An engine that is not prepared ends in a fault entry (60_exceptions.md R343). -/
theorem completes_onPrepared {e : Engine} (hr : Completes r) : Completes (onPrepared e i s r) :=
  completes_ite hr (completes_raise _)

/-- An engine command meets the model's stop only if its engine is prepared and a unit of it has no slots. -/
theorem completes_engine {e : Engine} (hslots : prepared e s = true → engineHasSlots e s = true)
    (hr : Completes r) :
    Completes (onPrepared e i s (if engineHasSlots e s then r else .fault .noSlot)) := by
  unfold onPrepared
  split
  · next hprep => rwa [if_pos (hslots hprep)]
  · exact completes_raise _

end Completes

/-- Every command has a next state from every state in which the units of each prepared engine have slots. -/
theorem exec_completes (i : Instr) {s : State}
    (hslots : ∀ e, prepared e s = true → engineHasSlots e s = true) : Completes (exec i s) := by
  cases i with
  | nop | ldv | rdv | mov | csrr | rbCap | rbCur | fClr => exact completes_next _
  | fLp | fHp | fDcb | slim | clamp | shimWin | dlyTime | dlyRatio | satTape | satTube | satClip
  | satFold | satXf | satOutg | revDecay | revDamp => exact completes_complete _
  | csrw n v =>
    show Completes (execCsrw n v s)
    unfold execCsrw
    split
    · exact completes_next _
    · exact completes_raise _
  | prepare e m =>
    exact completes_ite (completes_raise _) (completes_ite (completes_raise _)
      (completes_ite (completes_raise _) (completes_next _)))
  | rbInit u cap =>
    exact completes_ite (completes_raise _) (completes_ite (completes_raise _) (completes_next _))
  | rbInit2 u cap =>
    exact completes_ite (completes_raise _) (completes_ite (completes_raise _)
      (completes_ite (completes_raise _) (completes_next _)))
  | rbPush | rbRdn => exact completes_onRing (completes_next _)
  | rbRdi | rbRdl | rbRdc | rbRdp | apProc => exact completes_onRing (completes_complete _)
  | fCoef => exact completes_ite (completes_complete _) (completes_raise _)
  | block | tiltRev | tiltDly | tiltSat | satSample =>
    exact completes_onPrepared (completes_complete _)
  | shimStep | revSample => exact completes_engine (hslots .rev) (completes_complete _)
  | dlySample => exact completes_engine (hslots .dly) (completes_complete _)

/-- A presented word is ignored, illegal, or a command. -/
theorem runCommand_completes (w : Command) {s : State}
    (hslots : ∀ e, prepared e s = true → engineHasSlots e s = true) : Completes (runCommand w s) := by
  cases hrun : halted s with
  | true => exact ⟨haltedCommand w s, by simp [runCommand, hrun]⟩
  | false =>
    cases hd : decode w with
    | ok i => exact runCommand_of_ok hrun hd ▸ exec_completes i hslots
    | error e => exact ⟨_, runCommand_of_error hrun hd⟩

/-- Settles O15: with nothing from the host, or with a reset, the next state is at hand; a word completes
because the invariant gives every prepared engine slots. -/
theorem everyWordCompletes : Obligations.EveryWordCompletes := by
  intro s h
  cases hin : s.inbox with
  | nil => exact ⟨s, by simp [step, nextEvent, hin]⟩
  | cons ev rest =>
    cases ev with
    | reset => exact ⟨hardwareReset { s with inbox := rest }, by simp [step, nextEvent, hin]⟩
    | command w =>
      obtain ⟨t, ht⟩ := runCommand_completes w (h.of_inbox rest).slots
      exact ⟨t, (step_of_command hin).trans ht⟩

end Sys2Proof.Machine

/-! Settles the statements about ring buffers: O22, O32 to O36, O38 and O39. Each command on a unit is first read
as an equation (a fault entry without slots, one named next state with them); the round trip of a push and a read
is then arithmetic on slot numbers. -/

namespace Sys2Proof.Machine

/-! ## Capacities once set (40_ring_buffer.md R134) -/

theorem SameCaps.slots {s t : State} (h : SameCaps s t) {u : RbUnit} (hu : (ring s u).cap ≠ 0) :
    (ring t u).cap ≠ 0 := by
  rwa [h u]

/-- A unit whose size `PREPARE` sets gets slots, every other unit keeps its own (47_system.md R316). -/
theorem prepareEffects_slots {c : Config.Cfg} {e : Engine} {m : Word32} {s : State} (hsizes : SizesOk c e s)
    {u : RbUnit} (hu : (ring s u).cap ≠ 0) : (ring (prepareEffects c e m s) u).cap ≠ 0 := by
  obtain ⟨n, hpos, -, hr⟩ | hr := prepareEffects_ring_cases (m := m) hsizes u <;> rw [hr]
  · exact Nat.one_le_iff_ne_zero.mp hpos
  · exact hu

/-- A fresh unit of a legal capacity has slots, every other unit keeps its own (40_ring_buffer.md R121). -/
theorem setRing_freshRing_slots {s : State} {a u : RbUnit} {n : Nat} (hpos : 1 ≤ n)
    (hu : (ring s u).cap ≠ 0) : (ring (setRing s a (freshRing n)) u).cap ≠ 0 := by
  rw [ring_setRing]
  split
  · exact Nat.one_le_iff_ne_zero.mp hpos
  · exact hu

/-- Settles O22: of the six outcomes of a command only `PREPARE` and the two initialisations set a capacity, and
each sets a capacity it has found to be at least 1. -/
theorem capacityNeverReturnsToZero : Obligations.CapacityNeverReturnsToZero := by
  intro i s t u hexec hu
  rcases exec_cases hexec with ⟨k, rfl⟩ | hquiet | ⟨n, v, t', -, hw, rfl⟩ |
    ⟨e, m, -, -, hsizes, rfl⟩ | ⟨e, -, rfl⟩ | ⟨a, cap, -, hpos, -, rfl⟩
  · exact hu
  · exact SameCaps.slots hquiet.cap hu
  · obtain ⟨-, -, hcap⟩ := writeCsr_same hw 0
    exact hcap.slots hu
  · exact prepareEffects_slots hsizes hu
  · obtain ⟨-, -, hcap⟩ := latch_same Config.cfg e s 0
    exact hcap.slots hu
  · exact setRing_freshRing_slots hpos hu

/-! ## Initialisation (40_ring_buffer.md R121, R122; 60_exceptions.md R347, R349) -/

theorem isPow2_iff {n : Nat} : isPow2 n = true ↔ ∃ k, n = 2 ^ k := by
  constructor
  · exact exists_of_isPow2
  · rintro ⟨k, rfl⟩
    simp [isPow2, Nat.log2_two_pow]

section Init
variable {z : Config.Sizes} {u : RbUnit} {cap : Word32} {s : State}

theorem rbInitWith_of_zero (h : cap.toNat = 0) :
    rbInitWith z u cap s = .next (raised .capZero (encode (.rbInit u cap)) s) :=
  if_pos h

theorem rbInitWith_of_above (h : z.rbCapMax < cap.toNat) :
    rbInitWith z u cap s = .next (raised .capRange (encode (.rbInit u cap)) s) := by
  rw [rbInitWith, if_neg (by omega), if_pos h]
  rfl

theorem rbInitWith_of_legal (hpos : 1 ≤ cap.toNat) (hmax : cap.toNat ≤ z.rbCapMax) :
    rbInitWith z u cap s = .next (respond (setRing s u (freshRing cap.toNat)) 0) := by
  rw [rbInitWith, if_neg (by omega), if_neg (by omega)]

theorem rbInit2With_of_zero (h : cap.toNat = 0) :
    rbInit2With z u cap s = .next (raised .capZero (encode (.rbInit2 u cap)) s) :=
  if_pos h

theorem rbInit2With_of_above (h : z.rbCapMax < cap.toNat) :
    rbInit2With z u cap s = .next (raised .capRange (encode (.rbInit2 u cap)) s) := by
  rw [rbInit2With, if_neg (by omega), if_pos h]
  rfl

/-- In the legal range `RB.INIT2` is `RB.INIT` with the check for a power of two. -/
theorem rbInit2With_of_inRange (hpos : 1 ≤ cap.toNat) (hmax : cap.toNat ≤ z.rbCapMax) :
    rbInit2With z u cap s = if isPow2 cap.toNat then .next (respond (setRing s u (freshRing cap.toNat)) 0)
      else .next (raised .capNotPow2 (encode (.rbInit2 u cap)) s) := by
  rw [rbInit2With, if_neg (by omega), if_neg (by omega)]
  cases isPow2 cap.toNat <;> rfl

theorem rbInit2With_of_pow2 (hpos : 1 ≤ cap.toNat) (hmax : cap.toNat ≤ z.rbCapMax)
    (hpow : ∃ k, cap.toNat = 2 ^ k) :
    rbInit2With z u cap s = .next (respond (setRing s u (freshRing cap.toNat)) 0) := by
  rw [rbInit2With_of_inRange hpos hmax, if_pos (isPow2_iff.mpr hpow)]

theorem rbInit2With_of_notPow2 (hpos : 1 ≤ cap.toNat) (hmax : cap.toNat ≤ z.rbCapMax)
    (hpow : ∀ k, cap.toNat ≠ 2 ^ k) :
    rbInit2With z u cap s = .next (raised .capNotPow2 (encode (.rbInit2 u cap)) s) := by
  have hnot : ¬ isPow2 cap.toNat = true := fun h => let ⟨k, hk⟩ := isPow2_iff.mp h; hpow k hk
  rw [rbInit2With_of_inRange hpos hmax, if_neg hnot]

end Init

/-- Settles O32: `exec` of the two commands is `rbInitWith` and `rbInit2With` at the default sizes by definition,
and each range of capacities has its lemma. -/
theorem ringInit : Obligations.RingInit := fun _ cap _ =>
  ⟨fun h => ⟨rbInitWith_of_zero h, rbInit2With_of_zero h⟩,
    fun h => ⟨rbInitWith_of_above h, rbInit2With_of_above h⟩,
    fun hpos hmax => ⟨rbInitWith_of_legal hpos hmax, rbInit2With_of_pow2 hpos hmax,
      rbInit2With_of_notPow2 hpos hmax⟩,
    memRead_fresh cap.toNat⟩

/-! ## Slot commands with and without slots (40_ring_buffer.md R123, R124, R130) -/

section Slots
variable {u : RbUnit} {s : State}

theorem onRing_of_slots {i : Instr} {run : Result} (h : (ring s u).cap ≠ 0) : onRing u i s run = run :=
  if_neg h

theorem onRing_of_uninit {i : Instr} {run : Result} (h : (ring s u).cap = 0) :
    onRing u i s run = .next (raised .rbUninit (encode i) s) :=
  if_pos h

theorem exec_rbPush (r : Reg) (h : (ring s u).cap ≠ 0) :
    exec (.rbPush u r) s = .next (respond (setRing s u (pushRing (ring s u) (readX s r))) 0) :=
  onRing_of_slots h

theorem exec_rbRdn (d : Reg) (k : Word32) (h : (ring s u).cap ≠ 0) :
    exec (.rbRdn d u k) s =
      .next (respond (writeX s d (memRead (ring s u) (slotOf (ring s u) (clampedCount (ring s u) k)))) 0) :=
  onRing_of_slots h

end Slots

/-- Settles O38: each of the seven commands is guarded by `onRing`. -/
theorem uninitialisedUnitFaults : Obligations.UninitialisedUnitFaults := by
  intro u s hcap d r g k i hi
  simp only [List.mem_cons, List.not_mem_nil, or_false] at hi
  rcases hi with rfl | rfl | rfl | rfl | rfl | rfl | rfl <;> exact onRing_of_uninit hcap

/-- Settles O35: `clampedCount` is the minimum of the statement by definition. -/
theorem rdnCopiesSlot : Obligations.RdnCopiesSlot := fun d _ k _ hcap => exec_rbRdn d k hcap

/-- Settles O33. The invariant keeps the cursor below the capacity, so that the write is not dropped. -/
theorem pushWritesAtCursor : Obligations.PushWritesAtCursor := by
  intro u r s hcap
  refine ⟨_, exec_rbPush r hcap, rfl, rfl, (pushRing_frame s u (readX s r)).trans (respond_frame _ 0), ?_, ?_⟩
  · rw [ring_respond, ring_setRing_same, pushRing_wr, nextWr]
  · intro h
    obtain ⟨hwr, hwf⟩ := placeOk_cursor h.memory hcap
    rw [ring_respond, ring_setRing_same]
    exact memRead_push_same _ _ hwr hwf

/-! ## The age of a sample (40_ring_buffer.md R120, R133; 20_memory.md R70) -/

section Age
variable {b : RingUnit}

/-- After a push the slot at delay `k` is the one that was at delay `k - 1`: every sample is one step older. -/
theorem slotOf_pushRing (v : F32) (k : Int) : slotOf (pushRing b v) k = slotOf b (k - 1) := by
  have hresidue : (((b.wr : Int) + 1) % b.cap - 1 - k) % b.cap = ((b.wr : Int) - 1 - (k - 1)) % b.cap := by
    rw [Int.sub_sub, Int.emod_sub_emod]
    congr 1
    omega
  simp only [slotOf, pushRing_wr, pushRing_cap, nextWr]
  push_cast
  rw [hresidue]

/-- The slot at the cursor is one step newer than the newest sample. -/
theorem slotOf_neg_one (h : b.wr < b.cap) : slotOf b (-1) = b.wr := by
  have hshift : (b.wr : Int) - 1 - -1 = b.wr := by omega
  rw [slotOf, hshift, Int.emod_eq_of_lt (by omega) (by omega), Int.toNat_natCast]

/-- The newest `cap - 1` samples do not lie in the slot that the next push overwrites. -/
theorem slotOf_ne_wr {k : Nat} (h : k + 1 < b.cap) : slotOf b k ≠ b.wr := by
  intro heq
  have hnonneg := Int.emod_nonneg ((b.wr : Int) - 1 - k) (b := b.cap) (by omega)
  have hresidue : ((b.wr : Int) - 1 - k) % b.cap = b.wr := by
    rw [slotOf] at heq
    omega
  have hdvd : (b.cap : Int) ∣ (k : Int) + 1 := by
    have h' := Int.dvd_self_sub_of_emod_eq hresidue
    rw [show (b.wr : Int) - 1 - k - b.wr = -((k : Int) + 1) by omega] at h'
    exact Int.dvd_neg.mp h'
  have hle := Int.le_of_dvd (by omega) hdvd
  omega

/-- The newest sample of a unit is the one pushed last, bit for bit. -/
theorem memRead_pushRing_newest (v : F32) (hwr : b.wr < b.cap) (hwf : ringWf b = true) :
    memRead (pushRing b v) (slotOf (pushRing b v) 0) = v := by
  rw [slotOf_pushRing, zero_sub, slotOf_neg_one hwr]
  exact memRead_push_same b v hwr hwf

/-- Every older sample the unit still holds is the one that was one step newer. -/
theorem memRead_pushRing_older (v : F32) {k : Nat} (h : k + 1 < b.cap) :
    memRead (pushRing b v) (slotOf (pushRing b v) (k + 1 : Nat)) = memRead b (slotOf b k) := by
  have hslot : slotOf (pushRing b v) (k + 1 : Nat) = slotOf b k := by
    rw [slotOf_pushRing, Nat.cast_succ, add_sub_cancel_right]
  rw [hslot]
  exact memRead_push_ne b v (slotOf_ne_wr h)

end Age

/-- Settles O34: the pushed value is at delay 0, and every other slot keeps its sample under a delay one greater. -/
theorem pushReadRoundTrip : Obligations.PushReadRoundTrip := by
  intro u r d s t h hcap hexec
  rw [exec_rbPush r hcap] at hexec
  cases hexec
  rw [ring_respond, ring_setRing_same]
  refine ⟨?_, fun k hk => memRead_pushRing_older _ hk⟩
  obtain ⟨hwr, hwf⟩ := placeOk_cursor h.memory hcap
  refine ⟨_, exec_rbRdn d 0 (by simpa using hcap), ?_⟩
  have hcount : clampedCount (pushRing (ring s u) (readX s r)) 0 = 0 := Nat.zero_min _
  rw [ring_respond, ring_setRing_same, hcount, readX_respond, readX_writeX_same]
  exact memRead_pushRing_newest _ hwr hwf

/-! ## Interpolated reads (40_ring_buffer.md R126 to R129) -/

/-- A read of a command in flight answers `value` of the unit, uses the samples at `slots` of it, and writes
nothing. -/
structure ReadsUnit (read : Work → RbUnit → F32 → F32 × Work) (value : RingUnit → F32 → F32)
    (slots : RingUnit → F32 → List Nat) : Prop where
  value : ∀ w u d, (read w u d).1 = value (ring w.st u) d
  st    : ∀ w u d, (read w u d).2.st = w.st
  wrote : ∀ w u d, (read w u d).2.wrote = w.wrote
  dom   : ∀ w u d, (read w u d).2.dom = (w.dom && slotsOk (ring w.st u) (slots (ring w.st u) d))

theorem rdiWork_reads : ReadsUnit rdiWork rdiValue rdiSlots :=
  ⟨rdiWork_fst, rdiWork_st, rdiWork_wrote, rdiWork_dom⟩

theorem rdlWork_reads : ReadsUnit rdlWork rdlValue rdlSlots :=
  ⟨rdlWork_fst, rdlWork_st, rdlWork_wrote, rdlWork_dom⟩

theorem rdcWork_reads : ReadsUnit rdcWork rdcValue rdcSlots :=
  ⟨rdcWork_fst, rdcWork_st, rdcWork_wrote, rdcWork_dom⟩

theorem rdpWork_reads : ReadsUnit rdpWork rdpValue rdpSlots :=
  ⟨rdpWork_fst, rdpWork_st, rdpWork_wrote, rdpWork_dom⟩

/-- A command that wrote one register and nothing else lands the value there. -/
theorem complete_writeX {w : Work} {s : State} (hst : w.st = s) (hwrote : w.wrote = []) (d : Reg) (v : F32) :
    complete (writePlace w (.x d) v) = landed w.dom [(.x d, v)] s :=
  complete_eq_landed _ _ s (by rw [writePlace_st, hst]; rfl) (by rw [writePlace_wrote, hwrote]; rfl)
    (by simp) (by simp [placeOk])

/-- The read command of such a read lands the value in its register; it has used the delay and the samples
(20_memory.md R76). -/
theorem ReadsUnit.readOp_eq {read : Work → RbUnit → F32 → F32 × Work} {value : RingUnit → F32 → F32}
    {slots : RingUnit → F32 → List Nat} (h : ReadsUnit read value slots) (d : Reg) (u : RbUnit) (r : Reg)
    (s : State) : readOp read d u r s =
      landed (readOk (ring s u) (readX s r) (slots (ring s u) (readX s r)))
        [(.x d, value (ring s u) (readX s r))] s := by
  let seen := seeValue (startWork s) (readX s r)
  have hvalue : (read seen u (readX s r)).1 = value (ring s u) (readX s r) := h.value seen u _
  have hdom : (read seen u (readX s r)).2.dom =
      readOk (ring s u) (readX s r) (slots (ring s u) (readX s r)) := h.dom seen u _
  rw [← hdom, ← hvalue]
  exact complete_writeX (h.st seen u _) (h.wrote seen u _) d _

/-- Settles O36: with slots each command is the read command of its read. -/
theorem interpolatedReads : Obligations.InterpolatedReads := fun d u r s hcap =>
  ⟨(onRing_of_slots hcap).trans (rdiWork_reads.readOp_eq d u r s),
    (onRing_of_slots hcap).trans (rdlWork_reads.readOp_eq d u r s),
    (onRing_of_slots hcap).trans (rdcWork_reads.readOp_eq d u r s),
    (onRing_of_slots hcap).trans (rdpWork_reads.readOp_eq d u r s)⟩

/-! ## Capacity and cursor (40_ring_buffer.md R131, R132) -/

/-- The capacity and the cursor of a unit within its bounds fit in a response (10_state.md R29). -/
theorem cap_wr_lt_of_ringWf {b : RingUnit} (h : ringWf b = true) : b.cap < 2 ^ 32 ∧ b.wr < 2 ^ 32 := by
  simp only [ringWf, Bool.and_eq_true, decide_eq_true_eq] at h
  obtain ⟨⟨hcap, hwr⟩, -⟩ := h
  have hcap : b.cap ≤ 2 ^ 20 := hcap
  omega

/-- Settles O39: the responses are exact because both numbers are below 2^32. -/
theorem capacityAndCursorResponses : Obligations.CapacityAndCursorResponses := by
  refine ⟨⟨by decide, by decide⟩, fun _ => ⟨⟨rfl, rfl⟩, rfl, rfl⟩, fun u s h => ?_⟩
  obtain ⟨hcap, hwr⟩ := cap_wr_lt_of_ringWf ((wf_iff s).mp h.memory u)
  have exact_word {n : Nat} (hn : n < 2 ^ 32) : (BitVec.ofNat 32 n).toNat = n := by
    rw [BitVec.toNat_ofNat, Nat.mod_eq_of_lt hn]
  exact ⟨_, _, rfl, exact_word hcap, rfl, exact_word hwr⟩

end Sys2Proof.Machine

/-! Settles O40 (the allpass step). The model writes the sum and advances the cursor in one push; the statement
lands the sum in the unit whose cursor has advanced already. The two agree because a write to a slot does not
depend on the cursor. -/

namespace Sys2Proof.Machine

section Allpass
variable {u : RbUnit} {s : State} {v : F32}

/-- The two parts of a push in the other order: the cursor advances, then the slot at the old cursor is written
(40_ring_buffer.md R123). -/
theorem setRing_pushRing :
    setRing s u (pushRing (ring s u) v) = putPlace (advanced [u] s) (.slot u (ring s u).wr) v := by
  rw [← advance_putPlace]
  simp [advanced, putPlace, setRing_setRing, pushRing, nextWr]

/-- The slot at the old cursor can still be written once the cursor has advanced. -/
theorem placeOk_advanced_cursor (h : Memory.wf s = true) (hu : (ring s u).cap ≠ 0) :
    placeOk (advanced [u] s) (.slot u (ring s u).wr) := by
  obtain ⟨hwr, -⟩ := placeOk_cursor h hu
  have hwf : Memory.wf (advanced [u] s) = true := advanced_wf [u] s (by simpa using hu) h
  exact ⟨by rwa [advanced_cap], (wf_iff _).mp hwf u⟩

/-- A command whose one push stored `v` in `u` and which then wrote a register lands both values over the state
with the cursor advanced. -/
theorem complete_push_writeX {w : Work} (hst : w.st = setRing s u (pushRing (ring s u) v))
    (hwrote : w.wrote = [.slot u (ring s u).wr]) (h : Memory.wf s = true) (hu : (ring s u).cap ≠ 0)
    (d : Reg) (out : F32) :
    complete (writePlace w (.x d) out) =
      landed w.dom [(.slot u (ring s u).wr, v), (.x d, out)] (advanced [u] s) := by
  refine complete_eq_landed _ _ _ ?_ ?_ ?_ ?_
  · rw [writePlace_st, hst, setRing_pushRing]
    rfl
  · rw [writePlace_wrote, hwrote]
    rfl
  · simp [Place.key]
  · simpa [placeOk] using placeOk_advanced_cursor h hu

end Allpass

/-- Settles O40: after its two operand reads the command is one `apWork`, which pushes the sum, and a register
write of what that answers. -/
theorem allpassStep : Obligations.AllpassStep := by
  intro d u r g s h hcap
  let seen := seeValue (seeValue (startWork s) (readX s r)) (readX s g)
  exact (onRing_of_slots hcap).trans (complete_push_writeX (apWork_st seen u _ _)
    (apWork_wrote seen u _ _) h.memory hcap d (apOut (ring s u) (readX s r) (readX s g)))

end Sys2Proof.Machine

/-! Settles the statements about filters and the stateless functions: O41 to O47 and O49. A filter step writes the
two fields of its unit and the command then writes a register, so that each filter and tilt command is one use of
`complete_eq_landed`; the commands on registers alone are `unaryOp_eq` and `ternaryOp_eq`. -/

namespace Sys2Proof.Machine

open Config (Cfg)

/-! ## Negation of a binary32 value (00_scope.md R9) -/

theorem fneg_fneg (v : F32) : fneg (fneg v) = v := by
  simp [fneg]

theorem magnitude_fneg (v : F32) : magnitude (fneg v) = magnitude v := by
  apply BitVec.eq_of_toNat_eq
  rw [magnitude_toNat, magnitude_toNat, fneg, BitVec.toNat_xor, Nat.xor_mod_two_pow]
  exact Nat.xor_zero _

theorem isNaN_fneg (v : F32) : isNaN (fneg v) = isNaN v := by
  rw [← isNaN_magnitude, magnitude_fneg, isNaN_magnitude]

theorem fabs_fneg (v : F32) : fabs (fneg v) = fabs v := by
  rw [fabs, magnitude_fneg, fabs]

theorem signBit_cases (v : F32) : v.toNat / 2 ^ 31 = 0 ∨ v.toNat / 2 ^ 31 = 1 := by
  have := v.isLt
  omega

theorem signBit_fneg (v : F32) : (fneg v).toNat / 2 ^ 31 = 1 - v.toNat / 2 ^ 31 := by
  rw [fneg, BitVec.toNat_xor, Nat.xor_div_two_pow]
  rcases signBit_cases v with h | h <;> rw [h] <;> rfl

/-- Negation mirrors the number line. -/
theorem orderKey_fneg (v : F32) : orderKey (fneg v) = -orderKey v := by
  have hmag : (fneg v).toNat % 2 ^ 31 = v.toNat % 2 ^ 31 := by
    rw [← magnitude_toNat, magnitude_fneg, magnitude_toNat]
  simp only [orderKey, hmag, signBit_fneg]
  rcases signBit_cases v with h | h <;> simp only [h] <;> simp

/-- Of a number other than zero and its negation exactly one is above zero. -/
theorem flt_zero_fneg {v : F32} (hv : isNaN v = false) (hne : orderKey v ≠ 0) :
    flt 0 (fneg v) = !flt 0 v := by
  have above_zero {u : F32} (hu : isNaN u = false) : flt 0 u = decide (0 < orderKey u) := by
    rw [flt, hu]
    rfl
  rw [above_zero hv, above_zero ((isNaN_fneg v).trans hv), orderKey_fneg, ← decide_not]
  exact decide_eq_decide.mpr (by omega)

/-! ## The soft limiter (42_filters.md R166) -/

/-- What the limiter makes of a magnitude above 0.95: `T + over ÷ (1 + 10 × over)`. -/
def compressed (a : F32) : F32 :=
  fadd 0x3F733333 (fdiv (fsub a 0x3F733333) (fadd one (fmul 0x41200000 (fsub a 0x3F733333))))

theorem softLimit_of_within {v : F32} (h : fle (fabs v) 0x3F733333 = true) : softLimit v = v :=
  if_pos h

theorem softLimit_of_above {v : F32} (h : fle (fabs v) 0x3F733333 = false) :
    softLimit v = if flt 0 v then compressed (fabs v) else fneg (compressed (fabs v)) :=
  if_neg (Bool.eq_false_iff.mp h)

/-- A number above 0.95 in magnitude is no zero, whether or not small magnitudes are flushed. -/
theorem orderKey_ne_zero_of_above {v : F32} (hv : isNaN v = false)
    (h : fle (fabs v) 0x3F733333 = false) : orderKey v ≠ 0 := by
  intro hzero
  have hmag : orderKey (magnitude v) ≤ orderKey 0x3F733333 := by
    rw [orderKey_magnitude, hzero]
    decide
  have hle : fle (fabs v) 0x3F733333 = true :=
    fle_iff.mpr ⟨by rw [fabs, isNaN_flushed, isNaN_magnitude, hv], by decide,
      (orderKey_flushed (by decide)).2 hmag⟩
  rw [h] at hle
  cases hle

theorem softLimit_fneg {v : F32} (hv : isNaN v = false) : softLimit (fneg v) = fneg (softLimit v) := by
  cases h : fle (fabs v) 0x3F733333 with
  | true => rw [softLimit_of_within h, softLimit_of_within (by rw [fabs_fneg, h])]
  | false =>
    rw [softLimit_of_above h, softLimit_of_above (by rw [fabs_fneg, h]), fabs_fneg,
      flt_zero_fneg hv (orderKey_ne_zero_of_above hv h)]
    cases flt 0 v with
    | true => rfl
    | false => exact (fneg_fneg _).symm

/-- Settles O49: up to 0.95 the first branch is the identity; above it the sign of the input picks the sign of a
function of the magnitude. -/
theorem softLimiterShape : Obligations.SoftLimiterShape := fun _ hv =>
  ⟨softLimit_fneg hv, softLimit_of_within⟩

/-! ## Filter steps (42_filters.md R161, R162, R164, R165) -/

/-- Settles O41: the word is evaluated, the rest holds by definition. -/
theorem filterClear : Obligations.FilterClear :=
  ⟨by decide, fun _ => ⟨rfl, rfl⟩, fun _ _ => rfl⟩

/-- A command that has written `ws`, then steps a filter and writes a register, lands the two fields and the output
after `ws`. -/
theorem complete_writeFilter_writeX {w : Work} {s : State} (ws : List (Place × F32)) (hst : w.st = putAll ws s)
    (hwrote : w.wrote = ws.map Prod.fst) (f : FsUnit) (x y : F32) (d : Reg) (out : F32)
    (hkeys : ((ws.map fun q => q.1.key) ++ [Place.fsX f, .fsY f, .x d]).Nodup)
    (hslot : ∀ q ∈ ws, q.1.isSlot = false) :
    complete (writePlace (writeFilter w f x y) (.x d) out)
      = landed w.dom (ws ++ [(.fsX f, x), (.fsY f, y), (.x d, out)]) s := by
  refine complete_eq_landed _ _ _ ?_ ?_ (by simpa [Place.key] using hkeys) ?_
  · rw [putAll_append, ← hst]
    rfl
  · simp [hwrote]
  · intro q hq
    refine placeOk_of_not_slot s ?_
    rcases List.mem_append.mp hq with h | h
    · exact hslot q h
    · simp only [List.mem_cons, List.not_mem_nil, or_false] at h
      rcases h with rfl | rfl | rfl <;> rfl

/-- A command that steps one filter. -/
theorem complete_oneFilter {w : Work} {s : State} (hst : w.st = s) (hwrote : w.wrote = []) (f : FsUnit)
    (x y : F32) (d : Reg) (out : F32) :
    complete (writePlace (writeFilter w f x y) (.x d) out)
      = landed w.dom [(.fsX f, x), (.fsY f, y), (.x d, out)] s :=
  complete_writeFilter_writeX [] hst hwrote f x y d out (by simp) (by simp)

/-- Settles O42: after its two operand reads each command reads the fields its rule names and steps its filter. -/
theorem filterSteps : Obligations.FilterSteps := by
  intro d f r a s
  exact ⟨complete_oneFilter rfl rfl f _ _ d _, complete_oneFilter rfl rfl f _ _ d _,
    complete_oneFilter rfl rfl f _ _ d _⟩

/-! ## Tone-tilt filters (42_filters.md R171, R172, R175) -/

theorem onPrepared_of_prepared {e : Engine} {i : Instr} {s : State} {run : Result}
    (h : prepared e s = true) : onPrepared e i s run = run :=
  if_pos h

/-- A command that steps two low-passes on one input, the second with a coefficient read in between: the second
reads the fields its own unit had before the command. -/
theorem complete_twoLowPasses {w : Work} {s : State} (hst : w.st = s) (hwrote : w.wrote = []) {f g : FsUnit}
    (hfg : f ≠ g) (x a b : F32) (d : Reg) (out : F32) :
    complete (writePlace (lpWork (seeValue (lpWork w f x a).2 b) g x b).2 (.x d) out)
      = landed (w.dom && isFinite (filter s f).y1 && isFinite b && isFinite (filter s g).y1)
        [(.fsX f, x), (.fsY f, lpOut (filter s f) x a), (.fsX g, x), (.fsY g, lpOut (filter s g) x b),
          (.x d, out)] s := by
  subst hst
  have hg : filter (lpWork w f x a).2.st g = filter w.st g := by simp [filter_setFilter, hfg]
  rw [← hg]
  exact complete_writeFilter_writeX [(.fsX f, x), (.fsY f, lpOut (filter w.st f) x a)] rfl
    (by simp [hwrote]) g x _ d out (by simp [Place.key, hfg]) (by simp [Place.isSlot])

/-- The operand of a tilt command has been read. -/
def tiltStart (s : State) (r : Reg) : Work := seeValue (startWork s) (readX s r)

/-- A tilt command, given what its filter steps did and what they answered. -/
theorem tiltOp_eq {tilt : Work → Channel → F32 → F32 × Work} {d r : Reg} {ch : Channel} {s : State} {out : F32}
    {w : Work} (hout : (tilt (tiltStart s r) ch (readX s r)).1 = out)
    (hw : (tilt (tiltStart s r) ch (readX s r)).2 = w) :
    tiltOp tilt d ch r s = complete (writePlace w (.x d) out) := by
  subst hout hw
  rfl

/-- Settles O46: each tilt is named by its output and its low-pass steps (`tiltRevWork_fst`, `tiltRevWork_snd` and
their like), and the reverb's two low-passes have different units in either channel. -/
theorem tiltCommands : Obligations.TiltCommands := by
  intro d r ch s
  refine ⟨fun h => ?_, fun h => ?_, fun h => ?_⟩
  · refine (onPrepared_of_prepared h).trans ?_
    rw [tiltOp_eq (tiltRevWork_fst ..) (tiltRevWork_snd ..)]
    exact complete_twoLowPasses rfl rfl (by cases ch <;> decide) _ _ _ d _
  · refine (onPrepared_of_prepared h).trans ?_
    rw [tiltOp_eq (tiltDlyWork_fst ..) (tiltDlyWork_snd ..)]
    exact complete_oneFilter rfl rfl _ _ _ d _
  · refine (onPrepared_of_prepared h).trans ?_
    rw [tiltOp_eq (tiltSatWork_fst ..) (tiltSatWork_snd ..)]
    exact complete_oneFilter rfl rfl _ _ _ d _

/-- A command that used finite values alone and last wrote a finite value to `d` leaves that value in `d`. -/
theorem readX_landed_last {ws : List (Place × F32)} {d : Reg} {v : F32} {s : State} (hv : isFinite v = true) :
    ∃ t, landed true (ws ++ [(.x d, v)]) s = .next t ∧ readX t d = v := by
  refine ⟨_, rfl, ?_⟩
  have hland : land true (ws ++ [(.x d, v)]) s = writeX (land true ws s) d v := by
    rw [land, List.foldl_append]
    exact if_pos (by simp [not_nan_of_finite hv])
  rw [readX_respond, hland, readX_writeX_same]

theorem flt_self (v : F32) : flt v v = false := by
  simp [flt]

theorem tiltRevOut_centre (c : Cfg) {tone : F32} (h : tone = half) (wet lo hi : F32) :
    tiltRevOut c tone wet lo hi = wet := by
  simp [tiltRevOut, h, flt_self]

theorem tiltSatOut_centre (c : Cfg) {tone : F32} (h : tone = half) (v lp : F32) :
    tiltSatOut c tone v lp = v := by
  simp [tiltSatOut, h, flt_self]

/-- Settles O47: at tone 0.5 no branch that changes the input is taken, and with finite operands the output lands
as it is. -/
theorem tiltIsFlatAtCentre : Obligations.TiltIsFlatAtCentre := by
  intro d r ch s hv
  obtain ⟨hrev, -, hsat⟩ := tiltCommands d r ch s
  refine ⟨fun hprep htone hlo hhi hf hg => ?_, fun hprep htone ha hf => ?_⟩
  · rw [hrev hprep, hv, hlo, hf, hhi, hg, tiltRevOut_centre _ htone]
    exact readX_landed_last (ws := [_, _, _, _]) hv
  · rw [hsat hprep, hv, ha, hf, tiltSatOut_centre _ htone]
    exact readX_landed_last (ws := [_, _]) hv

/-! ## Functions of registers -/

/-- Settles O45: each command is the `ternaryOp` of its function by definition. -/
theorem ternaryCommands : Obligations.TernaryCommands := fun d a b c s =>
  ⟨ternaryOp_eq fclamp d a b c s, ternaryOp_eq _ d a b c s, ternaryOp_eq _ d a b c s,
    ternaryOp_eq _ d a b c s, ternaryOp_eq _ d a b c s, ternaryOp_eq _ d a b c s⟩

/-- Settles O44: `F.COEF` is one test of the rate, then a `unaryOp`. -/
theorem coefficientCommand : Obligations.CoefficientCommand := fun d r s =>
  ⟨fun h => (if_pos h).trans (unaryOp_eq _ d r s), fun h => if_neg (Bool.eq_false_iff.mp h)⟩

/-- `DLY.RATIO` uses its operand unless that is a NaN (44_delay.md R212; log 12). -/
theorem execDlyRatio_eq (d r : Reg) (s : State) :
    execDlyRatio d r s
      = landed (isNaN (readX s r) || isFinite (readX s r)) [(.x d, ratio (readX s r))] s := by
  cases h : isNaN (readX s r) with
  | true =>
    simp only [execDlyRatio, h, if_true]
    exact complete_writeX (w := startWork s) rfl rfl d _
  | false =>
    simp only [execDlyRatio, h, Bool.false_eq_true, if_false]
    exact complete_writeX (w := seeValue (startWork s) (readX s r)) rfl rfl d _

/-- Settles O43: each command but `DLY.RATIO` is the `unaryOp` of its function by definition. -/
theorem unaryCommands : Obligations.UnaryCommands := fun d r s =>
  ⟨unaryOp_eq _ d r s, unaryOp_eq _ d r s, unaryOp_eq _ d r s, execDlyRatio_eq d r s,
    unaryOp_eq _ d r s, unaryOp_eq _ d r s, unaryOp_eq _ d r s⟩

end Sys2Proof.Machine

/-! Settles the statements of the shimmer: O52 (one step of it) and O56 (a closed gate freezes it). Both rest on
what a command in flight has done (`Moves`): the frame of `SHIM.STEP` is `shimPlaces` and the destination, and
that of a reverb sample names no shimmer place while the gate is closed. -/

namespace Sys2Proof.Machine

/-! ## One shimmer step (43_shimmer.md R192 to R198) -/

section Step
variable {d r : Reg} {s : State}

/-- `SHIM.STEP` at its end: the operand read, the step done, the destination written. -/
def shimStepEnd (d r : Reg) (s : State) : Work :=
  let done := shimStepWork Config.cfg (seeValue (startWork s) (readX s r)) (readX s r)
  writePlace done.2 (.x d) done.1

theorem exec_shimStep (hprep : prepared .rev s = true) (hslots : engineHasSlots .rev s = true) :
    exec (.shimStep d r) s = complete (shimStepEnd d r s) :=
  (onPrepared_of_prepared hprep).trans (if_pos hslots)

theorem shimStepEnd_moves : Moves (startWork s) (shimStepEnd d r s) (shimPlaces s ++ [.x d]) [12] :=
  ((seeValue_moves _ _).trans (shimStepWork_moves _ _ _)).write _ _

theorem shimStepEnd_st : (shimStepEnd d r s).st =
    writeX (shimState Config.cfg (readX s r) s) d (shimOutput Config.cfg (readX s r) s) := by
  rw [shimStepEnd, writePlace_st, shimStepWork_st, shimStepWork_fst]
  rfl

theorem shimStepEnd_dom :
    (shimStepEnd d r s).dom = (isFinite (readX s r) && shimOk Config.cfg (readX s r) s) := by
  rw [shimStepEnd, writePlace_dom, shimStepWork_dom, seeValue_dom, startWork_dom, Bool.true_and]
  rfl

/-- Every place the command writes can be written: its one slot is at the cursor of a unit with slots. -/
theorem placeOk_shimPlaces (hwf : Memory.wf s = true) (hcap : (ring s 12).cap ≠ 0) :
    ∀ p ∈ shimPlaces s ++ [.x d], placeOk s p := by
  have hcursor := placeOk_cursor hwf hcap
  simpa [shimPlaces, placeOk] using hcursor

end Step

/-- Settles O52: what the command did gives its frame, and where storage is canonical the written values land over
the state with the cursor of unit 12 advanced. -/
theorem shimmerStep : Obligations.ShimmerStep := by
  intro d r s hprep hslots
  rw [exec_shimStep hprep hslots]
  refine ⟨?_, fun hinv => ?_⟩
  · obtain ⟨t, hnext, hresp, hframe, -, hwr, hvalues, -⟩ :=
      complete_moves (shimStepEnd_moves (d := d) (r := r))
    rw [shimStepEnd_st] at hvalues
    exact ⟨t, hnext, hresp, hframe, hwr (by decide) 12 (by decide), hvalues⟩
  · have hcap : (ring s 12).cap ≠ 0 := slots_of_engine hslots 12 (by decide)
    rw [shimStepEnd_moves.landed hinv.memory (shimPlaces_keys s d) (by simpa using hcap)
      (placeOk_shimPlaces hinv.memory hcap), shimStepEnd_dom, shimStepEnd_st]

/-! ## The gate (43_shimmer.md R191, 70_reset_and_hazards.md R381) -/

/-- The shimmer's buffer, its two filters, its phase and its output are in `t` as they are in `s`. -/
def ShimmerFrozen (s t : State) : Prop :=
  (∀ i, memRead (ring t 12) i = memRead (ring s 12) i) ∧ (ring t 12).cap = (ring s 12).cap ∧
  (ring t 12).wr = (ring s 12).wr ∧ filter t 8 = filter s 8 ∧ filter t 9 = filter s 9 ∧
  t.shimPhase = s.shimPhase ∧ t.shimOut = s.shimOut

/-- A place of the shimmer. -/
def Place.isShimmer : Place → Bool
  | .slot u _ => u == 12
  | .fsX f | .fsY f => f == 8 || f == 9
  | .shimPhase | .shimOut => true
  | _ => false

/-- Two filter units with the same fields are the same. -/
theorem filter_eq_of_places {s t : State} {f : FsUnit} (hx : getPlace t (.fsX f) = getPlace s (.fsX f))
    (hy : getPlace t (.fsY f) = getPlace s (.fsY f)) : filter t f = filter s f :=
  congrArg₂ FilterUnit.mk hx hy

/-- A command that writes no place of the shimmer and does not move its cursor leaves the shimmer frozen. -/
theorem Frame.shimmerFrozen {ps : List Place} {us : List RbUnit} {s t : State} (h : Frame ps us s t)
    (hps : ∀ p ∈ ps, p.isShimmer = false) (hus : 12 ∉ us) : ShimmerFrozen s t := by
  have keep : ∀ p, p.isShimmer = true → getPlace t p = getPlace s p := fun p hp =>
    h.place p fun hm => by simp [hps p hm] at hp
  exact ⟨fun i => keep (.slot 12 i) rfl, h.cap 12, h.wr 12 hus,
    filter_eq_of_places (keep (.fsX 8) rfl) (keep (.fsY 8) rfl),
    filter_eq_of_places (keep (.fsX 9) rfl) (keep (.fsY 9) rfl), keep .shimPhase rfl, keep .shimOut rfl⟩

/-- A fault entry changes no engine state (60_exceptions.md R344). -/
theorem raised_shimmerFrozen (k : FaultCode) (w : Command) (s : State) : ShimmerFrozen s (raised k w s) :=
  ⟨fun _ => rfl, rfl, rfl, rfl, rfl, rfl, rfl⟩

/-- The outcomes of a reverb sample: a fault entry, or its places written and its cursors advanced. -/
theorem exec_revSample_cases {l r : Reg} {s t : State} (h : exec (.revSample l r) s = .next t) :
    (∃ k w, t = raised k w s) ∨ Frame (revPlaces l r s) (revUnits s) s t := by
  change onPrepared _ _ _ (if engineHasSlots .rev s then
    complete (revSampleWork Config.cfg (startWork s) l r) else .fault .noSlot) = _ at h
  unfold onPrepared at h
  split at h
  · split at h
    · obtain ⟨t', hnext, -, hframe, -⟩ := complete_moves (revSampleWork_moves Config.cfg (startWork s) l r)
      rw [hnext] at h
      cases h
      exact .inr hframe
    · cases h
  · cases h
    exact .inl ⟨_, _, rfl⟩

theorem revPlaces_not_shimmer {l r : Reg} {s : State} (hgate : gateOpen s = false) :
    ∀ p ∈ revPlaces l r s, p.isShimmer = false := by
  simp [revPlaces, hgate, Place.isShimmer]

theorem shimmer_not_mem_revUnits {s : State} (hgate : gateOpen s = false) : 12 ∉ revUnits s := by
  simp [revUnits, hgate]

/-- Settles O56: with the gate closed neither the places nor the units of a reverb sample are the shimmer's. -/
theorem closedGateFreezesShimmer : Obligations.ClosedGateFreezesShimmer := by
  intro l r s t _ hgate hexec
  obtain ⟨k, w, rfl⟩ | hframe := exec_revSample_cases hexec
  · exact raised_shimmerFrozen k w s
  · exact hframe.shimmerFrozen (revPlaces_not_shimmer hgate) (shimmer_not_mem_revUnits hgate)

end Sys2Proof.Machine

/-! Settles the statements of the delay: O51 (the bands of its ratio), O53 (one sample of it) and O57 (its outputs
and the saturation's stay in [-1, 1]). A sample is what the command in flight has done (`Moves`), as for the
shimmer; an output register was written a clamp (`dlyState_out`, `satState_out`), so it holds that or a free value. -/

namespace Sys2Proof.Machine

/-! ## The ratio (44_delay.md R212) -/

/-- A value that has reached the threshold `b` is not below a threshold `a` that is no higher. -/
theorem not_flt_of_fle {a b v : F32} (h : fle b v = true) (hab : orderKey a ≤ orderKey b := by decide) :
    ¬flt v a = true := fun hlt => by
  obtain ⟨-, -, hle⟩ := fle_iff.mp h
  obtain ⟨-, -, hlt⟩ := flt_iff.mp hlt
  omega

theorem not_flt_of_nan {v : F32} (h : isNaN v = true) (a : F32) : ¬flt v a = true := by
  simp [flt, h]

/-- What is below no threshold has the ratio of the last band. -/
theorem ratio_of_not_flt {v : F32} (h : ∀ a, orderKey a ≤ orderKey 0x3F4CCCCD → ¬flt v a = true) :
    ratio v = 0x3FCF1AA0 := by
  rw [ratio, if_neg (h _ (by decide)), if_neg (h _ (by decide)), if_neg (h _ (by decide)),
    if_neg (h _ (by decide))]

/-- Settles O51: in each band the tests of the thresholds up to its lower one fail (`not_flt_of_fle`), and the next
one holds. -/
theorem ratioBands : Obligations.RatioBands := by
  refine ⟨fun v => ⟨fun hhi => if_pos hhi, fun hlo hhi => ?_, fun hlo hhi => ?_, fun hlo hhi => ?_,
    fun hlo => ratio_of_not_flt fun _ hle => not_flt_of_fle hlo hle,
    fun hnan => ratio_of_not_flt fun _ _ => not_flt_of_nan hnan _⟩, by decide⟩
  · rw [ratio, if_neg (not_flt_of_fle hlo), if_pos hhi]
  · rw [ratio, if_neg (not_flt_of_fle hlo), if_neg (not_flt_of_fle hlo), if_pos hhi]
  · rw [ratio, if_neg (not_flt_of_fle hlo), if_neg (not_flt_of_fle hlo), if_neg (not_flt_of_fle hlo),
      if_pos hhi]

/-! ## One sample (44_delay.md R213 to R222) -/

section Sample
variable {l r : Reg} {s : State}

theorem exec_dlySample (hprep : prepared .dly s = true) (hslots : engineHasSlots .dly s = true) :
    exec (.dlySample l r) s = complete (dlySampleWork Config.cfg (startWork s) l r) :=
  (onPrepared_of_prepared hprep).trans (if_pos hslots)

theorem dlyUnits_slots (hslots : engineHasSlots .dly s = true) :
    ∀ u ∈ ([13, 14, 15, 16] : List RbUnit), (ring s u).cap ≠ 0 :=
  fun u hu => slots_of_engine hslots u (by revert u; decide)

/-- Every place the command writes can be written: each of its slots is at the cursor of a unit with slots. -/
theorem placeOk_dlyPlaces (hwf : Memory.wf s = true)
    (hcap : ∀ u ∈ ([13, 14, 15, 16] : List RbUnit), (ring s u).cap ≠ 0) :
    ∀ p ∈ dlyPlaces l r s, placeOk s p := by
  have hcursor := fun u hu => placeOk_cursor hwf (hcap u hu)
  simpa [dlyPlaces, placeOk] using hcursor

end Sample

/-- Settles O53: what the command did gives its frame and cursors, and where storage is canonical the written values
land over the state with the four cursors advanced. -/
theorem delaySample : Obligations.DelaySample := by
  intro l r s hlr hprep hslots
  have hmoves := dlySampleWork_moves Config.cfg (startWork s) l r
  have hst := dlySampleWork_st Config.cfg (startWork s) l r
  rw [exec_dlySample hprep hslots]
  refine ⟨?_, fun hinv => ?_⟩
  · obtain ⟨t, hnext, hresp, hframe, -, hwr, hvalues, -⟩ := complete_moves hmoves
    rw [hst] at hvalues
    exact ⟨t, hnext, hresp, hframe, hwr (by decide), hvalues⟩
  · have hcap := dlyUnits_slots hslots
    rw [hmoves.landed hinv.memory (dlyPlaces_keys s hlr) hcap (placeOk_dlyPlaces hinv.memory hcap), hst,
      dlySampleWork_dom]
    rfl

/-! ## Clamped outputs (44_delay.md R222, 45_saturation.md R259) -/

/-- In `t`, reached from `s`, `o` holds a number in [-1, 1] or a free value newly used (log 9, log 10). -/
def ClampedIn (s t : State) (o : Reg) : Prop :=
  within one (readX t o) = true ∨ ∃ n, s.free ≤ n ∧ n < t.free ∧ readX t o = Config.freeF32 n

/-- A clamp to [-1, 1] that is no NaN lies in [-1, 1]: the value clamped was no NaN either. -/
theorem within_one_fclamp {v : F32} (h : isNaN (fclamp v minusOne one) = false) :
    within one (fclamp v minusOne one) = true := by
  have hv : isNaN v = false := Bool.eq_false_iff.mpr fun hnan => by
    rw [isNaN_fclamp_of_nan hnan] at h
    cases h
  exact within_fclamp hv (by decide) (by decide) (by decide) (by decide) (by decide) (by decide)

/-- A register to which a command wrote a clamp to [-1, 1] holds at its end that clamp, or a new free value. -/
theorem clampedIn_finishWork {s : State} {w : Work} {ps : List Place} {us : List RbUnit} {o : Reg} {v : F32}
    (h : Moves (startWork s) w ps us) (ho : .x o ∈ ps) (hv : readX w.st o = fclamp v minusOne one) :
    ClampedIn s (respond (finishWork w) 0) o := by
  have hwrote : .x o ∈ w.wrote := by simpa [h.wrote] using ho
  have hfree : w.st.free = s.free := h.free
  rcases settle_all_reg w.dom w.wrote o w.st hwrote with ⟨hkeep, hnum⟩ | hopen
  · left
    rw [readX_respond, finishWork, hkeep, hv]
    exact within_one_fclamp (hv ▸ hnum)
  · right
    rwa [hfree] at hopen

/-- A command that wrote clamps to [-1, 1] to `l` and `r`. -/
theorem clampedIn_complete {s : State} {w : Work} {ps : List Place} {us : List RbUnit} {l r : Reg}
    (h : Moves (startWork s) w ps us) (hl : .x l ∈ ps) (hr : .x r ∈ ps)
    (hout : ∃ a b, readX w.st l = fclamp a minusOne one ∧ readX w.st r = fclamp b minusOne one) :
    ∃ t, complete w = .next t ∧ ∀ o ∈ [l, r], ClampedIn s t o := by
  obtain ⟨a, b, ha, hb⟩ := hout
  refine ⟨_, rfl, ?_⟩
  simpa using And.intro (clampedIn_finishWork h hl ha) (clampedIn_finishWork h hr hb)

/-- Settles O57: both engines write clamps to their two registers. -/
theorem outputsAreClamped : Obligations.OutputsAreClamped := by
  intro l r s hlr
  refine ⟨fun hprep hslots => ?_, fun hprep => ?_⟩
  · rw [exec_dlySample hprep hslots]
    refine clampedIn_complete (dlySampleWork_moves ..) (by simp [dlyPlaces]) (by simp [dlyPlaces]) ?_
    rw [dlySampleWork_st]
    exact dlyState_out _ s hlr
  · have hexec : exec (.satSample l r) s = complete (satSampleWork Config.cfg (startWork s) l r) :=
      onPrepared_of_prepared hprep
    rw [hexec]
    refine clampedIn_complete (satSampleWork_moves ..) (by simp [satPlaces]) (by simp [satPlaces]) ?_
    rw [satSampleWork_st]
    exact satState_out _ s hlr

end Sys2Proof.Machine

/-! Settles the statement of the saturation: O54 (one sample of it). A sample is what the command in flight has done
(`Moves`), as for the delay, but on no ring buffer: no cursor moves, and the places are registers and filter fields,
those of the compressor only while its control is above zero. -/

namespace Sys2Proof.Machine

/-! ## One saturation sample (45_saturation.md R250 to R262) -/

section Sample
variable {l r : Reg} {s : State}

theorem exec_satSample (hprep : prepared .sat s = true) :
    exec (.satSample l r) s = complete (satSampleWork Config.cfg (startWork s) l r) :=
  onPrepared_of_prepared hprep

/-- A saturation sample touches no ring buffer, whether the compressor runs or not. -/
theorem satPlaces_not_slot : ∀ p ∈ satPlaces l r s, p.isSlot = false := by
  simp only [satPlaces, compPlaces]
  split <;> simp [Place.isSlot]

theorem placeOk_satPlaces : ∀ p ∈ satPlaces l r s, placeOk s p :=
  fun p hp => placeOk_of_not_slot s (satPlaces_not_slot p hp)

end Sample

/-- Settles O54: what the command did gives its frame, and where storage is canonical the written values land over
the state before it, of which no cursor is advanced. -/
theorem saturationSample : Obligations.SaturationSample := by
  intro l r s hlr hprep
  have hmoves := satSampleWork_moves Config.cfg (startWork s) l r
  have hst := satSampleWork_st Config.cfg (startWork s) l r
  rw [exec_satSample hprep]
  refine ⟨?_, fun hinv => ?_⟩
  · obtain ⟨t, hnext, hresp, hframe, -, -, hvalues, -⟩ := complete_moves hmoves
    rw [hst] at hvalues
    exact ⟨t, hnext, hresp, hframe, hvalues⟩
  · rw [hmoves.landed hinv.memory (satPlaces_keys s hlr) (by simp) placeOk_satPlaces, hst,
      satSampleWork_dom, startWork_dom, Bool.true_and]
    rfl

end Sys2Proof.Machine

/-! Settles the statements of the reverb: O50 (the ceilings of the decay and of the delay's feedback) and O55 (one
sample of it). A ceiling is a minimum with a constant or a clamp to it; a sample is what the command in flight has
done (`Moves`), as for the delay, on the units and places that the gate selects. -/

namespace Sys2Proof.Machine

/-! ## The ceilings (46_reverb.md R281, 44_delay.md R217, R218) -/

/-- Flushing a minimum does not lift it above its bound, as the bound is not subnormal. -/
theorem fle_fmin_right {v hi : F32} (hv : isNaN v = false) (hhi : isNaN hi = false)
    (shi : isSubnormal hi = false) : fle (fmin v hi) hi = true := by
  obtain ⟨hcases, hle⟩ := fmin_spec hv hhi
  have hnum : isNaN (fmin v hi) = false := by
    rcases hcases with h | h <;> rw [h, isNaN_flushed] <;> assumption
  exact fle_iff.mpr ⟨hnum, hhi, hle shi⟩

theorem decayOf_ceiling (size : F32) : isNaN (decayOf size) = true ∨ fle (decayOf size) 0x3F6E147B = true := by
  cases hsum : isNaN (fadd half (fmul size 0x3EDC28F6)) with
  | true => exact .inl (fmin_nan (.inl hsum))
  | false => exact .inr (fle_fmin_right hsum (by decide) (by decide))

theorem dlyFeedback_ceiling (fbk v : F32) :
    isNaN (dlyFeedback fbk v) = true ∨ within 0x3F666666 (dlyFeedback fbk v) = true := by
  cases hprod : isNaN (fmul fbk v) with
  | true => exact .inl (isNaN_fclamp_of_nan hprod)
  | false =>
    exact .inr (within_fclamp hprod (by decide) (by decide) (by decide) (by decide) (by decide) (by decide))

/-- Settles O50: the decay and the gain are minimums with their ceilings, the fed-back sample is a clamp to ±0.9. -/
theorem feedbackCeilings : Obligations.FeedbackCeilings :=
  ⟨decayOf_ceiling, fun _ hf => fle_fmin_right hf (by decide) (by decide), dlyFeedback_ceiling⟩

/-! ## One sample (46_reverb.md R283 to R295) -/

section Sample
variable {l r : Reg} {s : State}

theorem exec_revSample (hprep : prepared .rev s = true) (hslots : engineHasSlots .rev s = true) :
    exec (.revSample l r) s = complete (revSampleWork Config.cfg (startWork s) l r) :=
  (onPrepared_of_prepared hprep).trans (if_pos hslots)

/-- The shimmer's unit is none of the twelve that are always pushed. -/
theorem revUnits_nodup (s : State) : (revUnits s).Nodup := by
  cases hgate : gateOpen s <;> simp [revUnits, hgate]

/-- Every place the command writes can be written: each of its slots is at the cursor of a unit with slots, the
shimmer's among them only while the gate is open. -/
theorem placeOk_revPlaces (hwf : Memory.wf s = true) (hcap : ∀ u ∈ revUnits s, (ring s u).cap ≠ 0) :
    ∀ p ∈ revPlaces l r s, placeOk s p := by
  have hcursor := fun u hu => placeOk_cursor hwf (hcap u hu)
  cases hgate : gateOpen s <;> simpa [revPlaces, revUnits, shimPlaces, hgate, placeOk] using hcursor

end Sample

/-- Settles O55: what the command did gives its frame and cursors, and where storage is canonical the written values
land over the state with the cursors of the pushed units advanced. -/
theorem reverbSample : Obligations.ReverbSample := by
  intro l r s hlr hprep hslots
  have hmoves := revSampleWork_moves Config.cfg (startWork s) l r
  have hst := revSampleWork_st Config.cfg (startWork s) l r
  rw [exec_revSample hprep hslots]
  refine ⟨?_, fun hinv => ?_⟩
  · obtain ⟨t, hnext, hresp, hframe, -, hwr, hvalues, -⟩ := complete_moves hmoves
    rw [hst] at hvalues
    exact ⟨t, hnext, hresp, hframe, hwr (revUnits_nodup s), hvalues⟩
  · have hcap := revUnits_slots hslots
    rw [hmoves.landed hinv.memory (revPlaces_keys s hlr) hcap (placeOk_revPlaces hinv.memory hcap), hst,
      revSampleWork_dom, startWork_dom, Bool.true_and]
    rfl

end Sys2Proof.Machine

/-! Settles O7 (the words that are no legal command). A word that decodes has the fields of its command, so a
condition that no command's fields meet rules a word out; the `CSRW` of a read-only register decodes, and its own
rule raises the fault. -/

namespace Sys2Proof

/-! ## The numbers that `sel` may hold (10_state.md R28, 20_memory.md R66, 30_encoding.md R92) -/

/-- How many numbers the `sel` field of an opcode can name: units, engines or channels; for every other opcode all
that the field can hold. -/
def selCount (op : BitVec 8) : Nat :=
  match op.toNat with
  | 0x10 | 0x11 | 0x12 | 0x13 | 0x14 | 0x15 | 0x16 | 0x17 | 0x18 | 0x19 | 0x20
  | 0x30 | 0x31 | 0x32 | 0x33 => 32
  | 0x06 | 0x07 => 3
  | 0x38 | 0x39 | 0x3A => 2
  | _ => 256

theorem selField_toNat_lt {n k : Nat} (h : n < k) : (selField n).toNat < k := by
  rw [selField, BitVec.toNat_ofNat]
  exact (Nat.mod_le n _).trans_lt h

theorem Engine.number_lt (e : Engine) : e.number < 3 := by cases e <;> decide

theorem Channel.number_lt (ch : Channel) : ch.number < 2 := by cases ch <;> decide

/-- A command's `sel` names something there is. -/
theorem sel_lt_selCount (i : Instr) : (encodeFields i).sel.toNat < selCount (encodeFields i).op := by
  cases i with
  | rbInit u | rbInit2 u | rbPush u | rbCap u | rbCur u | fClr u => exact selField_toNat_lt u.isLt
  | rbRdn _ u | rbRdi _ u | rbRdl _ u | rbRdc _ u | rbRdp _ u | apProc _ u | fLp _ u | fHp _ u
  | fDcb _ u => exact selField_toNat_lt u.isLt
  | prepare e | block e => exact selField_toNat_lt e.number_lt
  | tiltRev _ ch | tiltDly _ ch | tiltSat _ ch => exact selField_toNat_lt ch.number_lt
  | _ => exact BitVec.isLt _

/-! ## Words that stand for no command (60_exceptions.md R341 a, d, e, f) -/

section Illegal
variable {w : Command}

/-- A word with an opcode of no command. -/
theorem decode_ne_ok_of_op (h : ∀ i, (encodeFields i).op ≠ (splitWord w).op) (i : Instr) :
    decode w ≠ .ok i := fun hi =>
  h i (congrArg Fields.op (splitWord_of_decode hi)).symm

/-- A word whose `sel` is above the range of its opcode. -/
theorem decode_ne_ok_of_sel (h : selCount (splitWord w).op ≤ (splitWord w).sel.toNat) (i : Instr) :
    decode w ≠ .ok i := fun hi => by
  have hlt := sel_lt_selCount i
  rw [← splitWord_of_decode hi] at hlt
  omega

/-- The number of every register names it (10_state.md R28). -/
@[simp] theorem Csr.ofNumber_sel (n : Csr) : Csr.ofNumber (selField n.number).toNat = some n := by
  have h := csrOf_field n
  unfold csrOf at h
  split at h
  · next hn => rw [hn, Except.ok.inj h]
  · cases h

/-- The only commands with the opcodes 0x04 and 0x05 are `CSRW` and `CSRR`. -/
theorem csr_of_op {i : Instr} (h : (encodeFields i).op ∈ [0x04, 0x05]) :
    (∃ n v, i = .csrw n v) ∨ ∃ n, i = .csrr n := by
  cases i with
  | csrw n v => exact .inl ⟨n, v, rfl⟩
  | csrr n => exact .inr ⟨n, rfl⟩
  | _ => simp [encodeFields] at h

/-- A `CSRR` or `CSRW` of a number outside the map. -/
theorem decode_ne_ok_of_csr (hop : (splitWord w).op ∈ [0x04, 0x05])
    (hsel : Csr.ofNumber (splitWord w).sel.toNat = none) (i : Instr) : decode w ≠ .ok i := fun hi => by
  rw [splitWord_of_decode hi] at hop hsel
  obtain ⟨n, v, rfl⟩ | ⟨n, rfl⟩ := csr_of_op hop <;> simp [encodeFields] at hsel

end Illegal

end Sys2Proof

namespace Sys2Proof.Machine

/-! ## `CSRW` of a read-only register (60_exceptions.md R341 f; log 18) -/

/-- The registers that no command writes directly (10_state.md R23 to R25). -/
def ReadOnly (n : Csr) : Prop := n = .status ∨ n = .finfo ∨ ∃ e, n = .maxblk e

theorem exec_csrw_readOnly {n : Csr} (h : ReadOnly n) (v : Word32) (s : State) :
    exec (.csrw n v) s = .next (raised .illegalCommand (encode (.csrw n v)) s) := by
  obtain rfl | rfl | ⟨e, rfl⟩ := h <;> rfl

/-- The numbers of the read-only registers (10_state.md R28). -/
theorem readOnly_of_sel {n : Csr} (h : selField n.number ∈ [0x00, 0x01, 0x04, 0x05, 0x06]) :
    ReadOnly n := by
  cases n with
  | status => exact .inl rfl
  | finfo => exact .inr (.inl rfl)
  | maxblk e => exact .inr (.inr ⟨e, rfl⟩)
  | srateLo | srateHi | variant => simp [Csr.number, selField] at h
  | param p => cases p <;> simp [Csr.number, Param.number, selField] at h

/-- The word of a `CSRW` of a read-only register raises `IllegalCommand`, whether or not its unused fields let it
decode. -/
theorem runCommand_csrw_readOnly {w : Command} {s : State} (hrun : halted s = false)
    (hop : (splitWord w).op = 0x04) (hsel : (splitWord w).sel ∈ [0x00, 0x01, 0x04, 0x05, 0x06]) :
    runCommand w s = .next (raised .illegalCommand w s) := by
  cases hd : decode w with
  | error e => exact runCommand_of_error hrun hd
  | ok i =>
    rw [runCommand_of_ok hrun hd]
    obtain ⟨rfl, -⟩ := decode_eq_ok_iff.mp hd
    rw [encode, splitWord_joinWord] at hop hsel
    obtain ⟨n, v, rfl⟩ | ⟨n, rfl⟩ := csr_of_op (i := i) (by simp [hop])
    · exact exec_csrw_readOnly (readOnly_of_sel hsel) v s
    · simp [encodeFields] at hop

/-- Settles O7: under each of the conditions (a) to (f) but the last the word does not decode. -/
theorem illegalWordsRaise : Obligations.IllegalWordsRaise := by
  intro w s hrun f h
  have outside {n : Nat} {ops : List (BitVec 8)} (hcount : ∀ op ∈ ops, selCount op = n + 1)
      (hop : f.op ∈ ops) (hsel : n < f.sel.toNat) :
      runCommand w s = .next (raised .illegalCommand w s) :=
    runCommand_of_ne_ok hrun (decode_ne_ok_of_sel (by rw [hcount _ hop]; exact hsel))
  rcases h with hop | ⟨i, hop, hmask⟩ | ⟨hop, hreg⟩ | ⟨hop, hsel⟩ | ⟨hop, hsel⟩ | ⟨hop, hsel⟩ |
    ⟨hop, hsel⟩ | ⟨hop, hsel⟩
  · exact runCommand_of_ne_ok hrun (decode_ne_ok_of_op hop)
  · exact runCommand_of_ne_ok hrun (decode_ne_ok_of_mask hop.symm hmask)
  · exact runCommand_of_ne_ok hrun (decode_ne_ok_of_sameRegister hop hreg)
  · exact outside (by decide) hop hsel
  · exact outside (by decide) hop hsel
  · exact outside (by decide) hop hsel
  · exact runCommand_of_ne_ok hrun (decode_ne_ok_of_csr hop hsel)
  · exact runCommand_csrw_readOnly hrun hop hsel

end Sys2Proof.Machine

/-! Settles the exceptions: O10 (words while halted), O11 (idle and reset), O16 (fault entry), O17 (faults are
precise), O18 (`HALT` is sticky) and O48 (engines that are not prepared). -/

namespace Sys2Proof.Machine

/-! ## Words while halted (60_exceptions.md R346) -/

section Halted
variable {w : Command} {s : State}

theorem haltedCommand_of_csrr {n : Csr} (hword : w &&& 0xFFFFFFFF00FFFFFF = 0x05)
    (hsel : Csr.ofNumber (w.extractLsb' 24 8).toNat = some n) :
    haltedCommand w s = respond s (readCsr s n) := by
  rw [haltedCommand, if_pos hword, hsel]

theorem haltedCommand_of_other (h : w &&& 0xFFFFFFFF00FFFFFF ≠ 0x05 ∨
    Csr.ofNumber (w.extractLsb' 24 8).toNat = none) : haltedCommand w s = respond s 0 := by
  unfold haltedCommand
  split
  · next hword => rw [h.resolve_left (absurd hword)]
  · rfl

theorem runCommand_of_halted (h : halted s = true) : runCommand w s = .next (haltedCommand w s) :=
  if_pos h

/-- In a halted state a presented word is handled before any decoding. -/
theorem step_of_halted {rest : List HostEvent} (hinbox : s.inbox = .command w :: rest)
    (h : halted s = true) : step s = .next (haltedCommand w { s with inbox := rest }) :=
  (step_of_command hinbox).trans (runCommand_of_halted h)

end Halted

/-- Settles O10. The list of events is no register, so the answer is that of the state with the word in it. -/
theorem haltedIgnoresCommands : Obligations.HaltedIgnoresCommands := by
  intro s w rest hinbox hhalt
  refine ⟨fun n hword hsel => ?_, fun h => ?_⟩
  · rw [step_of_halted hinbox hhalt, haltedCommand_of_csrr hword hsel]
    cases n <;> rfl
  · rw [step_of_halted hinbox hhalt, haltedCommand_of_other h]
    rfl

/-! ## Idle and reset (60_exceptions.md R354, 70_reset_and_hazards.md R370) -/

theorem step_of_idle {s : State} (h : s.inbox = []) : step s = .next s := by
  simp [step, nextEvent, h]

theorem step_of_reset {s : State} {rest : List HostEvent} (h : s.inbox = .reset :: rest) :
    step s = .next (hardwareReset { s with inbox := rest }) := by
  simp [step, nextEvent, h]

/-- Settles O11: the list of events and the count of free values are all that a hardware reset carries over. -/
theorem stepIdleAndReset : Obligations.StepIdleAndReset :=
  ⟨fun _ => step_of_idle, fun _ _ => step_of_reset⟩

/-! ## Fault entry (60_exceptions.md R344) -/

/-- A fault entry leaves the `PREP` bits and the reserved bits of `STATUS` as they are. -/
theorem raised_otherBits (k : FaultCode) (w : Command) (s : State) :
    (raised k w s).status &&& 0xFFFF007F = s.status &&& 0xFFFF007F := by
  rw [raised_status, statusFaulted_eq]
  exact select_after_write _ _ _ _ (by decide) (by cases k <;> decide)

/-- Settles O16: the codes by evaluation, the parts of `STATUS` by their masks, the rest by definition. -/
theorem faultEntry : Obligations.FaultEntry :=
  ⟨⟨rfl, rfl, rfl, rfl, rfl, rfl, rfl⟩, fun k w s =>
    ⟨faultCode_raised k w s, raised_halted k w s, raised_otherBits k w s, rfl⟩⟩

/-! ## What sets HALT (60_exceptions.md R345, R355) -/

theorem halted_congr {s t : State} (h : t.status = s.status) : halted t = halted s := by
  simp only [halted, h]

theorem status_of_writeCsr {s t : State} {n : Csr} {v : Word32} (h : writeCsr s n v = some t) :
    t.status = s.status := by
  obtain rfl | rfl | rfl | ⟨p, -, rfl⟩ := writeCsr_cases h <;> rfl

/-- Every command that does not end in a fault entry leaves `HALT` as it is. -/
theorem exec_halted_cases {i : Instr} {s t : State} (h : exec i s = .next t) :
    (∃ k, t = raised k (encode i) s) ∨ halted t = halted s := by
  rcases exec_cases h with hfault | hquiet | ⟨n, v, t', -, hw, rfl⟩ |
    ⟨e, m, -, -, -, rfl⟩ | ⟨e, -, rfl⟩ | ⟨u, cap, -, -, -, rfl⟩
  · exact .inl hfault
  · obtain ⟨-, -, hhalt, -⟩ := hquiet.registers
    exact .inr hhalt
  · exact .inr (halted_congr ((respond_status t' 0).trans (status_of_writeCsr hw)))
  · obtain ⟨-, -, hhalt⟩ := prepared_of_status (prepareEffects_status Config.cfg e m s)
    exact .inr hhalt
  · exact .inr (finish_latch_inv halted (fun _ _ _ _ _ => rfl) Config.cfg e s)
  · exact .inr rfl

/-- A command that halts a running block has raised a fault. -/
theorem exec_raised_of_halted {i : Instr} {s t : State} (hrun : halted s = false)
    (hexec : exec i s = .next t) (hhalt : halted t = true) : ∃ k, t = raised k (encode i) s :=
  (exec_halted_cases hexec).resolve_right fun hsame => by
    rw [hhalt, hrun] at hsame
    cases hsame

/-- Settles O17: what has raised a fault is known whole. -/
theorem faultsArePrecise : Obligations.FaultsArePrecise := by
  intro i s t hrun hexec hhalt
  obtain ⟨k, rfl⟩ := exec_raised_of_halted hrun hexec hhalt
  exact ⟨rfl, k, rfl⟩

/-- A word that halts a running block is illegal or the word of a command that raised a fault. -/
theorem runCommand_raised_of_halted {w : Command} {s t : State} (hrun : halted s = false)
    (h : runCommand w s = .next t) (hhalt : halted t = true) : ∃ k, t = raised k w s := by
  cases hd : decode w with
  | error e =>
    rw [runCommand_of_error hrun hd] at h
    cases h
    exact ⟨_, rfl⟩
  | ok i =>
    rw [runCommand_of_ok hrun hd] at h
    obtain ⟨rfl, -⟩ := decode_eq_ok_iff.mp hd
    exact exec_raised_of_halted hrun h hhalt

theorem hardwareReset_running (s : State) : halted (hardwareReset s) = false :=
  (halted_congr (hardwareReset_status s)).trans (by decide)

/-- A step that halts a running block has raised a fault for the word presented (60_exceptions.md R345). -/
theorem step_raised_of_halted {s t : State} (hrun : halted s = false) (hstep : step s = .next t)
    (hhalt : halted t = true) :
    ∃ k w rest, s.inbox = .command w :: rest ∧ t = raised k w { s with inbox := rest } := by
  match hinbox : s.inbox with
  | [] =>
    rw [step_of_idle hinbox] at hstep
    cases hstep
    rw [hrun] at hhalt
    cases hhalt
  | .reset :: rest =>
    rw [step_of_reset hinbox] at hstep
    cases hstep
    rw [hardwareReset_running] at hhalt
    cases hhalt
  | .command w :: rest =>
    rw [step_of_command hinbox] at hstep
    obtain ⟨k, hk⟩ := runCommand_raised_of_halted (s := { s with inbox := rest }) hrun hstep hhalt
    exact ⟨k, w, rest, rfl, hk⟩

/-- A halted block that is not reset changes its list of events and its response alone. -/
theorem step_frozen_of_halted {s t : State} (hhalt : halted s = true)
    (hreset : ∀ rest, s.inbox ≠ .reset :: rest) (hstep : step s = .next t) :
    t = { s with inbox := t.inbox, resp := t.resp } := by
  match hinbox : s.inbox with
  | [] =>
    rw [step_of_idle hinbox] at hstep
    cases hstep
    rfl
  | .reset :: rest => exact absurd hinbox (hreset rest)
  | .command w :: rest =>
    rw [step_of_halted hinbox hhalt] at hstep
    cases hstep
    obtain ⟨v, hv⟩ := haltedCommand_eq w { s with inbox := rest }
    rw [hv]
    rfl

/-- Settles O18: one lemma for each kind of step, and the reset state is not halted. -/
theorem haltIsSticky : Obligations.HaltIsSticky := by
  refine ⟨raised_halted, fun _ _ => step_raised_of_halted, fun _ _ => step_frozen_of_halted,
    fun s t rest hinbox hstep => ?_⟩
  rw [step_of_reset hinbox] at hstep
  cases hstep
  exact hardwareReset_running _

/-! ## Engines that are not prepared (60_exceptions.md R343) -/

theorem onPrepared_of_unprepared {e : Engine} {i : Instr} {s : State} {run : Result}
    (h : prepared e s = false) : onPrepared e i s run = .next (raised .notPrepared (encode i) s) :=
  if_neg (by simp [h])

/-- Settles O48: every one of the commands is guarded by `onPrepared` of its engine. -/
theorem unpreparedEngineFaults : Obligations.UnpreparedEngineFaults := by
  intro e s hprep d r ch
  refine List.forall_mem_append.mpr ⟨?blockTiltShimmer, ?sample⟩
  case blockTiltShimmer =>
    cases e <;> simp only [List.forall_mem_cons]
    case rev => exact ⟨onPrepared_of_unprepared hprep, onPrepared_of_unprepared hprep,
      onPrepared_of_unprepared hprep, List.forall_mem_nil _⟩
    case dly => exact ⟨onPrepared_of_unprepared hprep, onPrepared_of_unprepared hprep,
      List.forall_mem_nil _⟩
    case sat => exact ⟨onPrepared_of_unprepared hprep, onPrepared_of_unprepared hprep,
      List.forall_mem_nil _⟩
  case sample =>
    split
    · exact List.forall_mem_nil _
    · rw [List.forall_mem_singleton]
      cases e <;> exact onPrepared_of_unprepared hprep

end Sys2Proof.Machine

/-! Settles the system commands that move values: O23 (`NOP`), O24 (`LDV`, `RDV`, `MOV`), O25 (`CSRR`) and O26
(`CSRW`). -/

namespace Sys2Proof

/-- The word of a `CSRR` under the mask of its format, which is how a halted block tells it (60_exceptions.md
R346), and its `sel` field. -/
theorem encode_csrr_fields (n : Csr) : encode (.csrr n) &&& 0xFFFFFFFF00FFFFFF = 0x05 ∧
    (encode (.csrr n)).extractLsb' 24 8 = selField n.number :=
  ⟨encode_mask (.csrr n), congrArg Fields.sel (splitWord_joinWord (encodeFields (.csrr n)))⟩

/-- A word that is the opcode of `CSRR` under its mask has no other field than `sel`. -/
theorem splitWord_of_csrrMask {w : Command} (h : w &&& 0xFFFFFFFF00FFFFFF = 0x05) :
    splitWord w = { op := 0x05, sel := w.extractLsb' 24 8 } := by
  have hfields := congrArg splitWord h
  rw [← joinWord_splitWord w, ← joinWord_splitWord 0xFFFFFFFF00FFFFFF, joinWord_and, splitWord_joinWord]
    at hfields
  have hones4 (b : BitVec 4) : b &&& 15#4 = b := BitVec.and_allOnes
  have hones8 (b : BitVec 8) : b &&& 255#8 = b := BitVec.and_allOnes
  have hones32 (b : BitVec 32) : b &&& 4294967295#32 = b := BitVec.and_allOnes
  simpa [splitWord, hones4, hones8, hones32] using hfields

/-- So it is the word of a `CSRR` if its `sel` is a register's number. -/
theorem eq_encode_csrr {w : Command} {n : Csr} (hword : w &&& 0xFFFFFFFF00FFFFFF = 0x05)
    (hsel : Csr.ofNumber (w.extractLsb' 24 8).toNat = some n) : w = encode (.csrr n) := by
  have hfield : selField n.number = w.extractLsb' 24 8 := by
    rw [number_of_ofNumber hsel, selField, BitVec.ofNat_toNat, BitVec.setWidth_eq]
  rw [← joinWord_splitWord w, splitWord_of_csrrMask hword, ← hfield]
  rfl

end Sys2Proof

namespace Sys2Proof.Machine

/-! ## `NOP` and the moves (47_system.md R310 to R313) -/

/-- Settles O23: every word with opcode 0 other than 0 has a nonzero field that `NOP` does not use. -/
theorem nopDoesNothing : Obligations.NopDoesNothing := by
  have hzero : encode .nop = 0 := by decide
  have hiff (w : Command) : decode w = .ok .nop ↔ w = 0 := by
    rw [decode_eq_ok_iff, hzero]
    exact ⟨fun h => h.1.symm, fun h => ⟨h.symm, rfl⟩⟩
  refine ⟨fun _ => rfl, hiff, fun w s hrun hop hw => ?_⟩
  refine runCommand_of_ne_ok hrun (decode_ne_ok_of_mask (i := .nop) hop fun hmask => hw ?_)
  rw [← BitVec.and_allOnes (x := w)]
  exact hmask

/-- Settles O24: the three words by evaluation, the meanings by definition. -/
theorem movesAreBitExact : Obligations.MovesAreBitExact :=
  ⟨⟨by decide, by decide, by decide⟩,
    fun _ _ _ _ => ⟨⟨rfl, rfl⟩, ⟨rfl, rfl⟩, ⟨rfl, rfl⟩, rfl, rfl, rfl⟩⟩

/-! ## `CSRR` and `CSRW` (47_system.md R314, R315) -/

/-- Settles O25: a halted block tells a `CSRR` by its mask and its `sel`, and only a `CSRR` has both. -/
theorem csrrReads : Obligations.CsrrReads := by
  refine ⟨⟨by decide, by decide⟩, fun _ => ⟨rfl, rfl⟩, fun w s hrun hop hsel => ?_, fun n s hhalt => ?_,
    fun w s hhalt hw => ?_, fun _ _ => rfl⟩
  · exact runCommand_of_ne_ok hrun (decode_ne_ok_of_csr (by simp [hop]) hsel)
  · obtain ⟨hword, hsel⟩ := encode_csrr_fields n
    rw [runCommand_of_halted hhalt, haltedCommand_of_csrr hword (hsel ▸ Csr.ofNumber_sel n)]
    rfl
  · rw [runCommand_of_halted hhalt, haltedCommand_of_other]
    · rfl
    · refine Classical.or_iff_not_imp_left.mpr fun hword => ?_
      exact Option.eq_none_iff_forall_ne_some.mpr fun n hn =>
        hw n (eq_encode_csrr (not_not.mp hword) hn)

section Param
variable {w : Word32}

theorem paramValue_of_low (h : isNaN w = true ∨ fle w 0 = true) : paramValue w = 0 :=
  if_pos (by simpa using h)

theorem paramValue_of_high (h : fle 0x3F800000 w = true) : paramValue w = 0x3F800000 := by
  obtain ⟨-, hnum, hkey⟩ := fle_iff.mp h
  have hpos : fle w 0 = false := Bool.eq_false_iff.mpr fun hle => by
    obtain ⟨-, -, hle⟩ := fle_iff.mp hle
    exact absurd (hkey.trans hle) (by decide)
  rw [paramValue, if_neg (by rw [hnum, hpos]; decide), if_pos h]

theorem paramValue_of_between (hlo : flt 0 w = true) (hhi : flt w 0x3F800000 = true) :
    paramValue w = w := by
  obtain ⟨-, hnum, -⟩ := flt_iff.mp hlo
  have hpos : fle w 0 = false := Bool.eq_false_iff.mpr fun hle => not_flt_of_fle hle le_rfl hlo
  have hone : ¬fle 0x3F800000 w = true := fun hle => not_flt_of_fle hle le_rfl hhi
  rw [paramValue, if_neg (by rw [hnum, hpos]; decide), if_neg hone]

end Param

/-- Settles O26: the value of a parameter is `paramValue`, range by range. -/
theorem csrwWrites : Obligations.CsrwWrites := fun w s =>
  ⟨rfl, rfl, rfl, fun _ => ⟨paramValue w, rfl, paramValue_of_low, paramValue_of_high,
    paramValue_of_between, Params.get_put_same _ _ _, fun _ => Params.get_put_ne _ _⟩,
    fun _ hn => exec_csrw_readOnly hn w s⟩

end Sys2Proof.Machine

/-! Settles O28 and O30 (what `PREPARE` does, once and twice) and O31 (what `BLOCK` latches). Latching a cache lands
its values over the state before it; `PREPARE` is that latch over `prepareBase`, and its checks look at `SRATE`
alone. -/

namespace Sys2Proof.Machine

open Config (Cfg)

/-! ## What landed values leave behind -/

section Land
variable {s : State}

theorem landOne_frame (ok : Bool) (s : State) (q : Place × F32) : Frame [q.1] [] s (landOne ok s q) := by
  unfold landOne
  split
  · exact putPlace_frame s q.1 q.2
  · exact (putPlace_frame s q.1 _).trans (free_frame _ _)

/-- Landing values changes their places alone. -/
theorem land_frame (ok : Bool) (ws : List (Place × F32)) (s : State) :
    Frame (ws.map Prod.fst) [] s (land ok ws s) := by
  induction ws generalizing s with
  | nil => exact Frame.refl s
  | cons q ws ih => exact (landOne_frame ok s q).trans (ih _)

theorem landOne_free_le (ok : Bool) (s : State) (q : Place × F32) : s.free ≤ (landOne ok s q).free := by
  unfold landOne
  split <;> simp

/-- Landing values never takes a free value back. -/
theorem land_free_le (ok : Bool) (ws : List (Place × F32)) (s : State) :
    s.free ≤ (land ok ws s).free := by
  induction ws generalizing s with
  | nil => exact le_rfl
  | cons q ws ih => exact (landOne_free_le ok s q).trans (ih _)

/-- What the place of a landed value holds when `t` is reached: the value, or, where that is a NaN, a free value
that was new in `s` (log 10). -/
def HoldsLanded (s t : State) (q : Place × F32) : Prop :=
  if isNaN q.2 then ∃ n, s.free ≤ n ∧ n < t.free ∧ getPlace t q.1 = Config.freeF32 n
  else getPlace t q.1 = q.2

theorem landOne_holds {q : Place × F32} (hq : placeOk s q.1) : HoldsLanded s (landOne true s q) q := by
  cases hnan : isNaN q.2 with
  | true =>
    have hone : landOne true s q
        = { putPlace s q.1 (Config.freeF32 s.free) with free := s.free + 1 } := by simp [landOne, hnan]
    rw [HoldsLanded, if_pos hnan, hone]
    refine ⟨s.free, le_rfl, Nat.lt_succ_self _, ?_⟩
    rw [(free_frame (putPlace s q.1 (Config.freeF32 s.free)) (s.free + 1)).place q.1 List.not_mem_nil,
      getPlace_putPlace _ _ _ hq]
  | false =>
    rw [HoldsLanded, if_neg (by simp [hnan]), landOne, if_pos (by simp [hnan]), getPlace_putPlace _ _ _ hq]

/-- Neither landing other places later nor counting from an earlier state changes what a place holds. -/
theorem HoldsLanded.mono {s s' t t' : State} {q : Place × F32} (h : HoldsLanded s t q)
    (hplace : getPlace t' q.1 = getPlace t q.1) (hs : s'.free ≤ s.free) (ht : t.free ≤ t'.free) :
    HoldsLanded s' t' q := by
  unfold HoldsLanded at h ⊢
  rw [hplace]
  split at h
  · next hnan =>
    obtain ⟨n, hlo, hhi, hget⟩ := h
    rw [if_pos hnan]
    exact ⟨n, hs.trans hlo, hhi.trans_le ht, hget⟩
  · next hnum => rwa [if_neg hnum]

/-- Each of the values landed in places that are no slots and are all different is held at the end. -/
theorem land_holds {ws : List (Place × F32)} (hdiff : (ws.map Prod.fst).Nodup)
    (hslot : ∀ q ∈ ws, q.1.isSlot = false) (s : State) : ∀ q ∈ ws, HoldsLanded s (land true ws s) q := by
  induction ws generalizing s with
  | nil => simp
  | cons a ws ih =>
    rw [List.map_cons, List.nodup_cons] at hdiff
    rw [List.forall_mem_cons] at hslot ⊢
    have hland : land true (a :: ws) s = land true ws (landOne true s a) := rfl
    rw [hland]
    refine ⟨?_, fun q hq => ?_⟩
    · exact (landOne_holds (placeOk_of_not_slot s hslot.1)).mono
        ((land_frame true ws _).place a.1 hdiff.1) le_rfl (land_free_le _ _ _)
    · exact (ih hdiff.2 hslot.2 _ q hq).mono rfl (landOne_free_le _ _ _) le_rfl

theorem setRing_self (s : State) (u : RbUnit) : setRing s u (ring s u) = s := by
  simp [setRing, ring]

theorem setFilter_self (s : State) (f : FsUnit) : setFilter s f (filter s f) = s := by
  simp [setFilter, filter]

/-- A place that is no slot may be written with what it holds. -/
theorem putPlace_self (s : State) {p : Place} (hp : p.isSlot = false) : putPlace s p (getPlace s p) = s := by
  cases p with
  | slot u i => cases hp
  | x r => simp [putPlace, getPlace, writeX, readX]
  | fsX f | fsY f => exact setFilter_self s f
  | revc k | dlyc k | satc k => cases k <;> rfl
  | shimPhase | shimOut | dlyPh1 | dlyPh2 => rfl

/-- Landing numbers that the places hold already changes nothing. -/
theorem land_eq_self {ws : List (Place × F32)} (h : ∀ q ∈ ws, q.1.isSlot = false ∧ isNaN q.2 = false ∧
    getPlace s q.1 = q.2) : land true ws s = s := by
  induction ws with
  | nil => rfl
  | cons q ws ih =>
    rw [List.forall_mem_cons] at h
    obtain ⟨⟨hslot, hnum, hget⟩, hrest⟩ := h
    have hone : landOne true s q = s := by
      rw [landOne, if_pos (by simp [hnum]), ← hget, putPlace_self s hslot]
    show land true ws (landOne true s q) = s
    rw [hone]
    exact ih hrest

end Land

/-! ## Latching a cache (10_state.md R33, 47_system.md R317) -/

/-- The state with the mode bit of the delay's tone filter latched, which is no F32 (44_delay.md R216; log 22). -/
def withMode (e : Engine) (s : State) : State :=
  if e = .dly then { s with dlyc := { s.dlyc with hp := !flt s.params.dlyTone half } } else s

theorem cacheValues_places (c : Cfg) (e : Engine) (q : Params) (rate : F64) :
    (cacheValues c e q rate).map Prod.fst = cachePlaces e := by
  cases e <;> rfl

theorem cacheValues_keys (c : Cfg) (e : Engine) (q : Params) (rate : F64) :
    (cacheValues c e q rate).map (fun v => v.1.key) = cachePlaces e := by
  cases e <;> rfl

theorem cachePlaces_nodup (e : Engine) : (cachePlaces e).Nodup := by cases e <;> decide

theorem isSlot_of_cachePlaces {e : Engine} {p : Place} (h : p ∈ cachePlaces e) : p.isSlot = false := by
  revert p
  cases e <;> decide

theorem isSlot_of_cacheValues {c : Cfg} {e : Engine} {q : Params} {rate : F64} {v : Place × F32}
    (h : v ∈ cacheValues c e q rate) : v.1.isSlot = false :=
  isSlot_of_cachePlaces (cacheValues_places c e q rate ▸ List.mem_map_of_mem h)

/-- What `latchCache` writes, before it is settled: the values of the cache, all of them from the parameter
registers and the rate, which no write changes. -/
theorem latchCache_spec (c : Cfg) (e : Engine) (s : State) :
    (latchCache c e (startWork s)).st = putAll (cacheValues c e s.params (rateOf e s)) (withMode e s) ∧
      (latchCache c e (startWork s)).wrote = cachePlaces e ∧
      (latchCache c e (startWork s)).dom = true := by
  cases e <;> exact ⟨rfl, rfl, rfl⟩

/-- Latching a cache lands its values. -/
theorem finish_latchCache (c : Cfg) (e : Engine) (s : State) :
    finishWork (latchCache c e (startWork s))
      = land true (cacheValues c e s.params (rateOf e s)) (withMode e s) := by
  obtain ⟨hst, hwrote, hdom⟩ := latchCache_spec c e s
  rw [finishWork, hst, hwrote, hdom, ← cacheValues_places c e s.params (rateOf e s)]
  refine settle_putAll true _ _ ?_ fun q hq => placeOk_of_not_slot _ (isSlot_of_cacheValues hq)
  rw [cacheValues_keys]
  exact cachePlaces_nodup e

/-- Settles O31: a prepared engine passes the check, and the latch lands the values of the cache. -/
theorem blockLatchesCache : Obligations.BlockLatchesCache := by
  intro e s hprep
  show onPrepared e (.block e) s (complete (latchCache Config.cfg e (startWork s))) = _
  rw [onPrepared_of_prepared hprep, complete, finish_latchCache]
  rfl

/-! ## PREPARE: its checks (47_system.md R316) -/

section Checks
variable {z : Config.Sizes} {c : Cfg} {e : Engine} {m : Word32} {s t : State}

/-- At a legal rate with every size in range `PREPARE` has its whole effect. -/
theorem prepareWith_of_inRange (hrate : isPosFinite64 (srate s) = true)
    (hsizes : ∀ u ∈ ownedRings e, ∃ n, preparedSize c (srate s) u = some n ∧ 1 ≤ n ∧ n ≤ z.rbCapMax) :
    prepareWith z c e m s = .next (prepareEffects c e m s) := by
  have hzero : ¬((ownedRings e).map (preparedSize c (srate s))).any (· == some 0) = true := fun h => by
    obtain ⟨u, hu, hsize⟩ := anySizeZero_iff.mp h
    obtain ⟨n, hn, hpos, -⟩ := hsizes u hu
    cases hn.symm.trans hsize
    omega
  have habove : ¬((ownedRings e).map (preparedSize c (srate s))).any
      (fun n => n.all (· > z.rbCapMax)) = true := fun h => by
    obtain ⟨u, hu, hsize⟩ := anySizeAbove_iff.mp h
    obtain ⟨n, hn, -, hmax⟩ := hsizes u hu
    obtain hnone | ⟨k, hk, hlt⟩ := hsize
    · cases hn.symm.trans hnone
    · cases hn.symm.trans hk
      omega
  rw [prepareWith, if_neg (by simp [hrate]), if_neg hzero, if_neg habove]

/-- The checks look at `SRATE` alone: in two states with one `SRATE` the command raises one fault or has its effect
in both. -/
theorem prepareWith_of_sameRate (h : srate t = srate s) :
    (∃ k, prepareWith z c e m s = raiseFault k (.prepare e m) s ∧
      prepareWith z c e m t = raiseFault k (.prepare e m) t) ∨
    (prepareWith z c e m s = .next (prepareEffects c e m s) ∧
      prepareWith z c e m t = .next (prepareEffects c e m t)) := by
  simp only [prepareWith, h]
  split
  · exact .inl ⟨_, rfl, rfl⟩
  · split
    · exact .inl ⟨_, rfl, rfl⟩
    · split
      · exact .inl ⟨_, rfl, rfl⟩
      · exact .inr ⟨rfl, rfl⟩

end Checks

/-! ## PREPARE: its effects part by part (47_system.md R316) -/

section Effects
variable {c : Cfg} {e : Engine} {m : Word32} {s : State}

/-- Whatever the sizing and the clearing do not touch is, before the latch, as the scalars and the rate leave it. -/
theorem prepareBase_eq {α : Type} (f : State → α)
    (hring : ∀ s u b, f (prepareRate e m (prepareScalars c e (setRing s u b)))
      = f (prepareRate e m (prepareScalars c e s)))
    (hfilter : ∀ s u q, f (prepareRate e m (prepareScalars c e (setFilter s u q)))
      = f (prepareRate e m (prepareScalars c e s))) :
    f (prepareBase c e m s) = f (prepareRate e m (prepareScalars c e s)) :=
  (prepareFilters_inv (fun s => f (prepareRate e m (prepareScalars c e s))) hfilter _ _).trans
    (prepareRings_inv (fun s => f (prepareRate e m (prepareScalars c e s))) hring _ _ _)

/-- What `PREPARE` has not touched before it latches the cache. -/
theorem prepareBase_keeps (c : Cfg) (e : Engine) (m : Word32) (s : State) :
    (prepareBase c e m s).params = s.params ∧ (prepareBase c e m s).revc = s.revc ∧
    (prepareBase c e m s).dlyc = s.dlyc ∧
    (prepareBase c e m s).satc = s.satc ∧ (prepareBase c e m s).free = s.free := by
  have h := prepareBase_eq (c := c) (e := e) (m := m) (s := s)
    (fun t => (t.params, t.revc, t.dlyc, t.satc, t.free)) (fun _ _ _ => by cases e <;> rfl)
    (fun _ _ _ => by cases e <;> rfl)
  have hrest : ∀ t, (fun t : State => (t.params, t.revc, t.dlyc, t.satc, t.free))
      (prepareRate e m (prepareScalars c e t)) = (t.params, t.revc, t.dlyc, t.satc, t.free) :=
    fun _ => by cases e <;> rfl
  simpa only [Prod.mk.injEq] using h.trans (hrest s)

theorem prepareBase_rate : rateOf e (prepareBase c e m s) = srate s :=
  (prepareBase_eq (rateOf e) (fun _ _ _ => by cases e <;> rfl) (fun _ _ _ => by cases e <;> rfl)).trans
    (by cases e <;> rfl)

/-- The engine scalars after `PREPARE`: those of the engine take their values, the others keep theirs. -/
theorem prepareEffects_scalars (c : Cfg) (e : Engine) (m : Word32) (s : State) :
    (if e = .rev then (prepareEffects c e m s).shimPhase = 0 ∧ (prepareEffects c e m s).shimOut = 0
      else (prepareEffects c e m s).shimPhase = s.shimPhase ∧
        (prepareEffects c e m s).shimOut = s.shimOut) ∧
    (if e = .dly then (prepareEffects c e m s).dlyPh1 = 0 ∧
        (prepareEffects c e m s).dlyPh2 = cfgDlyLfoPhi c
      else (prepareEffects c e m s).dlyPh1 = s.dlyPh1 ∧ (prepareEffects c e m s).dlyPh2 = s.dlyPh2) := by
  let f : State → F32 × F32 × F32 × F32 := fun t => (t.shimPhase, t.shimOut, t.dlyPh1, t.dlyPh2)
  have h : f (prepareEffects c e m s) = f (prepareRate e m (prepareScalars c e s)) :=
    (prepareEffects_base f c e m s (fun _ _ _ _ _ => rfl) (fun _ _ _ => rfl)).trans
      (prepareBase_eq f (fun _ _ _ => by cases e <;> rfl) (fun _ _ _ => by cases e <;> rfl))
  simp only [f, Prod.mk.injEq] at h
  obtain ⟨h1, h2, h3, h4⟩ := h
  rw [h1, h2, h3, h4]
  cases e <;> exact ⟨⟨rfl, rfl⟩, rfl, rfl⟩

/-- `MAXBLK` after `PREPARE`. -/
theorem prepareEffects_maxblk (e' : Engine) : readCsr (prepareEffects c e m s) (.maxblk e') =
    if e' = e then m else readCsr s (.maxblk e') :=
  ((prepareEffects_base (readCsr · (.maxblk e')) c e m s (fun _ _ _ _ _ => by cases e' <;> rfl)
    (fun _ _ _ => by cases e' <;> rfl)).trans
    (prepareBase_eq (readCsr · (.maxblk e')) (fun _ _ _ => by cases e <;> cases e' <;> rfl)
      (fun _ _ _ => by cases e <;> cases e' <;> rfl))).trans (by cases e <;> cases e' <;> rfl)

/-- No place holds its value in `STATUS` or in the response. -/
theorem getPlace_withStatus (s : State) (st r : Word32) (p : Place) :
    getPlace { s with status := st, resp := r } p = getPlace s p := by
  cases p <;> rfl

/-- The caches of the other engines keep their values. -/
theorem prepareEffects_otherCache {e' : Engine} (he : e' ≠ e) {p : Place} (hp : p ∈ cachePlaces e') :
    getPlace (prepareEffects c e m s) p = getPlace s p := by
  have hnot : p ∉ cachePlaces e := by
    revert p
    cases e <;> cases e' <;> first | exact absurd rfl he | decide
  obtain ⟨-, hrevc, hdlyc, hsatc, -⟩ := prepareBase_keeps c e m s
  rw [prepareEffects_eq, getPlace_withStatus, finish_latch_other _ _ _ _ hnot]
  cases p with
  | revc k => exact congrArg (getRevc · k) hrevc
  | dlyc k => exact congrArg (getDlyc · k) hdlyc
  | satc k => exact congrArg (getSatc · k) hsatc
  | _ => cases e' <;> simp [cachePlaces] at hp

/-- The cache that `PREPARE` latches is that of the parameter registers and `SRATE`. -/
theorem finish_latch_prepareBase : finishWork (latchCache c e (startWork (prepareBase c e m s))) =
    land true (cacheValues c e s.params (srate s)) (withMode e (prepareBase c e m s)) := by
  obtain ⟨hparams, -⟩ := prepareBase_keeps c e m s
  rw [finish_latchCache, hparams, prepareBase_rate]

theorem withMode_free (e : Engine) (s : State) : (withMode e s).free = s.free := by cases e <;> rfl

theorem withMode_hp (e : Engine) (s : State) :
    (withMode e s).dlyc.hp = if e = .dly then !flt s.params.dlyTone half else s.dlyc.hp := by
  cases e <;> rfl

/-- Every field of the cache holds its value, or a free value for a NaN. -/
theorem prepareEffects_holds :
    ∀ q ∈ cacheValues c e s.params (srate s), HoldsLanded s (prepareEffects c e m s) q := by
  intro q hq
  have hdiff : ((cacheValues c e s.params (srate s)).map Prod.fst).Nodup := by
    rw [cacheValues_places]
    exact cachePlaces_nodup e
  obtain ⟨-, -, -, -, hfree⟩ := prepareBase_keeps c e m s
  have h := land_holds hdiff (fun _ => isSlot_of_cacheValues) (withMode e (prepareBase c e m s)) q hq
  rw [prepareEffects_eq, finish_latch_prepareBase]
  exact h.mono (getPlace_withStatus _ _ _ _) (hfree.symm.trans (withMode_free e _).symm).le le_rfl

/-- The mode bit after `PREPARE` of the delay is the latched one; the other engines do not touch it. -/
theorem prepareEffects_hp : (prepareEffects c e m s).dlyc.hp =
    if e = .dly then !flt s.params.dlyTone half else s.dlyc.hp := by
  have hland := (land_frame true (cacheValues c e s.params (srate s))
    (withMode e (prepareBase c e m s))).control
  obtain ⟨hparams, -, hdlyc, -⟩ := prepareBase_keeps c e m s
  rw [← hparams, ← hdlyc, ← withMode_hp, prepareEffects_eq, finish_latch_prepareBase]
  exact congrArg Control.hp hland

/-- `PREPARE` touches no value register and not the list of events. -/
theorem prepareEffects_untouched (c : Cfg) (e : Engine) (m : Word32) (s : State) :
    (prepareEffects c e m s).x = s.x ∧ (prepareEffects c e m s).inbox = s.inbox := by
  have h := prepareEffects_inv (fun t => (t.x, t.inbox)) c e m s
    (fun _ _ _ _ _ => rfl) (fun _ _ _ => rfl) (fun _ _ _ => rfl) (fun _ _ _ => rfl)
    (fun _ _ => by cases e <;> rfl) fun _ _ => by cases e <;> rfl
  simpa only [Prod.mk.injEq] using h

end Effects

/-- Settles O28: the checks pass, and each part of the state is read off `prepareEffects` by its own lemma. -/
theorem prepareCompletes : Obligations.PrepareCompletes := by
  intro e m s hrate hsizes
  have hstatus := prepareEffects_status Config.cfg e m s
  obtain ⟨hprep, -⟩ := prepared_of_status hstatus
  obtain ⟨hfinfo, hsrate, hvariant, hparams⟩ :=
    prepareEffects_registers (c := Config.cfg) (e := e) (m := m) (s := s)
  obtain ⟨hshim, hdly⟩ := prepareEffects_scalars Config.cfg e m s
  obtain ⟨hx, hinbox⟩ := prepareEffects_untouched Config.cfg e m s
  refine ⟨prepareEffects Config.cfg e m s, prepareWith_of_inRange hrate hsizes, rfl, ?rings,
    fun v => prepareEffects_ring_other, ?filters, ?otherFilters, hstatus, hprep, prepareEffects_rate_same,
    ?maxblk, prepareEffects_holds, ?mode, ?others, ?otherMode, hshim, hdly, hx, hfinfo, hsrate, hvariant,
    hparams, hinbox⟩
  case rings =>
    intro u hu
    obtain ⟨n, hn, -, -⟩ := hsizes u hu
    exact ⟨n, hn, prepareEffects_ring_owned hu hn⟩
  case filters =>
    intro f hf
    rw [prepareEffects_filter, if_pos hf]
  case otherFilters =>
    intro f hf
    rw [prepareEffects_filter, if_neg hf]
  case maxblk => rw [prepareEffects_maxblk, if_pos rfl]
  case mode =>
    intro he
    rw [prepareEffects_hp, if_pos he]
  case others =>
    intro e' he
    refine ⟨prepareEffects_rate_ne he, ?_, fun p => prepareEffects_otherCache he⟩
    rw [prepareEffects_maxblk, if_neg he]
  case otherMode =>
    intro he
    rw [prepareEffects_hp, if_neg he]

/-! ## PREPARE twice (47_system.md R316) -/

section Again
variable {c : Cfg} {e : Engine} {m : Word32} {s : State}

theorem prepareRings_eq_self {size : Fin 17 → Nat} {us : List (Fin 17)}
    (h : ∀ u ∈ us, ring s (ownedUnit u) = freshRing (size u)) : prepareRings size us s = s := by
  induction us with
  | nil => rfl
  | cons u us ih =>
    rw [List.forall_mem_cons] at h
    have hone : setRing s (ownedUnit u) (freshRing (size u)) = s := by rw [← h.1, setRing_self]
    show prepareRings size us (setRing s (ownedUnit u) (freshRing (size u))) = s
    rw [hone, ih h.2]

theorem prepareFilters_eq_self {fs : List FsUnit} (h : ∀ f ∈ fs, filter s f = { x1 := 0, y1 := 0 }) :
    prepareFilters fs s = s := by
  induction fs with
  | nil => rfl
  | cons f fs ih =>
    rw [List.forall_mem_cons] at h
    have hone : setFilter s f { x1 := 0, y1 := 0 } = s := by rw [← h.1, setFilter_self]
    show prepareFilters fs (setFilter s f { x1 := 0, y1 := 0 }) = s
    rw [hone, ih h.2]

theorem prepareScalars_eq_self (hrev : e = .rev → s.shimPhase = 0 ∧ s.shimOut = 0)
    (hdly : e = .dly → s.dlyPh1 = 0 ∧ s.dlyPh2 = cfgDlyLfoPhi c) : prepareScalars c e s = s := by
  cases e with
  | rev =>
    obtain ⟨h1, h2⟩ := hrev rfl
    exact congrArg₂ (fun a b => { s with shimPhase := a, shimOut := b }) h1.symm h2.symm
  | dly =>
    obtain ⟨h1, h2⟩ := hdly rfl
    exact congrArg₂ (fun a b => { s with dlyPh1 := a, dlyPh2 := b }) h1.symm h2.symm
  | sat => rfl

theorem prepareRate_eq_self (hrate : rateOf e s = srate s) (hmax : readCsr s (.maxblk e) = m) :
    prepareRate e m s = s := by
  subst hmax
  cases e <;> (rw [prepareRate, ← hrate]; rfl)

theorem withMode_eq_self (h : e = .dly → s.dlyc.hp = !flt s.params.dlyTone half) : withMode e s = s := by
  unfold withMode
  split
  · next he => rw [← h he]
  · rfl

/-- A prepared engine is sized, cleared and latched as `PREPARE` at the same rate would leave it. -/
theorem prepareBase_of_prepared :
    prepareBase c e m (prepareEffects c e m s) = prepareEffects c e m s := by
  obtain ⟨-, hsrate, -⟩ := prepareEffects_registers (c := c) (e := e) (m := m) (s := s)
  obtain ⟨hshim, hdly⟩ := prepareEffects_scalars c e m s
  rw [prepareBase, hsrate, prepareRings_eq_self, prepareFilters_eq_self, prepareScalars_eq_self,
    prepareRate_eq_self]
  · rw [prepareEffects_rate_same, hsrate]
  · rw [prepareEffects_maxblk, if_pos rfl]
  · exact fun he => by rwa [if_pos he] at hshim
  · exact fun he => by rwa [if_pos he] at hdly
  · intro f hf
    rw [prepareEffects_filter, if_pos hf]
  · intro u hu
    rw [prepareEffects_ring, prepareRings_owned _ _ _ hu]

/-- What two states that differ in caches at most have in common, field by field. -/
theorem sameButCaches.fields {t : State} (h : sameButCaches s t) : t.status = s.status ∧ t.resp = s.resp ∧
    t.rb = s.rb ∧ t.fs = s.fs ∧ t.x = s.x ∧ t.shimPhase = s.shimPhase ∧ t.shimOut = s.shimOut ∧
    t.dlyPh1 = s.dlyPh1 ∧ t.dlyPh2 = s.dlyPh2 := by
  have keep {α : Type} (f : State → α) := congrArg f h
  exact ⟨keep State.status, keep State.resp, keep State.rb, keep State.fs, keep State.x,
    keep State.shimPhase, keep State.shimOut, keep State.dlyPh1, keep State.dlyPh2⟩

/-- All that preparing again does is to latch the cache again. -/
theorem prepareEffects_again : prepareEffects c e m (prepareEffects c e m s) =
    finishWork (latchCache c e (startWork (prepareEffects c e m s))) := by
  obtain ⟨hstatus, hresp, -⟩ := (finish_latch c e (prepareEffects c e m s)).fields
  have hkeep : statusPrepared e (prepareEffects c e m s).status = (prepareEffects c e m s).status := by
    rw [prepareEffects_status, statusPrepared, statusPrepared, BitVec.or_assoc, BitVec.or_self]
  rw [prepareEffects_eq c e m (prepareEffects c e m s), prepareBase_of_prepared]
  refine congrArg₂ (fun a b => { finishWork (latchCache c e (startWork (prepareEffects c e m s))) with
    status := a, resp := b }) ?_ hresp.symm
  exact (congrArg (statusPrepared e) hstatus).trans (hkeep.trans hstatus.symm)

/-- The cache values that are latched again are those that were latched before. -/
theorem prepareEffects_again_land : prepareEffects c e m (prepareEffects c e m s) =
    land true (cacheValues c e s.params (srate s)) (prepareEffects c e m s) := by
  obtain ⟨-, -, -, hparams⟩ := prepareEffects_registers (c := c) (e := e) (m := m) (s := s)
  rw [prepareEffects_again, finish_latchCache, prepareEffects_rate_same, hparams, withMode_eq_self]
  intro he
  rw [prepareEffects_hp, if_pos he, hparams]

/-- Where the first `PREPARE` used no free value the second changes nothing: the cache holds its values already. -/
theorem prepareEffects_again_eq (hfree : (prepareEffects c e m s).free = s.free) :
    prepareEffects c e m (prepareEffects c e m s) = prepareEffects c e m s := by
  rw [prepareEffects_again_land]
  refine land_eq_self fun q hq => ⟨isSlot_of_cacheValues hq, ?_⟩
  have hholds : HoldsLanded s (prepareEffects c e m s) q := prepareEffects_holds q hq
  unfold HoldsLanded at hholds
  split at hholds
  · obtain ⟨n, hlo, hhi, -⟩ := hholds
    omega
  · next hnum => exact ⟨Bool.eq_false_iff.mpr hnum, hholds⟩

/-- The first and the second `PREPARE` differ in the cache at most. -/
theorem prepareEffects_again_control :
    control (prepareEffects c e m (prepareEffects c e m s)) = control (prepareEffects c e m s) := by
  rw [prepareEffects_again_land]
  exact (land_frame true _ _).control

end Again

/-- Writing the same bits into the same field twice. -/
theorem write_twice (st a b : Word32) : ((st &&& a ||| b) &&& a) ||| b = st &&& a ||| b := by
  ext i hi
  simp only [BitVec.getElem_and, BitVec.getElem_or]
  cases st[i] <;> cases a[i] <;> cases b[i] <;> rfl

/-- A second fault entry for the same word changes nothing. -/
theorem raised_raised (k : FaultCode) (w : Command) (s : State) :
    raised k w (raised k w s) = raised k w s := by
  have hstatus : statusFaulted k (statusFaulted k s.status) = statusFaulted k s.status := by
    rw [statusFaulted_eq, statusFaulted_eq, write_twice]
  exact congrArg (fun st => { raised k w s with status := st }) hstatus

/-- Settles O30: the second command meets the same `SRATE`, so it raises the same fault, which changes nothing, or
latches the same cache over a state that is sized and cleared already. -/
theorem prepareIsIdempotent : Obligations.PrepareIsIdempotent := by
  intro e m s t hexec
  have hrate : srate t = srate s := by
    obtain ⟨k, rfl⟩ | ⟨-, -, rfl⟩ := exec_prepare_cases hexec
    · rfl
    · exact prepareEffects_registers.2.1
  change prepareWith Config.sizes Config.cfg e m s = .next t at hexec
  show ∃ t', prepareWith Config.sizes Config.cfg e m t = .next t' ∧ _
  obtain ⟨k, hs, ht⟩ | ⟨hs, ht⟩ := prepareWith_of_sameRate (z := Config.sizes) (c := Config.cfg)
    (e := e) (m := m) hrate
  · cases hexec.symm.trans hs
    rw [ht]
    refine ⟨_, rfl, ?_⟩
    rw [raised_raised]
    exact ⟨rfl, rfl, rfl, rfl, rfl, rfl, rfl, rfl, fun _ => rfl⟩
  · cases hexec.symm.trans hs
    have hsame := finish_latch Config.cfg e (prepareEffects Config.cfg e m s)
    rw [← prepareEffects_again] at hsame
    obtain ⟨-, -, hrb, hfs, hx, hphase, hout, hph1, hph2⟩ := hsame.fields
    exact ⟨_, ht, hrb, hfs, hx, prepareEffects_again_control, hphase, hout, hph1, hph2,
      prepareEffects_again_eq⟩

end Sys2Proof.Machine
